-- ==== Sys2Proof/Word.lean ====
section
/-!
DEFINITION. The word types of the block: bytes, packed pixel words, ASCII codes and the four-channel pixel
(rules R10, R11, R12 of spec/00_scope.md).
-/
namespace Sys2Proof

/-- `u8` (R11): one byte of a stream, or one channel of a pixel (`CHAN_BITS` = 8, R8). Bits are numbered 7 down to 0 (R10). -/
abbrev Byte := BitVec 8

/-- `u16` (R11). -/
abbrev U16 := BitVec 16

/-- `u24` (R11). -/
abbrev U24 := BitVec 24

/-- `u32` (R11): a packed pixel (`PIXEL_BITS` = 32) or a dimension (`DIM_BITS` = 32), R8. -/
abbrev Word := BitVec 32

/-- An ASCII code 0..127: the operand of `writeChar` (R102) and a byte of `MAGIC` (R9). Seven bits, so a code above
127, which R102 keeps outside the operation's domain, cannot be written down. -/
abbrev Ascii := BitVec 7

/-- R12: a record of four `u8` fields; two pixels are equal when all four are. -/
structure Pixel where
  r : Byte
  g : Byte
  b : Byte
  a : Byte
  deriving DecidableEq, Repr, Inhabited

/-- A slot of the colour cache: the 6-bit index 0..63 (`CACHE_SLOTS` = 64, `HASH_BITS` = 6, R8). -/
abbrev Slot := Fin 64

end Sys2Proof
end

