-- ==== Sys2Proof/Syntax.lean ====
section
/-!
DEFINITION. The opcodes of the stream: one constructor for each of the seven rows of spec/opcode_table.json. The operands
are those of the assembly notation of R91: run lengths and deltas, not the stored fields.
-/
namespace Sys2Proof

/-- One stream opcode (R3, R70). -/
inductive Instr where
  /-- `INDEX i`: cache slot `i` (R73). -/
  | index (i : Slot)
  /-- `RUN8 n`: run length 1..32 (R74). -/
  | run8 (len : Nat)
  /-- `RUN16 n`: run length 33..8224 (R75). -/
  | run16 (len : Nat)
  /-- `DIFF8 dr, dg, db`: each in -2..1 (R76). -/
  | diff8 (dr dg db : Int)
  /-- `DIFF16 dr, dg, db`: dr in -16..15, dg and db in -8..7 (R77). -/
  | diff16 (dr dg db : Int)
  /-- `DIFF24 dr, dg, db, da`: each in -16..15 (R78). -/
  | diff24 (dr dg db da : Int)
  /-- `COLOR [r=R] [g=G] [b=B] [a=A]`: the literal of each flagged channel (R79). -/
  | color (r g b a : Option Byte)
  deriving DecidableEq, Repr

/-- The kind of an opcode, a function of its first byte alone (R71). -/
inductive Kind where
  | index
  | run8
  | run16
  | diff8
  | diff16
  | diff24
  | color
  deriving DecidableEq, Repr

/-- The kind of an instruction. -/
def Instr.kind : Instr → Kind
  | .index _ => .index
  | .run8 _ => .run8
  | .run16 _ => .run16
  | .diff8 _ _ _ => .diff8
  | .diff16 _ _ _ => .diff16
  | .diff24 _ _ _ _ => .diff24
  | .color _ _ _ _ => .color

/-- 1 for a flagged channel of COLOR, 0 for an unflagged one. -/
def literalCount (c : Option Byte) : Nat := c.isSome.toNat

/-- The length in bytes of an instruction (the table of R70). -/
def Instr.length : Instr → Nat
  | .index _ => 1
  | .run8 _ => 1
  | .run16 _ => 2
  | .diff8 _ _ _ => 1
  | .diff16 _ _ _ => 2
  | .diff24 _ _ _ _ => 3
  | .color r g b a => 1 + literalCount r + literalCount g + literalCount b + literalCount a

end Sys2Proof
end

