-- ==== Sys2Proof/WellFormed.lean ====
section
/-!
DEFINITION. Which instructions have an encoding: every operand within the range of its field (R80, R81, R91).
-/
namespace Sys2Proof

/-- `lo <= d <= hi`. -/
def inRange (lo hi d : Int) : Bool := decide (lo ≤ d) && decide (d ≤ hi)

/-- The operand ranges of R91. `index` carries a 6-bit slot and `color` whole bytes, so those two have no value out of
range. -/
def Instr.wf : Instr → Bool
  | .index _ => true
  | .run8 len => decide (1 ≤ len) && decide (len ≤ 32)
  | .run16 len => decide (33 ≤ len) && decide (len ≤ 8224)
  | .diff8 dr dg db => inRange (-2) 1 dr && inRange (-2) 1 dg && inRange (-2) 1 db
  | .diff16 dr dg db => inRange (-16) 15 dr && inRange (-8) 7 dg && inRange (-8) 7 db
  | .diff24 dr dg db da =>
      inRange (-16) 15 dr && inRange (-16) 15 dg && inRange (-16) 15 db && inRange (-16) 15 da
  | .color _ _ _ _ => true

end Sys2Proof
end

