-- ==== Sys2Proof/Decode.lean ====
section
/-!
DEFINITION. The decoder of one opcode, total on any bytes, and after it the encoder, both written from the formats of
spec/30_encoding.md (R70 to R83). The layouts of DIFF8, DIFF16 and DIFF24 stand in one definition each
(`packDiff8`/`unpackDiff8` and so on: the spec's decisions D6, D7, D8).
-/
namespace Sys2Proof

/-! ### Byte order (R50) -/

/-- The two bytes of a big-endian `u16`, `v[15:8]` first. -/
def be16 (v : U16) : List Byte := [v.extractLsb' 8 8, v.extractLsb' 0 8]

/-- The three bytes of a big-endian `u24`. -/
def be24 (v : U24) : List Byte := [v.extractLsb' 16 8, v.extractLsb' 8 8, v.extractLsb' 0 8]

/-- The four bytes of a big-endian `u32`. -/
def be32 (v : Word) : List Byte :=
  [v.extractLsb' 24 8, v.extractLsb' 16 8, v.extractLsb' 8 8, v.extractLsb' 0 8]

/-! ### Biased fields (R80) -/

/-- The delta a field of `w` bits holds: `field - bias`. -/
def unbias {w : Nat} (bias : Nat) (f : BitVec w) : Int := (f.toNat : Int) - bias

/-- The field of `w` bits that holds a delta: `delta + bias`. -/
def biased (w bias : Nat) (d : Int) : BitVec w := BitVec.ofInt w (d + bias)

/-! ### Kind and length of an opcode, from its first byte alone -/

/-- R71: `kind(b)`. The seven masked comparisons exclude each other and cover all 256 values, so the last needs no test. -/
def kind (b : Byte) : Kind :=
  if b &&& 0xC0 = 0x00 then .index
  else if b &&& 0xE0 = 0x40 then .run8
  else if b &&& 0xE0 = 0x60 then .run16
  else if b &&& 0xC0 = 0x80 then .diff8
  else if b &&& 0xE0 = 0xC0 then .diff16
  else if b &&& 0xF0 = 0xE0 then .diff24
  else .color

/-- `popcount(b[3:0])`: the number of literals of a COLOR opcode (R72). -/
def flagCount (b : Byte) : Nat :=
  (b.getLsbD 3).toNat + (b.getLsbD 2).toNat + (b.getLsbD 1).toNat + (b.getLsbD 0).toNat

/-- R72: `ncont(b)`, the number of continuation bytes. -/
def ncont (b : Byte) : Nat :=
  match kind b with
  | .index => 0
  | .run8 => 0
  | .run16 => 1
  | .diff8 => 0
  | .diff16 => 1
  | .diff24 => 2
  | .color => flagCount b

/-- R72: `oplen(b)`, the length in bytes. -/
def oplen (b : Byte) : Nat := 1 + ncont b

/-! ### Field extraction (R73 to R79, R147) -/

/-- INDEX: `i = b[5:0]` (R73). -/
def unpackIndex (b : Byte) : Instr := .index (b.extractLsb' 0 6).toFin

/-- RUN8: `run = b[4:0] + 1` (R81). -/
def unpackRun8 (b : Byte) : Instr := .run8 ((b.extractLsb' 0 5).toNat + 1)

/-- RUN16: `run = (b0[4:0] << 8 | b1) + 33` (R81; spec/90_conflicts.md C1 for the constant). -/
def unpackRun16 (v : U16) : Instr := .run16 ((v.extractLsb' 0 13).toNat + 33)

/-- DIFF8: fields `b[5:4]`, `b[3:2]`, `b[1:0]`, bias 2 (R76, R147). -/
def unpackDiff8 (b : Byte) : Instr :=
  .diff8 (unbias 2 (b.extractLsb' 4 2)) (unbias 2 (b.extractLsb' 2 2)) (unbias 2 (b.extractLsb' 0 2))

/-- DIFF16: fields `b0[4:0]` with bias 16, `b1[7:4]` and `b1[3:0]` with bias 8 (R77, R147). -/
def unpackDiff16 (v : U16) : Instr :=
  .diff16 (unbias 16 (v.extractLsb' 8 5)) (unbias 8 (v.extractLsb' 4 4)) (unbias 8 (v.extractLsb' 0 4))

/-- DIFF24: fields `W[19:15]`, `W[14:10]`, `W[9:5]`, `W[4:0]`, bias 16 each (R78, R147). -/
def unpackDiff24 (v : U24) : Instr :=
  .diff24 (unbias 16 (v.extractLsb' 15 5)) (unbias 16 (v.extractLsb' 10 5))
    (unbias 16 (v.extractLsb' 5 5)) (unbias 16 (v.extractLsb' 0 5))

/-- One flagged channel takes the next literal; an unflagged one takes none (R79). -/
def takeLiteral (flag : Bool) (lits : List Byte) : Option Byte × List Byte :=
  if flag then (some (lits.headD 0), lits.tail) else (none, lits)

/-- COLOR: flags `b[3:0]` for r, g, b, a, and the literals in that order (R79). -/
def unpackColor (b : Byte) (lits : List Byte) : Instr :=
  let r := takeLiteral (b.getLsbD 3) lits
  let g := takeLiteral (b.getLsbD 2) r.2
  let bl := takeLiteral (b.getLsbD 1) g.2
  let a := takeLiteral (b.getLsbD 0) bl.2
  .color r.1 g.1 bl.1 a.1

/-- The instruction with first byte `b` and the continuation bytes `cs` (R183). Total: `decode` and the fetch call it
with `ncont b` continuation bytes, and then no default byte is read. -/
def instrOf (b : Byte) (cs : List Byte) : Instr :=
  match kind b with
  | .index => unpackIndex b
  | .run8 => unpackRun8 b
  | .run16 => unpackRun16 (b ++ cs.headD 0)
  | .diff8 => unpackDiff8 b
  | .diff16 => unpackDiff16 (b ++ cs.headD 0)
  | .diff24 => unpackDiff24 (b ++ cs.headD 0 ++ cs.tail.headD 0)
  | .color => unpackColor b cs

/-- Why bytes hold no whole opcode. No first byte is illegal (R84), so there is no third reason. -/
inductive DecodeError where
  /-- There is no byte at all. -/
  | noFirstByte
  /-- The opcode needs `need` continuation bytes and `have_` are there. -/
  | missingContinuation (kind : Kind) (need have_ : Nat)
  deriving DecidableEq, Repr

/-- The first opcode of a byte sequence, with the bytes after it (R87). -/
def decode : List Byte → Except DecodeError (Instr × List Byte)
  | [] => .error .noFirstByte
  | b :: rest =>
    if rest.length < ncont b then .error (.missingContinuation (kind b) (ncont b) rest.length)
    else .ok (instrOf b (rest.take (ncont b)), rest.drop (ncont b))

/-! ### The encoder of one opcode -/

/-- INDEX: `00iiiiii` (R73). -/
def packIndex (i : Slot) : Byte := 0b00#2 ++ BitVec.ofNat 6 i.val

/-- RUN8: `010nnnnn`, `n = run - 1` (R74). -/
def packRun8 (len : Nat) : Byte := 0b010#3 ++ BitVec.ofNat 5 (len - 1)

/-- RUN16: `011nnnnn nnnnnnnn`, `n = run - 33` (R75). -/
def packRun16 (len : Nat) : U16 := 0b011#3 ++ BitVec.ofNat 13 (len - 33)

/-- DIFF8: `10rrggbb` (R76). The field order is the spec's decision D6. -/
def packDiff8 (dr dg db : Int) : Byte := 0b10#2 ++ biased 2 2 dr ++ biased 2 2 dg ++ biased 2 2 db

/-- DIFF16: `110rrrrr ggggbbbb` (R77). The nibble order is the spec's decision D7. -/
def packDiff16 (dr dg db : Int) : U16 := 0b110#3 ++ biased 5 16 dr ++ biased 4 8 dg ++ biased 4 8 db

/-- DIFF24: `1110rrrr rgggggbb bbbaaaaa` (R78). The field order is the spec's decision D8. -/
def packDiff24 (dr dg db da : Int) : U24 :=
  0b1110#4 ++ biased 5 16 dr ++ biased 5 16 dg ++ biased 5 16 db ++ biased 5 16 da

/-- COLOR's first byte: `1111RGBA` (R79). -/
def packColorTag (hr hg hb ha : Bool) : Byte :=
  0b1111#4 ++ BitVec.ofBool hr ++ BitVec.ofBool hg ++ BitVec.ofBool hb ++ BitVec.ofBool ha

/-- The bytes of an instruction (R91). On an instruction that is not well-formed the fields are truncated. -/
def encode : Instr → List Byte
  | .index i => [packIndex i]
  | .run8 len => [packRun8 len]
  | .run16 len => be16 (packRun16 len)
  | .diff8 dr dg db => [packDiff8 dr dg db]
  | .diff16 dr dg db => be16 (packDiff16 dr dg db)
  | .diff24 dr dg db da => be24 (packDiff24 dr dg db da)
  | .color r g b a =>
      packColorTag r.isSome g.isSome b.isSome a.isSome :: (r.toList ++ g.toList ++ b.toList ++ a.toList)

/-! ### The opcode table's numbering of an instruction's bits -/

/-- The longest instruction, in bytes (R72). -/
def maxOplen : Nat := 5

/-- The bytes of an instruction whose bits are `w` in the opcode table's numbering (the second byte is bits 15..8),
followed by bytes of zeros up to the longest instruction. -/
def tableBytes (nbits w : Nat) : List Byte :=
  (List.range maxOplen).map fun k => BitVec.ofNat 8 ((w % 2 ^ nbits) >>> (8 * k))

/-- The instruction the decoder reads from a word of the opcode table. -/
def decodeTableWord (nbits w : Nat) : Option Instr :=
  match decode (tableBytes nbits w) with
  | .ok (i, _) => some i
  | .error _ => none

end Sys2Proof
end

