-- ==== Sys2Proof/Config.lean ====
section
/-!
DEFINITION. The constants the source fixes (R8), the parameters it leaves to the implementation (R9), and the free
values (spec/93_implementation_defined.md, treatment `any value`).
-/
namespace Sys2Proof

/-! ### Constants fixed by the source (R8) -/

/-- `HEADER_BYTES`: the header's length, and the entry point of the decode program (R57, R218). -/
def Config.headerBytes : Nat := 14

/-- `PAD_BYTES`: the trailer's length. -/
def Config.padBytes : Nat := 4

/-- `RUN_MAX` = 0x2020: the run counter value that forces a flush (R124). -/
def Config.runMax : Nat := 8224

/-- `RUN8_MAX`: the longest run RUN8 carries (R126). -/
def Config.run8Max : Nat := 32

/-- `PREV_INIT`: the previous pixel at the start of every invocation (R39). -/
def Config.prevInit : Pixel := ⟨0, 0, 0, 255⟩

/-- `CACHE_INIT`: the content of every slot at the start of every invocation (R39). -/
def Config.slotInit : Pixel := ⟨0, 0, 0, 0⟩

/-! ### Parameters of an implementation (R9, R35)

They are plain data and a state carries them, so a statement about every state is a statement about every
implementation; no step changes them. -/

/-- `MAGIC` (R9): four ASCII codes. -/
structure Magic where
  c0 : Ascii
  c1 : Ascii
  c2 : Ascii
  c3 : Ascii
  deriving DecidableEq, Repr

/-- The magic as the header's big-endian word (R179). -/
def Magic.word (m : Magic) : Word :=
  m.c0.setWidth 8 ++ m.c1.setWidth 8 ++ m.c2.setWidth 8 ++ m.c3.setWidth 8

/-- The parameters of R9 that a rule reads: `MAGIC`, `PIXBUF_MAX` and `STREAM_MAX` (in bytes). `NCTX` is the length of
a `Block` (Machine/Contexts.lean); no rule uses `IFACE` and `REGMAP`. -/
structure Params where
  magic : Magic
  pixbufMax : Nat
  streamMax : Nat
  deriving DecidableEq, Repr

/-- R9's default `MAGIC`, `71 6F 69 66` ("qoif"). PRESUMED by the spec itself (its decision D3); log entry 3. -/
def Config.defaultMagic : Magic := ⟨0x71, 0x6F, 0x69, 0x66⟩

/-- The parameters `State.reset` carries. DESIGN CHOICE: R9 leaves both maxima open; log entry 4. -/
def Config.defaultParams : Params :=
  { magic := Config.defaultMagic, pixbufMax := 4294967296, streamMax := 4294967296 }

/-! ### Free values

No body: nothing can be proved of what they are. The first argument is the number of the context (`State.context`), the
second the state's draw counter (`State.draws`), advanced by every start command, fault entry and power-on reset; the third
says which register or address is meant (log entry 7). -/

/-- The value of a register that holds a count, where the spec says it is unspecified (U22, U24, U25). -/
opaque Config.freeNat : Nat → Nat → Nat → Nat

/-- The value of a 32-bit register, where the spec says it is unspecified (U22). -/
opaque Config.freeWord : Nat → Nat → Nat → Word

/-- The value of an 8-bit register, where the spec says it is unspecified (U22). -/
opaque Config.freeByte : Nat → Nat → Nat → Byte

/-- The value of a pixel register, where the spec says it is unspecified (U22). -/
opaque Config.freePixel : Nat → Nat → Nat → Pixel

/-- What the cursor reads at a `STREAM` address that nothing has written (U21: any value). -/
opaque Config.unwrittenByte : Nat → Nat → Nat → Byte

end Sys2Proof
end

