-- ==== Sys2Proof/Machine/State.lean ====
section
/-!
DEFINITION. The context (R20 to R34): every register and buffer of one codec context as plain data, the host's moves,
the ways a step can stop, and the state after power-on reset.
-/
namespace Sys2Proof.Machine

/-- R21: the activity of the context. -/
inductive Mode where
  | idle
  | enc
  | dec
  | done
  | fault
  deriving DecidableEq, Repr

/-- The five fault kinds of the hardware (R194). -/
inductive FaultKind where
  | outOfBounds
  | malformedHeader
  | truncatedStream
  | bufferOverflow
  | dimensionMismatch
  deriving DecidableEq, Repr

/-- R22: the fault register. `code` is 0 when no fault is recorded; `info` is the spec's `fault.at`. -/
structure FaultRecord where
  code : Byte
  info : Nat
  deriving DecidableEq, Repr

/-- What the host can do to the context from outside (R45, R46, R61, R216, R221). -/
inductive HostEvent where
  /-- `START_ENC(width, height, channels, cspace, npix)` (R162). -/
  | startEnc (width height : Word) (channels cspace : Byte) (npix : Nat)
  /-- `START_DEC(L)` (R177). -/
  | startDec (len : Nat)
  /-- The host fills `STREAM` with bytes from an address on (R45). -/
  | putStream (addr : Nat) (bytes : List Byte)
  /-- The host fills `PIXIN` with words from an index on (R46). -/
  | putPixin (idx : Nat) (words : List Word)
  /-- The reset input (R216). -/
  | powerOnReset
  deriving DecidableEq, Repr

/-- A memory space as cells in one canonical form (`Cells.wf`): addresses strictly rising. An address that is not listed
is unwritten and holds no value (R41), so no entry can equal what an unlisted address reads as. -/
abbrev Cells (α : Type) := List (Nat × α)

/-- A byte-addressed space: `STREAM` (R45) and `PIXOUT` (R47). -/
abbrev Memory := List Host.Cell

/-- The state of one context. The fields from `mode` to `pixout` are the registers and buffers of R21 to R34; `params`
holds the implementation's parameters (R35), and `host`, `context` and `draws` are the model's own. -/
structure State where
  /-- `MAGIC`, `PIXBUF_MAX`, `STREAM_MAX` (R9, R35); no step changes them. -/
  params : Params
  /-- R21. -/
  mode : Mode
  /-- R22. -/
  fault : FaultRecord
  /-- R23. -/
  prev : Pixel
  /-- R24. -/
  run : Nat
  /-- R25. -/
  width : Word
  /-- R25. -/
  height : Word
  /-- R25. -/
  channels : Byte
  /-- R25. -/
  cspace : Byte
  /-- R26. -/
  cache : Vector Pixel 64
  /-- R28: the decode's program counter. -/
  pos : Nat
  /-- R29. -/
  lim : Nat
  /-- R30: the encode's program counter. -/
  idx : Nat
  /-- R30. -/
  npix : Nat
  /-- R31. -/
  out : Nat
  /-- R32: `out_len`. -/
  outLen : Nat
  /-- R33, R45. -/
  stream : Memory
  /-- R46. -/
  pixin : Cells Word
  /-- R34, R47. -/
  pixout : Memory
  /-- The model's own: the schedule of who moves next. `some e` is a move of the host, `none` a turn of the codec's
  sequencer; when nothing is listed the sequencer moves. -/
  host : List (Option HostEvent)
  /-- The model's own: which context of a block this is. Only the free values depend on it, so that no two contexts are tied
  by them (log entry 7); no rule gives a context a number (R212). -/
  context : Nat
  /-- The model's own: how many commands have drawn free values (`Config.freeNat` and the others). -/
  draws : Nat
  deriving DecidableEq, Repr

/-- Why the machine stops with a fault. The hardware's own five faults are not here: their entry is described (R203), so
they are next states with `mode = fault`. -/
inductive Fault where
  /-- The host fills `STREAM` at an address not below `STREAM_MAX`, where no buffer exists (R9). Raised by `putStream`;
  safe. -/
  | noSuchStreamAddress
  deriving DecidableEq, Repr

/-- Situations to which the spec gives no meaning (R15, R206). -/
inductive Refusal where
  /-- The instruction has no meaning in this model yet. Raised by `exec` only; safe. -/
  | notModelled (mnemonic : String)
  /-- A start command while `mode` is `ENC` or `DEC` (R222). Raised by `startEnc` and `startDec`; safe. -/
  | startWhileBusy
  /-- `START_ENC` with `channels` outside 3 and 4 (R171 (b)). Raised by `startEnc`; safe. -/
  | channelsNotThreeOrFour
  /-- A start whose capacity or length exceeds `STREAM_MAX` (R65, R162, R177). Raised by `startEnc` and `startDec`; safe. -/
  | streamTooLarge
  /-- The host touches a buffer while `mode` is `ENC` or `DEC` (R61, R223). Raised by `putStream` and `putPixin`; safe. -/
  | hostAccessDuringInvocation
  /-- The encode step needs a `PIXIN` word that the host never placed (R171 (c)). Raised by `encodeStep`; safe. -/
  | pixinWordMissing
  deriving DecidableEq, Repr

/-- The context right after power-on reset: `mode` and `fault.code` as R40 and R216 state them; every other register at
the value log entry 1 names (DESIGN CHOICE: the spec leaves them unspecified), no buffer byte written, and nothing
scheduled. -/
def State.reset : State where
  params := Config.defaultParams
  mode := .idle
  fault := ⟨0, 0⟩
  prev := ⟨0, 0, 0, 0⟩
  run := 0
  width := 0
  height := 0
  channels := 0
  cspace := 0
  cache := Vector.replicate 64 ⟨0, 0, 0, 0⟩
  pos := 0
  lim := 0
  idx := 0
  npix := 0
  out := 0
  outLen := 0
  stream := []
  pixin := []
  pixout := []
  host := []
  context := 0
  draws := 0

end Sys2Proof.Machine
end

