-- ==== Sys2Proof/Machine/Operands.lean ====
section
/-!
DEFINITION. The operand computations of the pixel path: packing (R12), the pixelHash (R110), exact signed deltas (R137) and the
channel add (R148).
-/
namespace Sys2Proof.Machine

/-- R12: `pack(p) = {p.r, p.g, p.b, p.a}`. -/
def pack (p : Pixel) : Word := p.r ++ p.g ++ p.b ++ p.a

/-- R12: `unpack(w) = (w[31:24], w[23:16], w[15:8], w[7:0])`. -/
def unpack (w : Word) : Pixel :=
  ⟨w.extractLsb' 24 8, w.extractLsb' 16 8, w.extractLsb' 8 8, w.extractLsb' 0 8⟩

/-- R110: `hash(p) = (p.r xor p.g xor p.b xor p.a) mod 64`, the low six bits of the xor. -/
def pixelHash (p : Pixel) : Slot := ((p.r ^^^ p.g ^^^ p.b ^^^ p.a).extractLsb' 0 6).toFin

/-- R11: `wrap8(i) = i mod 256`. -/
def wrap8 (i : Int) : Byte := BitVec.ofInt 8 i

/-- R148, R149: the channel add, reduced modulo 256. -/
def add8 (c : Byte) (d : Int) : Byte := wrap8 ((c.toNat : Int) + d)

/-- The four signed deltas of R137. -/
structure Deltas where
  r : Int
  g : Int
  b : Int
  a : Int
  deriving DecidableEq, Repr

/-- R137: one exact signed difference; it does not wrap. -/
def channelDelta (new old : Byte) : Int := (new.toNat : Int) - (old.toNat : Int)

/-- R137: the deltas of `v` against `prev`. -/
def deltas (v prev : Pixel) : Deltas :=
  { r := channelDelta v.r prev.r, g := channelDelta v.g prev.g,
    b := channelDelta v.b prev.b, a := channelDelta v.a prev.a }

/-- R150 to R152: a pixel with a delta added to each channel. -/
def addDeltas (p : Pixel) (dr dg db da : Int) : Pixel :=
  ⟨add8 p.r dr, add8 p.g dg, add8 p.b db, add8 p.a da⟩

/-- R153: each flagged channel takes its literal, an unflagged one keeps its value. -/
def withLiterals (p : Pixel) (r g b a : Option Byte) : Pixel :=
  ⟨r.getD p.r, g.getD p.g, b.getD p.b, a.getD p.a⟩

/-- R47: the four bytes of a pixel in `PIXOUT`. -/
def pixelBytes (p : Pixel) : List Byte := [p.r, p.g, p.b, p.a]

/-- The bytes of `n` copies of a pixel (`rep(p, n)`, R16). -/
def pixelRunBytes (p : Pixel) : Nat → List Byte
  | 0 => []
  | n + 1 => p.r :: p.g :: p.b :: p.a :: pixelRunBytes p n

end Sys2Proof.Machine
end

