-- ==== Sys2Proof/Machine/Flags.lean ====
section
/-!
DEFINITION. The block has no flags and no condition codes (R36). What stands here are the encoder's internal predicates,
which R36 names as combinational functions of the state and the input pixel: equal to `prev`, cache hit, and the three
fit tests.
-/
namespace Sys2Proof.Machine

/-- R122: the input pixel extends the run. -/
def State.extendsRun (s : State) (v : Pixel) : Bool := decide (v = s.prev)

/-- R113: `hit(p)`. There is no valid bit: an unwritten slot compares as (0,0,0,0). -/
def State.hit (s : State) (v : Pixel) : Bool := decide (s.cache[pixelHash v] = v)

/-- R138: `fits8`. -/
def Deltas.fits8 (d : Deltas) : Bool :=
  decide (d.a = 0) && inRange (-2) 1 d.r && inRange (-2) 1 d.g && inRange (-2) 1 d.b

/-- R138: `fits16`. -/
def Deltas.fits16 (d : Deltas) : Bool :=
  decide (d.a = 0) && inRange (-16) 15 d.r && inRange (-8) 7 d.g && inRange (-8) 7 d.b

/-- R138: `fits24`. -/
def Deltas.fits24 (d : Deltas) : Bool :=
  inRange (-16) 15 d.r && inRange (-16) 15 d.g && inRange (-16) 15 d.b && inRange (-16) 15 d.a

end Sys2Proof.Machine
end

