-- ==== Sys2Proof/Machine/Ops.lean ====
section
/-!
DEFINITION. The shared operations: memory cells, taking a fault, the nine cursor operations of `bytecursor_fifo`
(spec/40_bytecursor.md), the colour cache's read and update, and the pixel output (R182).
-/
namespace Sys2Proof.Machine

/-! ### Memory cells -/

/-- What an address holds: the value last written, or nothing if it is unwritten (R41). -/
def Cells.get? {α : Type} : Cells α → Nat → Option α
  | [], _ => none
  | (k, v) :: t, a => if k = a then some v else Cells.get? t a

/-- Consecutive cells from an address on. -/
def Cells.block {α : Type} : Nat → List α → Cells α
  | _, [] => []
  | a, v :: vs => (a, v) :: Cells.block (a + 1) vs

/-- Write values to consecutive addresses from `a` on. -/
def Cells.put {α : Type} (m : Cells α) (a : Nat) (vs : List α) : Cells α :=
  m.filter (fun c => decide (c.1 < a)) ++ Cells.block a vs ++ m.filter (fun c => decide (a + vs.length ≤ c.1))

/-- The canonical form: addresses strictly rising. -/
abbrev Cells.wf {α : Type} (m : Cells α) : Prop := m.Pairwise (fun c d => c.1 < d.1)

/-- The canonical form of a byte memory. -/
abbrev Memory.wf (m : Memory) : Prop := Cells.wf m

/-! ### The result of an operation that may raise -/

/-- A value and the state after the operation, or the state after fault entry, when nothing later in the pseudocode runs
(R15). -/
inductive Res (α : Type) where
  | ok (v : α) (s : State)
  | raised (s : State)

/-- Sequencing: what follows runs only if nothing was raised. -/
def Res.andThen {α β : Type} (x : Res α) (f : α → State → Res β) : Res β :=
  match x with
  | .ok v s => f v s
  | .raised s => .raised s

/-- The state reached, with or without a fault. -/
def Res.final {α : Type} : Res α → State
  | .ok _ s => s
  | .raised s => s

/-! ### Free values

One name for each kind of register, applied to the context and its draw counter (log entry 7). -/

/-- An unspecified count. -/
def State.freeNat (s : State) (reg : Nat) : Nat := Config.freeNat s.context s.draws reg

/-- An unspecified 32-bit register. -/
def State.freeWord (s : State) (reg : Nat) : Word := Config.freeWord s.context s.draws reg

/-- An unspecified 8-bit register. -/
def State.freeByte (s : State) (reg : Nat) : Byte := Config.freeByte s.context s.draws reg

/-- An unspecified pixel register. -/
def State.freePixel (s : State) (reg : Nat) : Pixel := Config.freePixel s.context s.draws reg

/-! ### Fault entry (spec/60_exceptions.md) -/

/-- R194: the fault codes. -/
def FaultKind.code : FaultKind → Byte
  | .outOfBounds => 1
  | .malformedHeader => 2
  | .truncatedStream => 3
  | .bufferOverflow => 4
  | .dimensionMismatch => 5

/-- R203, R66: the outputs of a failed invocation are unspecified, so they become free values (U20): in a decode `PIXOUT`, `out`
and the header registers, in an encode `STREAM` and `out_len`. A buffer of which no byte is written holds no value.
Outside a decode `out` stays as it was: R38 and U20 leave it unspecified there, and keeping it is the model's choice (DESIGN
CHOICE, log entry 25). -/
def State.invalidateOutputs (s : State) : State :=
  if s.mode = .dec then
    { s with pixout := [], out := s.freeNat 8, width := s.freeWord 2
             height := s.freeWord 3, channels := s.freeByte 2
             cspace := s.freeByte 3, draws := s.draws + 1 }
  else { s with stream := [], outLen := s.freeNat 9, draws := s.draws + 1 }

/-- R203: `raise K(info)`: the fault is recorded, the mode becomes FAULT and the outputs are invalid. There is no vector, no
saved program counter and no return (R205). -/
def raise (k : FaultKind) (info : Nat) (s : State) : State :=
  { s.invalidateOutputs with fault := ⟨k.code, info⟩, mode := .fault }

/-- `fault <- (0, unspecified)` of the start commands (R162, R177): `fault.at` is then a free value (U25). -/
def State.clearFault (s : State) : State := { s with fault := ⟨0, s.freeNat 0⟩ }

/-! ### bytecursor_fifo -/

/-- A byte of `STREAM`: what was written, or a free value at an unwritten address (U21). -/
def State.streamByte (s : State) (a : Nat) : Byte :=
  ((Cells.get? s.stream a).getD (Config.unwrittenByte s.context s.draws a))

/-- R103, R106: a cursor access that would pass `lim`. It is reported as BufferOverflow in an encode and as OutOfBounds
otherwise; the information word is `pos`. -/
def raiseCursor (s : State) : State :=
  raise (if s.mode = .enc then .bufferOverflow else .outOfBounds) s.pos s

/-- A read of `n` bytes at `pos` (R14, R103, R104): the check covers the whole access and comes before any effect. -/
def cursorRead {α : Type} (n : Nat) (value : (Nat → Byte) → α) (s : State) : Res α :=
  if s.lim < s.pos + n then .raised (raiseCursor s)
  else .ok (value fun k => s.streamByte (s.pos + k)) { s with pos := s.pos + n }

/-- A write of bytes at `pos`, the first at the lowest address (R14, R103, R104). -/
def cursorWrite (bs : List Byte) (s : State) : Res Unit :=
  if s.lim < s.pos + bs.length then .raised (raiseCursor s)
  else .ok () { s with stream := Cells.put s.stream s.pos bs, pos := s.pos + bs.length }

/-- R94. -/
def readU8 (s : State) : Res Byte := cursorRead 1 (fun m => m 0) s

/-- R95. -/
def readU16 (s : State) : Res U16 := cursorRead 2 (fun m => m 0 ++ m 1) s

/-- R96. -/
def readU24 (s : State) : Res U24 := cursorRead 3 (fun m => m 0 ++ m 1 ++ m 2) s

/-- R97. -/
def readU32 (s : State) : Res Word := cursorRead 4 (fun m => m 0 ++ m 1 ++ m 2 ++ m 3) s

/-- R98. -/
def writeU8 (v : Byte) (s : State) : Res Unit := cursorWrite [v] s

/-- R99. -/
def writeU16 (v : U16) (s : State) : Res Unit := cursorWrite (be16 v) s

/-- R100. -/
def writeU24 (v : U24) (s : State) : Res Unit := cursorWrite (be24 v) s

/-- R101. -/
def writeU32 (v : Word) (s : State) : Res Unit := cursorWrite (be32 v) s

/-- R102: `writeU8` of an ASCII code. -/
def writeChar (c : Ascii) (s : State) : Res Unit := writeU8 (c.setWidth 8) s

/-- `readU8`, `n` times, in stream order: the continuation bytes of an opcode (R108, R183). -/
def readBytes : Nat → State → Res (List Byte)
  | 0, s => .ok [] s
  | n + 1, s => (readU8 s).andThen fun b s1 => (readBytes n s1).andThen fun bs s2 => .ok (b :: bs) s2

/-! ### color_cache_lookup -/

/-- `CACHE_INIT` in every slot (R39). -/
def cacheInit : Vector Pixel 64 := Vector.replicate 64 Config.slotInit

/-- R112: `update(p)`, `cache[hash(p)] <- p`, whatever the slot held. -/
def State.cacheUpdate (s : State) (p : Pixel) : State := { s with cache := s.cache.set (pixelHash p) p }

/-! ### Pixel output -/

/-- `width * height` in `Nat`, which does not wrap (R11). -/
def State.pixelCount (s : State) : Nat := s.width.toNat * s.height.toNat

/-- R182: `emit_pixel(p)`. -/
def emitPixel (p : Pixel) (s : State) : Res Unit :=
  if s.pixelCount ≤ s.out then .raised (raise .outOfBounds s.out s)
  else .ok () { s with pixout := Cells.put s.pixout (4 * s.out) (pixelBytes p), out := s.out + 1 }

/-- `repeat len times: emit_pixel(p)` (R129, R130) in one write. A run longer than the room left raises OutOfBounds at the
first pixel that does not fit; the test may come before anything is written (R135). Laws/Emit.lean proves it equal to the
repetition of `emitPixel`. -/
def emitRun (p : Pixel) (len : Nat) (s : State) : Res Unit :=
  if s.pixelCount - s.out < len then .raised (raise .outOfBounds (max s.out s.pixelCount) s)
  else .ok () { s with pixout := Cells.put s.pixout (4 * s.out) (pixelRunBytes p len), out := s.out + len }

/-- R154: `finish_pixel(p)`, the common tail of DIFF8, DIFF16, DIFF24 and COLOR. -/
def finishPixel (p : Pixel) (s : State) : Res Unit :=
  (emitPixel p s).andThen fun _ t => .ok () ({ t with prev := p }.cacheUpdate p)

/-- The program counter moves past the bytes of the executing opcode (R28, R184). -/
def State.advance (s : State) (n : Nat) : State := { s with pos := s.pos + n }

end Sys2Proof.Machine
end

