-- ==== Sys2Proof/Machine/ColorCache.lean ====
section
/-!
DEFINITION. INDEX: the decoder's meaning (R117) and the encoder's emission (R116).
-/
namespace Sys2Proof.Machine

/-- R117. `prev` becomes the slot's pixel; the cache is not written. -/
def execIndex (i : Slot) (s : State) : Host.Outcome State Fault Refusal :=
  .next ((emitPixel s.cache[i] (s.advance 1)).andThen fun _ t => .ok () { t with prev := s.cache[i] }).final

/-- R116: the INDEX opcode, with `writeU8` (R108). -/
def emitIndex (h : Slot) (s : State) : Res Unit := writeU8 (packIndex h) s

end Sys2Proof.Machine
end

