-- ==== Sys2Proof/Machine/PixelDelta.lean ====
section
/-!
DEFINITION. DIFF8, DIFF16, DIFF24 and COLOR: the decoder's meanings (R150 to R153), and the pixel delta encoder (R136 to
R145).
-/
namespace Sys2Proof.Machine

/-- R150: alpha is unchanged. -/
def execDiff8 (dr dg db : Int) (s : State) : Host.Outcome State Fault Refusal :=
  .next (finishPixel (addDeltas s.prev dr dg db 0) (s.advance 1)).final

/-- R151: alpha is unchanged. -/
def execDiff16 (dr dg db : Int) (s : State) : Host.Outcome State Fault Refusal :=
  .next (finishPixel (addDeltas s.prev dr dg db 0) (s.advance 2)).final

/-- R152: the only DIFF opcode that changes alpha. -/
def execDiff24 (dr dg db da : Int) (s : State) : Host.Outcome State Fault Refusal :=
  .next (finishPixel (addDeltas s.prev dr dg db da) (s.advance 3)).final

/-- R153: no arithmetic; each flagged channel takes its literal. -/
def execColor (r g b a : Option Byte) (s : State) : Host.Outcome State Fault Refusal :=
  .next (finishPixel (withLiterals s.prev r g b a) (s.advance (Instr.color r g b a).length)).final

/-- R142: the DIFF8 opcode, with `writeU8`. -/
def emitDiff8 (d : Deltas) (s : State) : Res Unit := writeU8 (packDiff8 d.r d.g d.b) s

/-- R143: the DIFF16 opcode, with `writeU16`. -/
def emitDiff16 (d : Deltas) (s : State) : Res Unit := writeU16 (packDiff16 d.r d.g d.b) s

/-- R144: the DIFF24 opcode, with `writeU24`. -/
def emitDiff24 (d : Deltas) (s : State) : Res Unit := writeU24 (packDiff24 d.r d.g d.b d.a) s

/-- One literal of COLOR, written if the channel is flagged (R145). -/
def emitLiteral (flag : Bool) (v : Byte) (s : State) : Res Unit := if flag then writeU8 v s else .ok () s

/-- R145: the COLOR opcode, byte by byte (R108). The flag tests the delta, the literal is the new value (R82). -/
def emitColor (d : Deltas) (v : Pixel) (s : State) : Res Unit :=
  (writeU8 (packColorTag (d.r ≠ 0) (d.g ≠ 0) (d.b ≠ 0) (d.a ≠ 0)) s).andThen fun _ s1 =>
  (emitLiteral (d.r ≠ 0) v.r s1).andThen fun _ s2 =>
  (emitLiteral (d.g ≠ 0) v.g s2).andThen fun _ s3 =>
  (emitLiteral (d.b ≠ 0) v.b s3).andThen fun _ s4 => emitLiteral (d.a ≠ 0) v.a s4

/-- R139: selection by strict priority, which is not always the shortest opcode (R140). -/
def emitDelta (d : Deltas) (v : Pixel) (s : State) : Res Unit :=
  if d.fits8 then emitDiff8 d s
  else if d.fits16 then emitDiff16 d s
  else if d.fits24 then emitDiff24 d s
  else emitColor d v s

end Sys2Proof.Machine
end

