-- ==== Sys2Proof/Machine/RunLength.lean ====
section
/-!
DEFINITION. RUN8 and RUN16: the decoder's meanings (R129, R130), and the run-length encoder (R121 to R128).
-/
namespace Sys2Proof.Machine

/-- R129: `prev` is output `len` times; `prev` and the cache are unchanged. -/
def execRun8 (len : Nat) (s : State) : Host.Outcome State Fault Refusal :=
  .next (emitRun s.prev len (s.advance 1)).final

/-- R130: as RUN8, two bytes long. -/
def execRun16 (len : Nat) (s : State) : Host.Outcome State Fault Refusal :=
  .next (emitRun s.prev len (s.advance 2)).final

/-- R126: the RUN8 opcode, with `writeU8`. -/
def emitRun8 (run : Nat) (s : State) : Res Unit := writeU8 (packRun8 run) s

/-- R127: the RUN16 opcode, with `writeU16`. -/
def emitRun16 (run : Nat) (s : State) : Res Unit := writeU16 (packRun16 run) s

/-- `flush_run(run)` (R126, R127). It is only called with 1..8224 (R128). -/
def flushRun (run : Nat) (s : State) : Res Unit :=
  if run < 33 then emitRun8 run s else emitRun16 run s

/-- `flush_run(run); run <- 0` if a run is pending (R123, R125); nothing otherwise. -/
def flushPending (s : State) : Res Unit :=
  if 0 < s.run then (flushRun s.run s).andThen fun _ t => .ok () { t with run := 0 } else .ok () s

/-- R122 and R124: the run grows by one, and at 8224 it is flushed at once. -/
def extendRun (s : State) : Res Unit :=
  if s.run + 1 = Config.runMax then
    (flushRun (s.run + 1) { s with run := s.run + 1 }).andThen fun _ t => .ok () { t with run := 0 }
  else .ok () { s with run := s.run + 1 }

end Sys2Proof.Machine
end

