-- ==== Sys2Proof/Machine/Dispatch.lean ====
section
/-! DEFINITION. The decode side of `opcode_mux` (R183): one arm for each opcode. -/
namespace Sys2Proof.Machine

def exec (i : Instr) (s : State) : Host.Outcome State Fault Refusal :=
  match i with
  | .index k => Sys2Proof.Machine.execIndex k s
  | .run8 len => Sys2Proof.Machine.execRun8 len s
  | .run16 len => Sys2Proof.Machine.execRun16 len s
  | .diff8 dr dg db => Sys2Proof.Machine.execDiff8 dr dg db s
  | .diff16 dr dg db => Sys2Proof.Machine.execDiff16 dr dg db s
  | .diff24 dr dg db da => Sys2Proof.Machine.execDiff24 dr dg db da s
  | .color r g b a => Sys2Proof.Machine.execColor r g b a s

end Sys2Proof.Machine
end

