-- ==== Sys2Proof/Machine/Decoder.lean ====
section
/-!
DEFINITION. The decode invocation (spec/45_decoder_sequence.md) around the opcodes: `START_DEC`, the header, the fetch of one
opcode, and the finish.
-/
namespace Sys2Proof.Machine

/-- R178: `read_header()`. The length test is made once, before any field is read; the result is the magic word. -/
def readHeader (s : State) : Res Word :=
  if s.lim < Config.headerBytes then .raised (raise .outOfBounds 0 s)
  else
    (readU32 s).andThen fun m s =>
    (readU32 s).andThen fun w s =>
    (readU32 { s with width := w }).andThen fun h s =>
    (readU8 { s with height := h }).andThen fun c s =>
    (readU8 { s with channels := c }).andThen fun cs s => .ok m { s with cspace := cs }

/-- R179: `check_header()`. The product is exact. -/
def checkHeader (m : Word) (s : State) : Res Unit :=
  if m ≠ s.params.magic.word then .raised (raise .malformedHeader 0 s)
  else if s.params.pixbufMax < 4 * s.pixelCount then .raised (raise .dimensionMismatch (4 * s.pixelCount) s)
  else .ok () s

/-- The assignments of `START_DEC` before the header is read (R177). `run`, `idx`, `npix` and `out_len` are not used in a
decode and become free values (U24, log entry 7). -/
def openDecode (len : Nat) (s : State) : State :=
  { s.clearFault with
    lim := len, pos := 0, mode := .dec, draws := s.draws + 1
    run := s.freeNat 2, idx := s.freeNat 3, npix := s.freeNat 7
    outLen := s.freeNat 4 }

/-- The assignments of `START_DEC` after the header is checked (R177, R39). -/
def initDecode (s : State) : State :=
  { s with pixout := [], out := 0, prev := Config.prevInit, cache := cacheInit }

/-- R177: `START_DEC(L)`; refused while an invocation runs (R222). -/
def startDec (len : Nat) (s : State) : Host.Outcome State Fault Refusal :=
  if s.mode = .enc ∨ s.mode = .dec then .refused .startWhileBusy
  else if s.params.streamMax < len then .refused .streamTooLarge
  else
    .next ((readHeader (openDecode len s)).andThen fun m s =>
      (checkHeader m s).andThen fun _ s => .ok () (initDecode s)).final

/-- R181: what the fetch of one opcode gives: the opcode, or the state after TruncatedStream. -/
inductive Fetched where
  | instr (i : Instr)
  | raised (s : State)
  deriving DecidableEq, Repr

/-- R181, R183: the first byte, the test that no continuation byte lies in the trailer (made once, before any of them is
read), then the continuation bytes one by one. -/
def fetch (s : State) : Fetched :=
  match readU8 s with
  | .raised t => .raised t
  | .ok b s1 =>
    if s.lim < s1.pos + ncont b + 4 then .raised (raise .truncatedStream s.pos s1)
    else
      match readBytes (ncont b) s1 with
      | .raised t => .raised t
      | .ok cs _ => .instr (instrOf b cs)

/-- R186: the decode finish. -/
def decodeFinish (s : State) : State :=
  if s.out ≠ s.pixelCount then raise .dimensionMismatch s.out s else { s with mode := .done }

end Sys2Proof.Machine
end

