-- ==== Sys2Proof/Machine/Encoder.lean ====
section
/-!
DEFINITION. The encode invocation (spec/44_encoder_sequence.md): `START_ENC`, the header, the step with the encode side of
`opcode_mux`, and the finish.
-/
namespace Sys2Proof.Machine

/-- R164: `write_header()`. -/
def writeHeader (s : State) : Res Unit :=
  (writeChar s.params.magic.c0 s).andThen fun _ s =>
  (writeChar s.params.magic.c1 s).andThen fun _ s =>
  (writeChar s.params.magic.c2 s).andThen fun _ s =>
  (writeChar s.params.magic.c3 s).andThen fun _ s =>
  (writeU32 s.width s).andThen fun _ s =>
  (writeU32 s.height s).andThen fun _ s =>
  (writeU8 s.channels s).andThen fun _ s => writeU8 s.cspace s

/-- R163: the capacity, in `Nat`. -/
def encodeCap (width height : Word) (channels : Byte) : Nat :=
  width.toNat * height.toNat * (channels.toNat + 1) + 18

/-- The assignments of `START_ENC` after its checks (R162, R39), the header registers loaded from the arguments (R25, log
entry 9). `out` is not used in an encode (U24), and R38 leaves the value of `out_len` at invocation start unspecified, so both
become free values (log entry 7). -/
def initEncode (width height : Word) (channels cspace : Byte) (npix : Nat) (s : State) : State :=
  { s.clearFault with
    width := width, height := height, channels := channels, cspace := cspace, npix := npix
    lim := encodeCap width height channels, pos := 0, stream := []
    prev := Config.prevInit, run := 0, idx := 0, cache := cacheInit
    out := s.freeNat 1, outLen := s.freeNat 4, draws := s.draws + 1, mode := .enc }

/-- R162: `START_ENC`, with its checks in the order of R202; refused while an invocation runs (R222).
After DimensionMismatch the registers are as they were before the command, but for the fault, `mode` and the outputs of an
encode: the header registers and `npix` (log entry 9), the internal registers (log entry 22), and `out`, which R38 leaves
unspecified there (DESIGN CHOICE, log entry 25). -/
def startEnc (width height : Word) (channels cspace : Byte) (npix : Nat) (s : State) :
    Host.Outcome State Fault Refusal :=
  if s.mode = .enc ∨ s.mode = .dec then .refused .startWhileBusy
  else if channels ≠ 3 ∧ channels ≠ 4 then .refused .channelsNotThreeOrFour
  else if npix ≠ width.toNat * height.toNat then .next (raise .dimensionMismatch npix s)
  else if s.params.streamMax < encodeCap width height channels then .refused .streamTooLarge
  else .next (writeHeader (initEncode width height channels cspace npix s)).final

/-- R166: `encode_pixel(v)` for `v != prev`. The deltas are taken against the old `prev`, which is assigned last. -/
def encodePixel (v : Pixel) (s : State) : Res Unit :=
  (if s.hit v then emitIndex (pixelHash v) s else emitDelta (deltas v s.prev) v (s.cacheUpdate v)).andThen
    fun _ t => .ok () { t with prev := v }

/-- R165, from the pixel on: the run test comes first, then the pending run is flushed, then the pixel is encoded (R167). -/
def consumePixel (v : Pixel) (s : State) : Res Unit :=
  if s.extendsRun v then extendRun s else (flushPending s).andThen fun _ t => encodePixel v t

/-- R165: the encode step consumes the word `PIXIN[idx]`. -/
def encodeStep (s : State) : Host.Outcome State Fault Refusal :=
  match Cells.get? s.pixin s.idx with
  | none => .refused .pixinWordMissing
  | some w => .next (consumePixel (unpack w) { s with idx := s.idx + 1 }).final

/-- R169: the encode finish: the pending run, the trailer, `out_len`, DONE. -/
def encodeFinish (s : State) : State :=
  ((flushPending s).andThen fun _ t => (writeU32 0 t).andThen fun _ u =>
    .ok () { u with outLen := u.pos, mode := .done }).final

end Sys2Proof.Machine
end

