-- ==== Sys2Proof/Machine/HostInterface.lean ====
section
/-!
DEFINITION. The host's moves (R45, R46, R61, R216, R219 to R223) and what the host may read (R38).
-/
namespace Sys2Proof.Machine

/-- An invocation runs: `mode` is ENC or DEC. -/
def State.busy (s : State) : Bool := decide (s.mode = .enc ∨ s.mode = .dec)

/-- R45, R61: the host fills `STREAM`, outside an invocation and within the buffer. -/
def putStream (addr : Nat) (bytes : List Byte) (s : State) : Host.Outcome State Fault Refusal :=
  if s.busy then .refused .hostAccessDuringInvocation
  else if s.params.streamMax < addr + bytes.length then .fault .noSuchStreamAddress
  else .next { s with stream := Cells.put s.stream addr bytes }

/-- R46, R61: the host fills `PIXIN`, outside an invocation. -/
def putPixin (idx : Nat) (words : List Word) (s : State) : Host.Outcome State Fault Refusal :=
  if s.busy then .refused .hostAccessDuringInvocation
  else .next { s with pixin := Cells.put s.pixin idx words }

/-- R216: the reset input, at any time. `mode` and `fault.code` get their values; every other register and the cache become
free values (U22), and no buffer holds a value (U21). The parameters and the host's schedule are not the block's. -/
def powerOnReset (s : State) : State :=
  { params := s.params
    mode := .idle
    fault := ⟨0, s.freeNat 0⟩
    prev := s.freePixel 64
    run := s.freeNat 2
    width := s.freeWord 0
    height := s.freeWord 1
    channels := s.freeByte 0
    cspace := s.freeByte 1
    cache := Vector.ofFn fun i : Slot => s.freePixel i.val
    pos := s.freeNat 5
    lim := s.freeNat 6
    idx := s.freeNat 3
    npix := s.freeNat 7
    out := s.freeNat 1
    outLen := s.freeNat 4
    stream := []
    pixin := []
    pixout := []
    host := s.host
    context := s.context
    draws := s.draws + 1 }

/-- One move of the host. -/
def hostMove (e : HostEvent) (s : State) : Host.Outcome State Fault Refusal :=
  match e with
  | .startEnc w h c cs n => startEnc w h c cs n s
  | .startDec len => startDec len s
  | .putStream addr bytes => putStream addr bytes s
  | .putPixin idx words => putPixin idx words s
  | .powerOnReset => .next (powerOnReset s)

/-! ### What the host may read (R38)

A read changes nothing (R221). `none` is the table's "-": the register is not to be read and no value is defined. -/

/-- Which command the host gave last; the host knows it, and no register holds it. -/
inductive Direction where
  | encode
  | decode
  deriving DecidableEq, Repr

/-- The registers of R38's table besides `mode`. -/
inductive HostReg where
  | faultCode
  | faultAt
  | width
  | height
  | channels
  | cspace
  | outLen
  | out
  | prev
  | run
  | cache (i : Slot)
  | pos
  | idx
  | lim
  deriving DecidableEq, Repr

/-- R38: `mode` is readable at any time. -/
def hostReadMode (s : State) : Mode := s.mode

/-- R38: a register as the host may read it. -/
def hostRead (last : Direction) (r : HostReg) (s : State) : Option Nat :=
  match r with
  | .faultCode => some s.fault.code.toNat
  | .faultAt => if s.mode = .fault then some s.fault.info else none
  | .width => if s.mode = .done then some s.width.toNat else none
  | .height => if s.mode = .done then some s.height.toNat else none
  | .channels => if s.mode = .done then some s.channels.toNat else none
  | .cspace => if s.mode = .done then some s.cspace.toNat else none
  | .outLen => if s.mode = .done ∧ last = .encode then some s.outLen else none
  | .out => if s.mode = .done ∧ last = .decode then some s.out else none
  | .prev => none
  | .run => none
  | .cache _ => none
  | .pos => none
  | .idx => none
  | .lim => none

/-- R107, R170: a byte of the produced stream. -/
def hostReadStream (last : Direction) (a : Nat) (s : State) : Option Byte :=
  if s.mode = .done ∧ last = .encode ∧ a < s.outLen then Cells.get? s.stream a else none

/-- R187: a byte of the decoded pixels. -/
def hostReadPixout (last : Direction) (a : Nat) (s : State) : Option Byte :=
  if s.mode = .done ∧ last = .decode ∧ a < 4 * s.out then Cells.get? s.pixout a else none

/-- R51: pixel `i` of `PIXOUT`, its four bytes read as one big-endian word. -/
def hostReadPixel (last : Direction) (i : Nat) (s : State) : Option Word :=
  match hostReadPixout last (4 * i) s, hostReadPixout last (4 * i + 1) s, hostReadPixout last (4 * i + 2) s,
    hostReadPixout last (4 * i + 3) s with
  | some r, some g, some b, some a => some (r ++ g ++ b ++ a)
  | _, _, _, _ => none

/-- R58: the element of `PIXIN` or `PIXOUT` that holds pixel `(x, y)`, row-major. The block itself never uses `x` or `y`. -/
def pixelIndex (width : Word) (x y : Nat) : Nat := y * width.toNat + x

end Sys2Proof.Machine
end

