-- ==== Sys2Proof/Machine/Step.lean ====
section
/-!
DEFINITION. One step of the context: a move of the host if one is scheduled, else one atomic transition of the sequencer
(R206, R228).
-/
namespace Sys2Proof.Machine

/-- R181: the decode step. -/
def decodeStep (s : State) : Host.Outcome State Fault Refusal :=
  match fetch s with
  | .raised t => .next t
  | .instr i => exec i s

/-- One transition of the codec's sequencer. In IDLE, DONE and FAULT it waits for the host (R206). -/
def seqStep (s : State) : Host.Outcome State Fault Refusal :=
  match s.mode with
  | .enc => if s.idx < s.npix then encodeStep s else .next (encodeFinish s)
  | .dec => if s.pos + 4 < s.lim then decodeStep s else .next (decodeFinish s)
  | .idle => .next s
  | .done => .next s
  | .fault => .next s

/-- One step of the machine. -/
def step (s : State) : Host.Outcome State Fault Refusal :=
  match s.host with
  | [] => seqStep s
  | none :: rest => seqStep { s with host := rest }
  | some e :: rest => hostMove e { s with host := rest }

/-- A decode at its entry point on a stream with the header `HEADER 8224, 1, 4, 0` (R39, R218). It differs from what START_DEC
leaves in values the spec leaves unspecified, which are DESIGN CHOICEs of this load state (log entry 2): `fault.at` is 0 (U25),
and `run`, `idx`, `npix` and `out_len` are those of `s` (U24), where START_DEC makes all five free values. -/
def State.atEntry (s : State) : State :=
  { s with mode := .dec, fault := ⟨0, 0⟩, prev := Config.prevInit, cache := cacheInit, pos := Config.headerBytes
           out := 0, width := 8224, height := 1, channels := 4, cspace := 0, pixout := [] }

/-- `s` with an instruction of the opcode table stored where the next step fetches it: at `pos` in a decode that runs, else
at the entry point of a decode whose header leaves room for any opcode. `lim` is set so that the trailer begins right
after the instruction, and nothing is scheduled (log entry 2). -/
def State.withFetchWord (s : State) (nbits w : Nat) : State :=
  let bytes := tableBytes nbits w
  let t := if s.mode = .dec then s else s.atEntry
  { t with stream := Cells.put t.stream t.pos (bytes ++ [0, 0, 0, 0])
           lim := t.pos + oplen (bytes.headD 0) + Config.padBytes, host := [] }

end Sys2Proof.Machine
end

