-- ==== Sys2Proof/Machine/BigStep.lean ====
section
/-!
DEFINITION. The whole encode and the whole decode as one function each (R172, R188), over lists of bytes and pixels. They
share with the machine only the opcode formats, the pixelHash and the delta arithmetic.
-/
namespace Sys2Proof.Machine

/-! ### R172 -/

/-- `RUN(n)` (R92, R172). -/
def runOpcode (n : Nat) : Instr := if n < 33 then .run8 n else .run16 n

/-- The literal of a channel of COLOR: present exactly when its delta is not zero (R82). -/
def literalOf (delta : Int) (v : Byte) : Option Byte := if delta = 0 then none else some v

/-- `DIFF8(d) if fits8(d) else DIFF16(d) if fits16(d) else DIFF24(d) if fits24(d) else COLOR(d, v)` (R139, R172). -/
def deltaOpcode (d : Deltas) (v : Pixel) : Instr :=
  if d.fits8 then .diff8 d.r d.g d.b
  else if d.fits16 then .diff16 d.r d.g d.b
  else if d.fits24 then .diff24 d.r d.g d.b d.a
  else .color (literalOf d.r v.r) (literalOf d.g v.g) (literalOf d.b v.b) (literalOf d.a v.a)

/-- The variables of R172's loop. -/
structure EncodeVars where
  bytes : List Byte
  prev : Pixel
  run : Nat
  cache : Vector Pixel 64
  deriving DecidableEq, Repr

/-- `B ++= bs`: an append that makes `len(B) > cap` fails BufferOverflow. -/
def EncodeVars.append (cap : Nat) (bs : List Byte) (x : EncodeVars) : Except FaultKind EncodeVars :=
  if cap < x.bytes.length + bs.length then .error .bufferOverflow else .ok { x with bytes := x.bytes ++ bs }

/-- `if run > 0: B ++= RUN(run); run = 0`. -/
def EncodeVars.flush (cap : Nat) (x : EncodeVars) : Except FaultKind EncodeVars :=
  if 0 < x.run then (x.append cap (encode (runOpcode x.run))).map fun y => { y with run := 0 } else .ok x

/-- The body of R172's loop for one pixel. -/
def encodeOne (cap : Nat) (v : Pixel) (x : EncodeVars) : Except FaultKind EncodeVars :=
  if v = x.prev then
    let y : EncodeVars := { x with run := x.run + 1 }
    if y.run = Config.runMax then y.flush cap else .ok y
  else
    (x.flush cap).bind fun y =>
      if y.cache[pixelHash v] = v then
        (y.append cap [packIndex (pixelHash v)]).map fun z => { z with prev := v }
      else
        let w : EncodeVars := { y with cache := y.cache.set (pixelHash v) v }
        (w.append cap (encode (deltaOpcode (deltas v y.prev) v))).map fun z => { z with prev := v }

/-- R172's loop. -/
def encodeList (cap : Nat) : List Pixel → EncodeVars → Except FaultKind EncodeVars
  | [], x => .ok x
  | v :: vs, x => (encodeOne cap v x).bind (encodeList cap vs)

/-- The header's fourteen bytes (R68). -/
def headerOf (magic : Magic) (width height : Word) (channels cspace : Byte) : List Byte :=
  be32 magic.word ++ be32 width ++ be32 height ++ [channels, cspace]

/-- R172 below its first line: the encode of an image whose `channels` the command accepts. -/
def encodeImage (magic : Magic) (width height : Word) (channels cspace : Byte) (pixels : List Pixel) :
    Except FaultKind (List Byte) :=
  if pixels.length ≠ width.toNat * height.toNat then .error .dimensionMismatch
  else
    let cap := encodeCap width height channels
    let start : EncodeVars :=
      { bytes := headerOf magic width height channels cspace, prev := Config.prevInit, run := 0, cache := cacheInit }
    (encodeList cap pixels start).bind fun x =>
      (x.flush cap).bind fun y => (y.append cap [0, 0, 0, 0]).map EncodeVars.bytes

/-- Why R172's function gives no stream. -/
inductive EncodeFailure where
  /-- `require channels in {3,4}` does not hold: R171 (b) gives the command no meaning. -/
  | channelsNotThreeOrFour
  /-- The encode fails with a fault of the hardware. -/
  | fault (k : FaultKind)
  deriving DecidableEq, Repr

/-- R172: `encode(P, width, height, channels, cspace)`. -/
def encodeAll (magic : Magic) (width height : Word) (channels cspace : Byte) (pixels : List Pixel) :
    Except EncodeFailure (List Byte) :=
  if channels ≠ 3 ∧ channels ≠ 4 then .error .channelsNotThreeOrFour
  else (encodeImage magic width height channels cspace pixels).mapError .fault

/-! ### R188 -/

/-- The result of a decode (R176). -/
structure Image where
  width : Word
  height : Word
  channels : Byte
  cspace : Byte
  pixels : List Pixel
  deriving DecidableEq, Repr

/-- The variables of R188's loop besides `pos`. -/
structure DecodeVars where
  pixels : List Pixel
  prev : Pixel
  cache : Vector Pixel 64
  deriving DecidableEq, Repr

/-- `O ++= [p]; prev = p; cache[hash(p)] = p`, the common end of the four delta arms. -/
def DecodeVars.newPixel (p : Pixel) (x : DecodeVars) : DecodeVars :=
  { pixels := x.pixels ++ [p], prev := p, cache := x.cache.set (pixelHash p) p }

/-- The arms of R188's `case kind(b)`. -/
def decodeOne (i : Instr) (x : DecodeVars) : DecodeVars :=
  match i with
  | .index i => { x with pixels := x.pixels ++ [x.cache[i]], prev := x.cache[i] }
  | .run8 len => { x with pixels := x.pixels ++ List.replicate len x.prev }
  | .run16 len => { x with pixels := x.pixels ++ List.replicate len x.prev }
  | .diff8 dr dg db => x.newPixel (addDeltas x.prev dr dg db 0)
  | .diff16 dr dg db => x.newPixel (addDeltas x.prev dr dg db 0)
  | .diff24 dr dg db da => x.newPixel (addDeltas x.prev dr dg db da)
  | .color r g b a => x.newPixel (withLiterals x.prev r g b a)

/-- R188's loop over the opcode section `code` (the bytes from `pos` to `L - 4`), at most `fuel` opcodes; every opcode takes
at least one byte, so `code.length` is fuel enough. `n` is `width * height`. -/
def decodeLoop (n : Nat) : Nat → List Byte → DecodeVars → Except FaultKind DecodeVars
  | 0, _, x => .ok x
  | _ + 1, [], x => .ok x
  | fuel + 1, b :: rest, x =>
    match decode (b :: rest) with
    | .error _ => .error .truncatedStream
    | .ok (i, rest') =>
      let y := decodeOne i x
      if n < y.pixels.length then .error .outOfBounds else decodeLoop n fuel rest' y

/-- The big-endian word at an offset of a byte list. -/
def wordAt (bytes : List Byte) (k : Nat) : Word :=
  bytes.getD k 0 ++ bytes.getD (k + 1) 0 ++ bytes.getD (k + 2) 0 ++ bytes.getD (k + 3) 0

/-- R188: `decode(S)`. -/
def decodeAll (magic : Magic) (pixbufMax : Nat) (bytes : List Byte) : Except FaultKind Image :=
  let width := wordAt bytes 4
  let height := wordAt bytes 8
  let n := width.toNat * height.toNat
  let code := (bytes.take (bytes.length - 4)).drop 14
  if bytes.length < 14 then .error .outOfBounds
  else if wordAt bytes 0 ≠ magic.word then .error .malformedHeader
  else if pixbufMax < 4 * n then .error .dimensionMismatch
  else
    (decodeLoop n code.length code { pixels := [], prev := Config.prevInit, cache := cacheInit }).bind fun x =>
      if x.pixels.length ≠ n then .error .dimensionMismatch
      else .ok { width := width, height := height, channels := bytes.getD 12 0, cspace := bytes.getD 13 0,
                 pixels := x.pixels }

end Sys2Proof.Machine
end

