-- ==== Sys2Proof/Machine/Contexts.lean ====
section
/-!
DEFINITION. The block as `NCTX` contexts that share nothing (R9, R20, R212): the product of independent machines R20 allows.
-/
namespace Sys2Proof.Machine

/-- The block: its length is `NCTX`. -/
abbrev Block := List State

/-- The model's own: every context bears the number of its place, so that the free values of no two contexts are tied (log
entry 7). -/
def Block.Numbered (b : Block) : Prop := ∀ (k : Nat) (s : State), b[k]? = some s → s.context = k

/-- Every context right after power-on reset, numbered by its place. -/
def Block.reset (nctx : Nat) : Block := (List.range nctx).map fun k => { State.reset with context := k }

/-- R216: the one reset input acts on every context. -/
def Block.powerOnReset (b : Block) : Block := b.map Sys2Proof.Machine.powerOnReset

/-- Context `k` takes a step. A block without a context `k` does not move. -/
def Block.stepContext (b : Block) (k : Nat) : Host.Outcome Block Fault Refusal :=
  match b[k]? with
  | none => .next b
  | some s =>
    match step s with
    | .next t => .next (b.set k t)
    | .fault r => .fault r
    | .refused r => .refused r

end Sys2Proof.Machine
end

