-- ==== Sys2Proof/Safety.lean ====
section
/-!
DEFINITION. The terms claims use: the machine's invariant (R42), what an output of pixels does to `PIXOUT` (R47), what an
opcode leaves unchanged (R184), and bounds on a run.
-/
namespace Sys2Proof.Machine

/-! ### Pixels in PIXOUT -/

/-- R47: byte `k` (0..3) of a pixel in r, g, b, a order. -/
def channelAt (p : Pixel) (k : Nat) : Byte :=
  if k = 0 then p.r else if k = 1 then p.g else if k = 2 then p.b else p.a

/-- `n` pixels `p` are output: `out` grows by `n`, the bytes `4*out .. 4*(out+n)-1` hold r, g, b, a of `p` over and over, and
every other byte of `PIXOUT` reads as before (R47, R182). -/
def OutputsPixels (p : Pixel) (n : Nat) (s t : State) : Prop :=
  t.out = s.out + n ∧
  ∀ a, Cells.get? t.pixout a =
    if 4 * s.out ≤ a ∧ a < 4 * (s.out + n) then some (channelAt p (a % 4)) else Cells.get? s.pixout a

/-- What no opcode writes when it completes: everything but `pos`, `out`, `PIXOUT`, `prev` and the cache (R184). -/
structure OpcodeFrame (s t : State) : Prop where
  params : t.params = s.params
  mode : t.mode = s.mode
  fault : t.fault = s.fault
  run : t.run = s.run
  width : t.width = s.width
  height : t.height = s.height
  channels : t.channels = s.channels
  cspace : t.cspace = s.cspace
  lim : t.lim = s.lim
  idx : t.idx = s.idx
  npix : t.npix = s.npix
  outLen : t.outLen = s.outLen
  stream : t.stream = s.stream
  pixin : t.pixin = s.pixin
  host : t.host = s.host
  context : t.context = s.context
  draws : t.draws = s.draws

/-- What fault entry leaves unchanged whatever the invocation (R203): the registers that are no outputs, and the host's own
buffer. -/
structure FaultFrame (s t : State) : Prop where
  params : t.params = s.params
  run : t.run = s.run
  lim : t.lim = s.lim
  idx : t.idx = s.idx
  npix : t.npix = s.npix
  pixin : t.pixin = s.pixin
  host : t.host = s.host
  context : t.context = s.context

/-- The context has taken the fault of kind `k` with the information word `n` (R194, R203). -/
def Faulted (k : FaultKind) (n : Nat) (t : State) : Prop := t.mode = .fault ∧ t.fault = ⟨k.code, n⟩

/-- R154: `prev` and exactly the slot `hash(p)` of the cache become `p`. -/
def TakesPixel (p : Pixel) (s t : State) : Prop :=
  t.prev = p ∧ ∀ i : Slot, t.cache[i] = if i = pixelHash p then p else s.cache[i]

/-- `prev` and the cache are unchanged, as runs leave them (R129, R130). -/
def KeepsPixel (s t : State) : Prop := t.prev = s.prev ∧ t.cache = s.cache

/-! ### The bytes of STREAM -/

/-- The bytes `bs` stand at `pos`, `pos` moves behind them, and every other byte of `STREAM` reads as before (R98 to R101). -/
def AppendsBytes (bs : List Byte) (s t : State) : Prop :=
  t.pos = s.pos + bs.length ∧
  ∀ a, Cells.get? t.stream a =
    if s.pos ≤ a ∧ a < s.pos + bs.length then bs[a - s.pos]? else Cells.get? s.stream a

/-- What an encode step never writes when it completes (R165, R166): everything but `prev`, `run`, `idx`, the cache, `pos` and
`STREAM`. -/
structure EncodeFrame (s t : State) : Prop where
  params : t.params = s.params
  mode : t.mode = s.mode
  fault : t.fault = s.fault
  width : t.width = s.width
  height : t.height = s.height
  channels : t.channels = s.channels
  cspace : t.cspace = s.cspace
  lim : t.lim = s.lim
  npix : t.npix = s.npix
  out : t.out = s.out
  outLen : t.outLen = s.outLen
  pixin : t.pixin = s.pixin
  pixout : t.pixout = s.pixout
  host : t.host = s.host
  context : t.context = s.context
  draws : t.draws = s.draws

/-- The bytes of a pending run (R123, R125): none when no run is pending. -/
def pendingBytes (run : Nat) : List Byte := if run = 0 then [] else encode (runOpcode run)

/-- The opcode the encoder selects for a pixel `v` that is not equal to `prev` (R167, priorities 2 to 6). -/
def pixelOpcode (s : State) (v : Pixel) : Instr :=
  if s.cache[pixelHash v] = v then .index (pixelHash v) else deltaOpcode (deltas v s.prev) v

/-- A channel sum that stays in 0..255, so that the decoder's channel add does not wrap (R85 (f), R155). -/
def NoWrap (c : Byte) (d : Int) : Prop := 0 ≤ (c.toNat : Int) + d ∧ (c.toNat : Int) + d ≤ 255

/-! ### The invariant of R42 -/

/-- R42 in ENC: (a), (b), (c), (f), the constants of the invocation (R162), and that exactly the bytes below `pos` are written
(R33). -/
structure EncodeInv (s : State) : Prop where
  channels : s.channels = 3 ∨ s.channels = 4
  npix : s.npix = s.pixelCount
  lim : s.lim = encodeCap s.width s.height s.channels
  limFits : s.lim ≤ s.params.streamMax
  posLow : 14 ≤ s.pos
  posHigh : s.pos ≤ s.lim
  run : s.run ≤ 8223
  runConsumed : s.run ≤ s.idx
  idx : s.idx ≤ s.npix
  runPixels : ∀ k, k < s.run → Cells.get? s.pixin (s.idx - 1 - k) = some (pack s.prev)
  written : ∀ a, (Cells.get? s.stream a).isSome ↔ a < s.pos

/-- R42 in DEC: (a), (c), (d), the bounds of `START_DEC` (R177, R179), and that exactly the bytes below `4*out` are written. -/
structure DecodeInv (s : State) : Prop where
  limLow : 14 ≤ s.lim
  limFits : s.lim ≤ s.params.streamMax
  posLow : 14 ≤ s.pos
  posHigh : s.pos ≤ max 14 (s.lim - 4)
  out : s.out ≤ s.pixelCount
  fits : 4 * s.pixelCount ≤ s.params.pixbufMax
  written : ∀ a, (Cells.get? s.pixout a).isSome ↔ a < 4 * s.out

/-- R42 (e): a slot holds (0,0,0,0) or a pixel that hashes to the slot's own index. -/
def CacheInv (table : Vector Pixel 64) : Prop := ∀ i : Slot, table[i] = Config.slotInit ∨ pixelHash table[i] = i

/-- The invariant of the machine (R42), with the canonical form of every memory and the meaning of `fault.code` (R22, R194). -/
structure Inv (s : State) : Prop where
  streamWf : s.stream.wf
  pixinWf : s.pixin.wf
  pixoutWf : s.pixout.wf
  codeMeans : s.mode = .fault ↔ s.fault.code ≠ 0
  codeRange : s.fault.code.toNat ≤ 5
  cache : s.busy → CacheInv s.cache
  encode : s.mode = .enc → EncodeInv s
  decode : s.mode = .dec → DecodeInv s

/-- The bytes a pending run will cost (R126, R127). -/
def flushCost (run : Nat) : Nat := if run = 0 then 0 else if run < 33 then 1 else 2

/-- R163: with `channels = 4` an encode never needs more than five bytes per consumed pixel, a pending run included. -/
def WithinFiveBytes (s : State) : Prop :=
  s.mode = .enc → s.channels = 4 → s.pos + flushCost s.run ≤ 14 + 5 * s.idx

/-- The host has placed every word the encode will read (R171 (c), R219). -/
def PixinLoaded (s : State) : Prop := s.mode = .enc → ∀ i, i < s.npix → (Cells.get? s.pixin i).isSome

/-- An invocation is over (R224). -/
def Over (s : State) : Prop := s.mode = .done ∨ s.mode = .fault

/-- `k` steps of the machine. -/
def runSteps (k : Nat) (s : State) : Host.Outcome State Fault Refusal :=
  match k with
  | 0 => .next s
  | k + 1 =>
    match step s with
    | .next t => runSteps k t
    | .fault r => .fault r
    | .refused r => .refused r

end Sys2Proof.Machine
end

