-- ==== Sys2Proof/Certificates/Slice0/Obligations.lean ====
section
/-!
DEFINITION. The statements about the model. Each docstring names the rule of spec/ it formalises.
-/

open Sys2Proof Sys2Proof.Machine

/-! ### Encoding -/

/-- Words written out from the formats of R73 to R79 decode to the opcodes they stand for (spec/95_test_vectors.md). The places
of the fields in the DIFF8, DIFF16 and DIFF24 words are presumed (log entry 10: the spec's D6 to D8, not in the source). -/
def Obligations.SampleWordsDecode : Prop :=
  decode [0b00111010] = .ok (.index 58, []) ∧
  decode [0b01000001] = .ok (.run8 2, []) ∧
  decode [0b01100000, 0b00000110] = .ok (.run16 39, []) ∧
  decode [0b10110110] = .ok (.diff8 1 (-1) 0, []) ∧
  decode [0b11010101, 0b11011101] = .ok (.diff16 5 5 5, []) ∧
  decode [0b11101000, 0b01101010, 0b00010000] = .ok (.diff24 0 10 0 0, []) ∧
  decode [0b11111100, 0b11111111, 0b11111111] = .ok (.color (some 255) (some 255) none none, [])

/-- R71: each kind is its masked comparison, so the seven exclude each other and cover every first byte. -/
def Obligations.FirstByteKindsPartition : Prop :=
  ∀ b : Byte,
    (kind b = .index ↔ b &&& 0xC0 = 0x00) ∧ (kind b = .run8 ↔ b &&& 0xE0 = 0x40) ∧
    (kind b = .run16 ↔ b &&& 0xE0 = 0x60) ∧ (kind b = .diff8 ↔ b &&& 0xC0 = 0x80) ∧
    (kind b = .diff16 ↔ b &&& 0xE0 = 0xC0) ∧ (kind b = .diff24 ↔ b &&& 0xF0 = 0xE0) ∧
    (kind b = .color ↔ b &&& 0xF0 = 0xF0)

/-- R72: the length of an opcode by kind, known from the first byte alone, 1 to 5. -/
def Obligations.LengthFromFirstByte : Prop :=
  ∀ b : Byte,
    (kind b = .index ∨ kind b = .run8 ∨ kind b = .diff8 → oplen b = 1) ∧
    (kind b = .run16 ∨ kind b = .diff16 → oplen b = 2) ∧
    (kind b = .diff24 → oplen b = 3) ∧
    (kind b = .color →
      oplen b = 1 + ((b.toNat / 8 % 2) + (b.toNat / 4 % 2) + (b.toNat / 2 % 2) + b.toNat % 2)) ∧
    ncont b = oplen b - 1 ∧ 1 ≤ oplen b ∧ oplen b ≤ 5 ∧
    ∀ cs : List Byte, (instrOf b cs).kind = kind b ∧ (instrOf b cs).length = oplen b

/-- R90 with R147: the first-byte map, with the fields as numbers; COLOR's literals go to the flagged channels in r, g, b, a
order (R79). The places of the DIFF fields are presumed (log entry 10). -/
def Obligations.FirstByteMapGivesFields : Prop :=
  ∀ b b1 b2 : Byte,
    (b.toNat ≤ 0x3F → ∃ i : Slot, i.val = b.toNat ∧ decode [b] = .ok (.index i, [])) ∧
    (0x40 ≤ b.toNat ∧ b.toNat ≤ 0x5F → decode [b] = .ok (.run8 (b.toNat - 0x40 + 1), [])) ∧
    (0x60 ≤ b.toNat ∧ b.toNat ≤ 0x7F →
      decode [b, b1] = .ok (.run16 ((b.toNat - 0x60) * 256 + b1.toNat + 33), [])) ∧
    (0x80 ≤ b.toNat ∧ b.toNat ≤ 0xBF →
      decode [b] = .ok (.diff8 ((b.toNat / 16 % 4 : Nat) - 2) ((b.toNat / 4 % 4 : Nat) - 2) ((b.toNat % 4 : Nat) - 2),
        [])) ∧
    (0xC0 ≤ b.toNat ∧ b.toNat ≤ 0xDF →
      decode [b, b1] = .ok (.diff16 ((b.toNat % 32 : Nat) - 16) ((b1.toNat / 16 : Nat) - 8) ((b1.toNat % 16 : Nat) - 8),
        [])) ∧
    (0xE0 ≤ b.toNat ∧ b.toNat ≤ 0xEF →
      let w := b.toNat * 65536 + b1.toNat * 256 + b2.toNat
      decode [b, b1, b2] = .ok (.diff24 ((w / 32768 % 32 : Nat) - 16) ((w / 1024 % 32 : Nat) - 16)
        ((w / 32 % 32 : Nat) - 16) ((w % 32 : Nat) - 16), [])) ∧
    (0xF0 ≤ b.toNat → ∀ lits : List Byte, lits.length = ncont b →
      ∃ r g bl a : Option Byte, decode (b :: lits) = .ok (.color r g bl a, []) ∧
        r.isSome = b.getLsbD 3 ∧ g.isSome = b.getLsbD 2 ∧ bl.isSome = b.getLsbD 1 ∧ a.isSome = b.getLsbD 0 ∧
        r.toList ++ g.toList ++ bl.toList ++ a.toList = lits)

/-- R73 to R79, R91: decoding an encoded well-formed opcode gives it back, with every operand, and leaves the bytes after it. -/
def Obligations.EncodeThenDecode : Prop :=
  ∀ (i : Instr) (rest : List Byte), i.wf = true → decode (encode i ++ rest) = .ok (i, rest)

/-- R84: what decodes is a well-formed opcode, and its encoding is the very bytes that were read. -/
def Obligations.DecodeThenEncode : Prop :=
  ∀ (bytes rest : List Byte) (i : Instr), decode bytes = .ok (i, rest) → i.wf = true ∧ encode i ++ rest = bytes

/-- R84: no first byte is illegal; the decoder refuses only where bytes are missing. -/
def Obligations.DecodeRefusesOnlyMissingBytes : Prop :=
  ∀ bytes : List Byte,
    (∃ i rest, decode bytes = .ok (i, rest)) ↔ ∃ b tail, bytes = b :: tail ∧ ncont b ≤ tail.length

/-! ### The opcodes -/

/-- R117: the low six bits of an INDEX byte name a slot; INDEX outputs the slot's pixel and makes it `prev`; the cache is not
written. With the pixel buffer full it takes OutOfBounds. -/
def Obligations.IndexOutputsCacheSlot : Prop :=
  (∀ b : Byte, kind b = .index → instrOf b [] = .index (b.extractLsb' 0 6).toFin) ∧
  ∀ (i : Slot) (s : State),
    (s.out < s.pixelCount →
      ∃ t, exec (.index i) s = .next t ∧ t.pos = s.pos + 1 ∧ OutputsPixels s.cache[i] 1 s t ∧
        t.prev = s.cache[i] ∧ t.cache = s.cache ∧ OpcodeFrame s t) ∧
    (s.pixelCount ≤ s.out →
      ∃ t, exec (.index i) s = .next t ∧ Faulted .outOfBounds s.out t ∧ KeepsPixel s t ∧ FaultFrame s t)

/-- R129: the run length is the low five bits of a RUN8 byte plus 1; RUN8 outputs `prev` that many times and leaves `prev` and
the cache alone. A run longer than the room left takes OutOfBounds. -/
def Obligations.Run8RepeatsPrev : Prop :=
  (∀ b : Byte, kind b = .run8 → instrOf b [] = .run8 ((b.extractLsb' 0 5).toNat + 1)) ∧
  ∀ (len : Nat) (s : State), 1 ≤ len →
    (s.out + len ≤ s.pixelCount →
      ∃ t, exec (.run8 len) s = .next t ∧ t.pos = s.pos + 1 ∧ OutputsPixels s.prev len s t ∧ KeepsPixel s t ∧
        OpcodeFrame s t) ∧
    (s.pixelCount < s.out + len →
      ∃ t, exec (.run8 len) s = .next t ∧ Faulted .outOfBounds (max s.out s.pixelCount) t ∧ KeepsPixel s t ∧
        FaultFrame s t)

/-- R130: RUN16 likewise, two bytes long, its run length the 13-bit field plus 33. -/
def Obligations.Run16RepeatsPrev : Prop :=
  (∀ b b1 : Byte, kind b = .run16 → instrOf b [b1] = .run16 ((b.extractLsb' 0 5).toNat * 256 + b1.toNat + 33)) ∧
  ∀ (len : Nat) (s : State), 1 ≤ len →
    (s.out + len ≤ s.pixelCount →
      ∃ t, exec (.run16 len) s = .next t ∧ t.pos = s.pos + 2 ∧ OutputsPixels s.prev len s t ∧ KeepsPixel s t ∧
        OpcodeFrame s t) ∧
    (s.pixelCount < s.out + len →
      ∃ t, exec (.run16 len) s = .next t ∧ Faulted .outOfBounds (max s.out s.pixelCount) t ∧ KeepsPixel s t ∧
        FaultFrame s t)

/-- R150, R154: DIFF8 adds its deltas to r, g, b of `prev`, outputs the pixel and stores it in `prev` and in the cache. That a
sum outside 0..255 wraps is the choice of log entry 11 (D9). -/
def Obligations.Diff8AddsDeltas : Prop :=
  ∀ (dr dg db : Int) (s : State),
    (s.out < s.pixelCount →
      let p : Pixel := ⟨add8 s.prev.r dr, add8 s.prev.g dg, add8 s.prev.b db, s.prev.a⟩
      ∃ t, exec (.diff8 dr dg db) s = .next t ∧ t.pos = s.pos + 1 ∧ OutputsPixels p 1 s t ∧ TakesPixel p s t ∧
        OpcodeFrame s t) ∧
    (s.pixelCount ≤ s.out →
      ∃ t, exec (.diff8 dr dg db) s = .next t ∧ Faulted .outOfBounds s.out t ∧ FaultFrame s t)

/-- R151, R154: DIFF16 likewise, two bytes long (log entry 11 for a sum outside 0..255). -/
def Obligations.Diff16AddsDeltas : Prop :=
  ∀ (dr dg db : Int) (s : State),
    (s.out < s.pixelCount →
      let p : Pixel := ⟨add8 s.prev.r dr, add8 s.prev.g dg, add8 s.prev.b db, s.prev.a⟩
      ∃ t, exec (.diff16 dr dg db) s = .next t ∧ t.pos = s.pos + 2 ∧ OutputsPixels p 1 s t ∧ TakesPixel p s t ∧
        OpcodeFrame s t) ∧
    (s.pixelCount ≤ s.out →
      ∃ t, exec (.diff16 dr dg db) s = .next t ∧ Faulted .outOfBounds s.out t ∧ FaultFrame s t)

/-- R152, R154: DIFF24 adds a delta to alpha too, three bytes long (log entry 11 for a sum outside 0..255). -/
def Obligations.Diff24AddsDeltas : Prop :=
  ∀ (dr dg db da : Int) (s : State),
    (s.out < s.pixelCount →
      let p : Pixel := ⟨add8 s.prev.r dr, add8 s.prev.g dg, add8 s.prev.b db, add8 s.prev.a da⟩
      ∃ t, exec (.diff24 dr dg db da) s = .next t ∧ t.pos = s.pos + 3 ∧ OutputsPixels p 1 s t ∧ TakesPixel p s t ∧
        OpcodeFrame s t) ∧
    (s.pixelCount ≤ s.out →
      ∃ t, exec (.diff24 dr dg db da) s = .next t ∧ Faulted .outOfBounds s.out t ∧ FaultFrame s t)

/-- R153, R154: COLOR takes the literal of each flagged channel and `prev`'s value of each other one. -/
def Obligations.ColorTakesLiterals : Prop :=
  ∀ (r g b a : Option Byte) (s : State),
    (s.out < s.pixelCount →
      ∃ (p : Pixel) (t : State), exec (.color r g b a) s = .next t ∧
        (∀ v, r = some v → p.r = v) ∧ (r = none → p.r = s.prev.r) ∧
        (∀ v, g = some v → p.g = v) ∧ (g = none → p.g = s.prev.g) ∧
        (∀ v, b = some v → p.b = v) ∧ (b = none → p.b = s.prev.b) ∧
        (∀ v, a = some v → p.a = v) ∧ (a = none → p.a = s.prev.a) ∧
        t.pos = s.pos + (1 + literalCount r + literalCount g + literalCount b + literalCount a) ∧
        OutputsPixels p 1 s t ∧ TakesPixel p s t ∧ OpcodeFrame s t) ∧
    (s.pixelCount ≤ s.out →
      ∃ t, exec (.color r g b a) s = .next t ∧ Faulted .outOfBounds s.out t ∧ FaultFrame s t)

/-- R148, R149: the channel add is reduced modulo 256. For a sum outside 0..255 this is a choice (log entry 11: the spec's D9, in
place of which R149 allows a model a fault). -/
def Obligations.ChannelAddWraps : Prop :=
  ∀ (c : Byte) (d : Int), ((add8 c d).toNat : Int) = ((c.toNat : Int) + d) % 256

/-! ### The decode sequence -/

/-- R181, R183: where the bytes at `pos` lie before the trailer and decode to an opcode, the step executes that opcode. That it
executes it at the very state before the fetch, the meaning itself moving `pos`, is the model's division of R181 and R183 (log
entry 14). -/
def Obligations.StepRunsDecodedInstruction : Prop :=
  ∀ (s : State) (cs : List Byte) (i : Instr),
    s.host = [] → s.mode = .dec → s.pos + 4 < s.lim →
    s.pos + oplen (s.streamByte s.pos) + 4 ≤ s.lim →
    cs = (List.range (ncont (s.streamByte s.pos))).map (fun k => s.streamByte (s.pos + 1 + k)) →
    decode (s.streamByte s.pos :: cs) = .ok (i, []) →
    step s = exec i s

/-- R197: an opcode that would reach into the trailer takes TruncatedStream at its first byte's offset, with none of its effect;
no other decode step does, and a one-byte opcode never. -/
def Obligations.TruncatedStreamTaken : Prop :=
  ∀ s : State, s.host = [] → s.mode = .dec → s.pos + 4 < s.lim →
    (s.lim < s.pos + oplen (s.streamByte s.pos) + 4 →
      1 < oplen (s.streamByte s.pos) ∧
      ∃ t, step s = .next t ∧ Faulted .truncatedStream s.pos t ∧ KeepsPixel s t ∧ FaultFrame s t) ∧
    (s.pos + oplen (s.streamByte s.pos) + 4 ≤ s.lim →
      ∃ t, step s = .next t ∧ (t.mode = .fault → t.fault.code = FaultKind.code .outOfBounds))

/-- R181, R184: a decode step that does not fault moves `pos` by the opcode's length and stays before the trailer. -/
def Obligations.DecodeStepAdvances : Prop :=
  ∀ s t : State, s.host = [] → s.mode = .dec → s.pos + 4 < s.lim → step s = .next t → t.mode = .dec →
    t.pos = s.pos + oplen (s.streamByte s.pos) ∧ t.pos + 4 ≤ s.lim ∧ s.out < t.out ∧ OpcodeFrame s t

/-- R186: at the end of the program the decode is done when `out` equals the pixel count, and takes DimensionMismatch
otherwise. That DONE leaves the internal registers as they were is the model's (log entry 22). -/
def Obligations.DecodeFinishChecksPixelCount : Prop :=
  ∀ s : State, s.host = [] → s.mode = .dec → s.lim ≤ s.pos + 4 →
    (s.out = s.pixelCount → step s = .next { s with mode := .done }) ∧
    (s.out ≠ s.pixelCount →
      ∃ t, step s = .next t ∧ Faulted .dimensionMismatch s.out t ∧ KeepsPixel s t ∧ FaultFrame s t)

/-- R189, R190, R235: from every state in DEC the decode ends, after at most one step for each byte left before the trailer and
the finish, in DONE or in OutOfBounds, TruncatedStream or DimensionMismatch. -/
def Obligations.DecodeAlwaysEnds : Prop :=
  ∀ s : State, s.host = [] → s.mode = .dec →
    ∃ k t, k ≤ (s.lim - 4 - s.pos) + 1 ∧ runSteps k s = .next t ∧
      (t.mode = .done ∨ ∃ n, Faulted .outOfBounds n t ∨ Faulted .truncatedStream n t ∨ Faulted .dimensionMismatch n t)

/-- R177, R178, R179, R202: a scheduled `START_DEC` is refused for a length above `STREAM_MAX`; else it reports a short header
first, then a wrong magic, then a size above `PIXBUF_MAX`. `hdr` is the header the host placed. -/
def Obligations.StartDecReportsInOrder : Prop :=
  ∀ (len : Nat) (s : State) (rest : List (Option HostEvent)) (hdr : Nat → Byte),
    s.mode ≠ .enc → s.mode ≠ .dec →
    let start : State := { s with host := some (.startDec len) :: rest }
    (s.params.streamMax < len → step start = .refused .streamTooLarge) ∧
    (len ≤ s.params.streamMax → (∀ k, k < 14 → k < len → Cells.get? s.stream k = some (hdr k)) →
    let magic := hdr 0 ++ hdr 1 ++ hdr 2 ++ hdr 3
    let width := hdr 4 ++ hdr 5 ++ hdr 6 ++ hdr 7
    let height := hdr 8 ++ hdr 9 ++ hdr 10 ++ hdr 11
    let size := 4 * (width.toNat * height.toNat)
    (len < 14 → ∃ t, step start = .next t ∧ t.host = rest ∧ Faulted .outOfBounds 0 t) ∧
    (14 ≤ len → magic ≠ s.params.magic.word →
      ∃ t, step start = .next t ∧ t.host = rest ∧ Faulted .malformedHeader 0 t) ∧
    (14 ≤ len → magic = s.params.magic.word → s.params.pixbufMax < size →
      ∃ t, step start = .next t ∧ t.host = rest ∧ Faulted .dimensionMismatch size t))

/-- R177, R39: with a good header a scheduled `START_DEC` opens a decode: header registers loaded, `pos` at the entry point, `prev`, cache,
`out` and `fault.code` at their invocation-start values, `PIXOUT` unwritten, `STREAM` untouched. -/
def Obligations.StartDecOpensDecode : Prop :=
  ∀ (len : Nat) (s : State) (rest : List (Option HostEvent)) (hdr : Nat → Byte),
    s.mode ≠ .enc → s.mode ≠ .dec → len ≤ s.params.streamMax → 14 ≤ len →
    (∀ k, k < 14 → Cells.get? s.stream k = some (hdr k)) →
    hdr 0 ++ hdr 1 ++ hdr 2 ++ hdr 3 = s.params.magic.word →
    let width := hdr 4 ++ hdr 5 ++ hdr 6 ++ hdr 7
    let height := hdr 8 ++ hdr 9 ++ hdr 10 ++ hdr 11
    4 * (width.toNat * height.toNat) ≤ s.params.pixbufMax →
    ∃ t, step { s with host := some (.startDec len) :: rest } = .next t ∧ t.mode = .dec ∧ t.fault.code = 0 ∧ t.width = width ∧ t.height = height ∧
      t.channels = hdr 12 ∧ t.cspace = hdr 13 ∧ t.lim = len ∧ t.pos = 14 ∧ t.out = 0 ∧
      t.prev = ⟨0, 0, 0, 255⟩ ∧ (∀ i : Slot, t.cache[i] = ⟨0, 0, 0, 0⟩) ∧
      (∀ a, Cells.get? t.pixout a = none) ∧ t.stream = s.stream ∧ t.pixin = s.pixin ∧ t.params = s.params ∧
      t.host = rest

/-! ### The encode sequence -/

/-- R162, R202: a scheduled `START_ENC` refuses other channel counts first, then takes DimensionMismatch, then refuses a capacity
above `STREAM_MAX`. That `npix` and the other internal registers are not loaded before that fault is the model's reading (log
entry 9). -/
def Obligations.StartEncChecksInOrder : Prop :=
  ∀ (w h : Word) (c cs : Byte) (n : Nat) (s : State) (rest : List (Option HostEvent)), s.mode ≠ .enc → s.mode ≠ .dec →
    let start : State := { s with host := some (.startEnc w h c cs n) :: rest }
    (c ≠ 3 ∧ c ≠ 4 → step start = .refused .channelsNotThreeOrFour) ∧
    (c = 3 ∨ c = 4 → n ≠ w.toNat * h.toNat →
      ∃ t, step start = .next t ∧ Faulted .dimensionMismatch n t ∧ KeepsPixel s t ∧
        FaultFrame { s with host := rest } t) ∧
    (c = 3 ∨ c = 4 → n = w.toNat * h.toNat → s.params.streamMax < w.toNat * h.toNat * (c.toNat + 1) + 18 →
      step start = .refused .streamTooLarge)

/-- R162, R163, R164, R68, R39: otherwise a scheduled `START_ENC` opens an encode: the fourteen header bytes stand at 0..13 and
nothing else is written in `STREAM`, and the registers have their invocation-start values. That the header registers and `npix`
are loaded is read from R25 and R30 (log entry 9). -/
def Obligations.StartEncOpensEncode : Prop :=
  ∀ (w h : Word) (c cs : Byte) (n : Nat) (s : State) (rest : List (Option HostEvent)), s.mode ≠ .enc → s.mode ≠ .dec →
    c = 3 ∨ c = 4 → n = w.toNat * h.toNat → w.toNat * h.toNat * (c.toNat + 1) + 18 ≤ s.params.streamMax →
    ∃ t, step { s with host := some (.startEnc w h c cs n) :: rest } = .next t ∧
      t.mode = .enc ∧ t.fault.code = 0 ∧ t.width = w ∧ t.height = h ∧
      t.channels = c ∧ t.cspace = cs ∧ t.npix = n ∧ t.lim = w.toNat * h.toNat * (c.toNat + 1) + 18 ∧ t.pos = 14 ∧
      t.idx = 0 ∧ t.run = 0 ∧ t.prev = ⟨0, 0, 0, 255⟩ ∧ (∀ i : Slot, t.cache[i] = ⟨0, 0, 0, 0⟩) ∧
      (∀ a, Cells.get? t.stream a =
        ([s.params.magic.c0.setWidth 8, s.params.magic.c1.setWidth 8, s.params.magic.c2.setWidth 8,
          s.params.magic.c3.setWidth 8] ++ be32 w ++ be32 h ++ [c, cs])[a]?) ∧
      t.pixin = s.pixin ∧ t.pixout = s.pixout ∧ t.params = s.params ∧ t.host = rest

/-- R122: a pixel equal to `prev` only counts; no byte is written below 8224. -/
def Obligations.RunPixelOnlyCounts : Prop :=
  ∀ s : State, s.host = [] → s.mode = .enc → s.idx < s.npix →
    Cells.get? s.pixin s.idx = some (pack s.prev) → s.run + 1 ≠ 8224 →
    step s = .next { s with run := s.run + 1, idx := s.idx + 1 }

/-- R124: the step that counts the 8224th equal pixel writes `7F FF` and clears the run; `prev` and the cache are unchanged. Where
the two bytes do not fit it takes BufferOverflow. -/
def Obligations.ForcedSplitAt8224 : Prop :=
  ∀ s : State, s.host = [] → s.mode = .enc → s.idx < s.npix →
    Cells.get? s.pixin s.idx = some (pack s.prev) → s.run + 1 = 8224 →
    (s.pos + 2 ≤ s.lim →
      ∃ t, step s = .next t ∧ AppendsBytes [0x7F, 0xFF] s t ∧ t.run = 0 ∧ t.idx = s.idx + 1 ∧ KeepsPixel s t ∧
        EncodeFrame s t) ∧
    (s.lim < s.pos + 2 → ∃ t, step s = .next t ∧ Faulted .bufferOverflow s.pos t ∧ KeepsPixel s t)

/-- R123, R165, R166, R167: a pixel that differs from `prev` writes the pending run's opcode and then its own (INDEX on a hit,
else the delta opcode), clears the run and becomes `prev`; the cache slot is written on a miss only. -/
def Obligations.PixelWritesFlushThenOpcode : Prop :=
  ∀ (s : State) (v : Pixel), s.host = [] → s.mode = .enc → s.idx < s.npix →
    Cells.get? s.pixin s.idx = some (pack v) → v ≠ s.prev →
    s.pos + (pendingBytes s.run ++ encode (pixelOpcode s v)).length ≤ s.lim →
    ∃ t, step s = .next t ∧ AppendsBytes (pendingBytes s.run ++ encode (pixelOpcode s v)) s t ∧
      t.run = 0 ∧ t.idx = s.idx + 1 ∧ t.prev = v ∧
      (∀ i : Slot, t.cache[i] = if s.cache[pixelHash v] ≠ v ∧ i = pixelHash v then v else s.cache[i]) ∧ EncodeFrame s t

/-- R175, R194, R198: an encode step whose bytes do not fit takes BufferOverflow at `pos` of the write that does not fit: the
pending run's, else the opcode's, and of COLOR, which is written byte by byte (R108), the byte that would pass `lim`. -/
def Obligations.EncodeStepOverflows : Prop :=
  ∀ (s : State) (v : Pixel), s.host = [] → s.mode = .enc → s.idx < s.npix → s.pos ≤ s.lim →
    Cells.get? s.pixin s.idx = some (pack v) → v ≠ s.prev →
    s.lim < s.pos + (pendingBytes s.run ++ encode (pixelOpcode s v)).length →
    ∃ t, step s = .next t ∧ t.prev = s.prev ∧ t.params = s.params ∧ t.host = s.host ∧ t.pixin = s.pixin ∧
      Faulted .bufferOverflow
        (if s.lim < s.pos + (pendingBytes s.run).length then s.pos
          else if (pixelOpcode s v).kind = .color then s.lim
          else s.pos + (pendingBytes s.run).length) t

/-- R138, R139: the delta opcode by strict priority of the three fit tests. -/
def Obligations.DeltaOpcodeByPriority : Prop :=
  ∀ (d : Deltas) (v : Pixel),
    (deltaOpcode d v).kind =
      if d.a = 0 ∧ (-2 ≤ d.r ∧ d.r ≤ 1) ∧ (-2 ≤ d.g ∧ d.g ≤ 1) ∧ (-2 ≤ d.b ∧ d.b ≤ 1) then .diff8
      else if d.a = 0 ∧ (-16 ≤ d.r ∧ d.r ≤ 15) ∧ (-8 ≤ d.g ∧ d.g ≤ 7) ∧ (-8 ≤ d.b ∧ d.b ≤ 7) then .diff16
      else if (-16 ≤ d.r ∧ d.r ≤ 15) ∧ (-16 ≤ d.g ∧ d.g ≤ 15) ∧ (-16 ≤ d.b ∧ d.b ≤ 15) ∧
          (-16 ≤ d.a ∧ d.a ≤ 15) then .diff24
      else .color

/-- R141, its two forms: for a pixel that differs from `prev` the encoder chooses neither DIFF8 with three zero deltas nor COLOR
without flags. EncoderOpcodesAreCanonical says of every delta opcode that it gives the pixel itself. -/
def Obligations.DeltaOpcodeChangesSomething : Prop :=
  ∀ v prev : Pixel, v ≠ prev →
    deltaOpcode (deltas v prev) v ≠ .diff8 0 0 0 ∧ deltaOpcode (deltas v prev) v ≠ .color none none none none

/-- R155: the delta opcode the encoder chooses is well-formed, and a decoder with the same `prev` gets the pixel back. -/
def Obligations.DeltaOpcodeGivesPixelBack : Prop :=
  ∀ (v : Pixel) (s : State), s.out < s.pixelCount →
    (deltaOpcode (deltas v s.prev) v).wf = true ∧
    ∃ t, exec (deltaOpcode (deltas v s.prev) v) s = .next t ∧ OutputsPixels v 1 s t ∧ TakesPixel v s t ∧
      OpcodeFrame s t

/-- R85 (a) to (d), (f), (g), R113: the opcode the encoder selects for a pixel is canonical: INDEX exactly on a hit and of the
pixel's own slot, no wider delta opcode than needed, no COLOR without a flag or with a literal that repeats the old value, no
delta that wraps, and every delta opcode gives the pixel itself, which differs from `prev`. R85 (e) is about runs, which
RunPixelOnlyCounts, ForcedSplitAt8224, PixelWritesFlushThenOpcode and EncodeFinishWritesTrailer state. -/
def Obligations.EncoderOpcodesAreCanonical : Prop :=
  ∀ (s : State) (v : Pixel), v ≠ s.prev →
    ((pixelOpcode s v).kind = .index ↔ s.cache[pixelHash v] = v) ∧
    (pixelOpcode s v).kind ≠ .run8 ∧ (pixelOpcode s v).kind ≠ .run16 ∧
    (∀ i : Slot, pixelOpcode s v = .index i → i = pixelHash v ∧ s.cache[i] = v ∧ (v = Config.slotInit → i = 0)) ∧
    (∀ dr dg db, pixelOpcode s v = .diff8 dr dg db ∨ pixelOpcode s v = .diff16 dr dg db →
      NoWrap s.prev.r dr ∧ NoWrap s.prev.g dg ∧ NoWrap s.prev.b db ∧ v.a = s.prev.a ∧
      addDeltas s.prev dr dg db 0 = v) ∧
    (∀ dr dg db, pixelOpcode s v = .diff16 dr dg db → (Instr.diff8 dr dg db).wf = false) ∧
    (∀ dr dg db da, pixelOpcode s v = .diff24 dr dg db da →
      NoWrap s.prev.r dr ∧ NoWrap s.prev.g dg ∧ NoWrap s.prev.b db ∧ NoWrap s.prev.a da ∧
      addDeltas s.prev dr dg db da = v ∧ (da = 0 → (Instr.diff16 dr dg db).wf = false)) ∧
    ∀ r g b a, pixelOpcode s v = .color r g b a →
      ¬(r = none ∧ g = none ∧ b = none ∧ a = none) ∧
      r ≠ some s.prev.r ∧ g ≠ some s.prev.g ∧ b ≠ some s.prev.b ∧ a ≠ some s.prev.a ∧
      withLiterals s.prev r g b a = v ∧
      (Instr.diff24 (channelDelta v.r s.prev.r) (channelDelta v.g s.prev.g) (channelDelta v.b s.prev.b)
        (channelDelta v.a s.prev.a)).wf = false

/-- R43, R114: one pixel keeps both sides synchronised: where encoder and decoder agree on `prev` and the cache, they agree
again after the encoder has written a pixel's opcode and the decoder has executed it. -/
def Obligations.OnePixelKeepsBothSidesEqual : Prop :=
  ∀ (e e' d : State) (v : Pixel), e.prev = d.prev → e.cache = d.cache →
    e.host = [] → e.mode = .enc → e.idx < e.npix → Cells.get? e.pixin e.idx = some (pack v) → v ≠ e.prev →
    step e = .next e' → e'.mode = .enc → d.out < d.pixelCount →
    ∃ d', exec (pixelOpcode e v) d = .next d' ∧ OutputsPixels v 1 d d' ∧ d'.prev = e'.prev ∧ d'.cache = e'.cache

/-- R169: the encode finish writes the pending run and four zero bytes, sets `out_len` to `pos` and ends in DONE; where they do not
fit it takes BufferOverflow at the write that does not. That DONE leaves the internal registers and `out` as they were is the
model's (log entries 22 and 25). -/
def Obligations.EncodeFinishWritesTrailer : Prop :=
  ∀ s : State, s.host = [] → s.mode = .enc → s.idx = s.npix →
    (s.pos + (pendingBytes s.run).length + 4 ≤ s.lim →
      ∃ t, step s = .next t ∧ t.mode = .done ∧ AppendsBytes (pendingBytes s.run ++ [0, 0, 0, 0]) s t ∧
        t.outLen = t.pos ∧ t.run = 0 ∧ KeepsPixel s t ∧ t.idx = s.idx ∧ t.fault = s.fault ∧ t.width = s.width ∧
        t.height = s.height ∧ t.channels = s.channels ∧ t.cspace = s.cspace ∧ t.lim = s.lim ∧ t.npix = s.npix ∧
        t.out = s.out ∧ t.pixin = s.pixin ∧ t.pixout = s.pixout ∧ t.params = s.params ∧ t.host = s.host ∧
        t.draws = s.draws) ∧
    (s.lim < s.pos + (pendingBytes s.run).length + 4 →
      ∃ t, step s = .next t ∧ KeepsPixel s t ∧
        Faulted .bufferOverflow
          (if s.lim < s.pos + (pendingBytes s.run).length then s.pos else s.pos + (pendingBytes s.run).length) t)

/-- R170, R174: the length of a completed encode is within 18 and the capacity, every byte below it is written and none at or
beyond it. -/
def Obligations.CompletedEncodeLength : Prop :=
  ∀ s t : State, Inv s → s.host = [] → s.mode = .enc → step s = .next t → t.mode = .done →
    18 ≤ t.outLen ∧ t.outLen ≤ encodeCap t.width t.height t.channels ∧
    ∀ a, (Cells.get? t.stream a).isSome ↔ a < t.outLen

/-- R173, R235: an encode whose pixels are all there ends after at most one step for each pixel left and the finish, in DONE or in
BufferOverflow. -/
def Obligations.EncodeAlwaysEnds : Prop :=
  ∀ s : State, Inv s → PixinLoaded s → s.host = [] → s.mode = .enc →
    ∃ k t, k ≤ s.npix - s.idx + 1 ∧ runSteps k s = .next t ∧ (t.mode = .done ∨ ∃ n, Faulted .bufferOverflow n t)

/-- R163, R175: with `channels = 4` no encode step faults, because five bytes a pixel are always enough; the bound holds when an
encode opens and every step keeps it. -/
def Obligations.FourChannelsNeverOverflow : Prop :=
  (∀ (w h : Word) (c cs : Byte) (n : Nat) (s t : State) (rest : List (Option HostEvent)),
    step { s with host := some (.startEnc w h c cs n) :: rest } = .next t → WithinFiveBytes t) ∧
  ∀ s t : State, Inv s → WithinFiveBytes s → s.host = [] → s.mode = .enc → s.channels = 4 → step s = .next t →
    t.mode ≠ .fault ∧ WithinFiveBytes t

/-! ### The whole machine -/

/-- R40, R216: what power-on reset leaves of the registers whose value the spec gives. -/
def Obligations.ResetIsIdle : Prop :=
  State.reset.mode = .idle ∧ State.reset.fault.code = 0

/-- The invariant holds at the reset state. The registers the spec leaves unspecified have the model's own values there (log
entry 1). -/
def Obligations.ResetMeetsInvariant : Prop := Inv State.reset

/-- R42, R22, R33, R41: every step keeps the invariant, whoever moves: the bounds of `pos`, `idx`, `run` and `out`, the cache, the
pixels of the pending run, the written bytes and the canonical form of the memories. -/
def Obligations.StepKeepsInvariant : Prop :=
  ∀ s t : State, Inv s → step s = .next t → Inv t

/-- R206: no state of a running invocation is stuck: where the invariant holds and the input is there, the sequencer's
step answers a next state. That in IDLE, DONE and FAULT it answers one too is the model's choice (log entry 6), and so is that
an encode whose next word the host never placed is refused (log entry 17: R171 (c) puts it outside the model). -/
def Obligations.RunningStepIsEnabled : Prop :=
  (∀ s : State, Inv s → PixinLoaded s → s.host = [] → ∃ t, step s = .next t) ∧
  ∀ s : State, s.host = [] → s.mode = .enc → s.idx < s.npix → Cells.get? s.pixin s.idx = none →
    step s = .refused .pixinWordMissing

/-- R35: no step changes the parameters of the implementation, nor the model's own number of the context (log entry 7). -/
def Obligations.ParametersNeverChange : Prop :=
  ∀ s t : State, step s = .next t → t.params = s.params ∧ t.context = s.context

/-- R205, R206: in IDLE, DONE and FAULT nothing happens until the host moves; in particular no step clears a fault. A turn of
the sequencer that is scheduled does, whatever the mode, what a step does with nothing scheduled, so every statement with
nothing scheduled is one about every turn. The waiting step and the schedule are the model's choices (log entries 5 and 6). -/
def Obligations.WaitsForTheHost : Prop :=
  (∀ s : State, s.host = [] → s.mode ≠ .enc → s.mode ≠ .dec → step s = .next s) ∧
  ∀ (s : State) (rest : List (Option HostEvent)),
    (∀ t, step { s with host := [] } = .next t → step { s with host := none :: rest } = .next { t with host := rest }) ∧
    (∀ r, step { s with host := [] } = .refused r → step { s with host := none :: rest } = .refused r) ∧
    ∀ r, step { s with host := [] } ≠ .fault r

/-- R46, R49, R63: the sequencer never writes `PIXIN`, a decode step never writes `STREAM`, and an encode step never writes
`PIXOUT`. -/
def Obligations.SequencerWritesItsOwnBufferOnly : Prop :=
  ∀ s t : State, s.host = [] → step s = .next t →
    t.pixin = s.pixin ∧ (s.mode = .dec → t.stream = s.stream) ∧ (s.mode = .enc → t.pixout = s.pixout)

/-- R21: the mode changes of the sequencer: an encode goes on, is done or faults, a decode likewise, and nothing else moves. -/
def Obligations.SequencerModeChanges : Prop :=
  ∀ s t : State, s.host = [] → step s = .next t →
    (s.mode = .enc → t.mode = .enc ∨ t.mode = .done ∨ t.mode = .fault) ∧
    (s.mode = .dec → t.mode = .dec ∨ t.mode = .done ∨ t.mode = .fault) ∧
    (s.mode ≠ .enc → s.mode ≠ .dec → t.mode = s.mode)

/-- R222: a start command while an invocation runs is refused. -/
def Obligations.StartWhileBusyRefused : Prop :=
  ∀ (s : State) (rest : List (Option HostEvent)), s.mode = .enc ∨ s.mode = .dec →
    (∀ w h c cs n, s.host = some (.startEnc w h c cs n) :: rest → step s = .refused .startWhileBusy) ∧
    (∀ len, s.host = some (.startDec len) :: rest → step s = .refused .startWhileBusy)

/-- R216: power-on reset, whatever the machine does: IDLE, no fault, and no buffer byte with a value; at the block it acts on
every context. -/
def Obligations.PowerOnResetAnyTime : Prop :=
  (∀ (s : State) (rest : List (Option HostEvent)), s.host = some .powerOnReset :: rest →
    ∃ t, step s = .next t ∧ t.mode = .idle ∧ t.fault.code = 0 ∧ t.params = s.params ∧ t.host = rest ∧
      ∀ a, Cells.get? t.stream a = none ∧ Cells.get? t.pixin a = none ∧ Cells.get? t.pixout a = none) ∧
  ∀ b : Block, b.powerOnReset.length = b.length ∧ ∀ t ∈ b.powerOnReset, t.mode = .idle ∧ t.fault.code = 0

/-- R45, R46, R61: a scheduled move by which the host fills `STREAM` or `PIXIN` outside invocations writes just the addresses it
names; during an invocation it is refused. The fault beyond `STREAM_MAX` is the model's own (log entry 8). -/
def Obligations.HostFillsBuffersOutsideInvocations : Prop :=
  ∀ (s : State) (rest : List (Option HostEvent)) (addr : Nat) (bytes : List Byte) (words : List Word),
    let fillStream : State := { s with host := some (.putStream addr bytes) :: rest }
    let fillPixin : State := { s with host := some (.putPixin addr words) :: rest }
    (s.mode = .enc ∨ s.mode = .dec →
      step fillStream = .refused .hostAccessDuringInvocation ∧
      step fillPixin = .refused .hostAccessDuringInvocation) ∧
    (s.mode ≠ .enc → s.mode ≠ .dec →
      (addr + bytes.length ≤ s.params.streamMax →
        ∃ m, step fillStream = .next { s with stream := m, host := rest } ∧
          ∀ a, Cells.get? m a =
            if addr ≤ a ∧ a < addr + bytes.length then bytes[a - addr]? else Cells.get? s.stream a) ∧
      (s.params.streamMax < addr + bytes.length → step fillStream = .fault .noSuchStreamAddress) ∧
      ∃ m, step fillPixin = .next { s with pixin := m, host := rest } ∧
        ∀ a, Cells.get? m a =
          if addr ≤ a ∧ a < addr + words.length then words[a - addr]? else Cells.get? s.pixin a)

/-- R38: what the host may read in which mode besides `mode`, which `hostReadMode` reads at any time; internal registers never.
The read view, and the last direction as its argument, are the model's form of R38's table (log entry 19). -/
def Obligations.HostReadsByMode : Prop :=
  ∀ (last : Direction) (s : State),
    hostRead last .faultCode s = some s.fault.code.toNat ∧
    (∀ r : HostReg, r ≠ .faultCode → s.mode = .idle ∨ s.mode = .enc ∨ s.mode = .dec → hostRead last r s = none) ∧
    (s.mode = .fault → hostRead last .faultAt s = some s.fault.info ∧
      ∀ r : HostReg, r ≠ .faultCode → r ≠ .faultAt → hostRead last r s = none) ∧
    (s.mode = .done →
      hostRead last .width s = some s.width.toNat ∧ hostRead last .height s = some s.height.toNat ∧
      hostRead last .channels s = some s.channels.toNat ∧ hostRead last .cspace s = some s.cspace.toNat ∧
      hostRead .encode .outLen s = some s.outLen ∧ hostRead .decode .outLen s = none ∧
      hostRead .decode .out s = some s.out ∧ hostRead .encode .out s = none ∧ hostRead last .faultAt s = none) ∧
    (∀ i : Slot, hostRead last (.cache i) s = none) ∧
    hostRead last .prev s = none ∧ hostRead last .run s = none ∧ hostRead last .pos s = none ∧
    hostRead last .idx s = none ∧ hostRead last .lim s = none

/-- R51, R46: after a decode the host reads each pixel of `PIXOUT` as the packed word an encoder takes in `PIXIN`. R107, R170:
after an encode it reads the bytes of `STREAM` below `out_len`. That there is nothing to read in the other buffer, beyond the
result, or outside DONE, and that the last direction is an argument, is the model's read view (log entry 19: deduced from R38,
R44, R221 and R223). -/
def Obligations.HostReadsPackedPixels : Prop :=
  (∀ (s : State) (i : Nat) (p : Pixel), s.mode = .done → i < s.out →
    (∀ k, k < 4 → Cells.get? s.pixout (4 * i + k) = some (channelAt p k)) →
    hostReadPixel .decode i s = some (pack p) ∧ hostReadPixel .encode i s = none) ∧
  (∀ (s : State) (a : Nat), s.mode = .done →
    (a < s.outLen → hostReadStream .encode a s = Cells.get? s.stream a) ∧
    (s.outLen ≤ a → hostReadStream .encode a s = none) ∧ hostReadStream .decode a s = none) ∧
  ∀ (last : Direction) (s : State) (a : Nat), s.mode ≠ .done →
    hostReadStream last a s = none ∧ hostReadPixout last a s = none ∧ hostReadPixel last a s = none

/-- R58: the row-major index takes the pixels of an image one to one onto the elements below `width * height`. -/
def Obligations.RowMajorIndexIsOneToOne : Prop :=
  ∀ (w h : Word),
    (∀ x y, x < w.toNat → y < h.toNat → pixelIndex w x y < w.toNat * h.toNat) ∧
    (∀ x y x' y', x < w.toNat → x' < w.toNat → pixelIndex w x y = pixelIndex w x' y' → x = x' ∧ y = y') ∧
    ∀ i, i < w.toNat * h.toNat → ∃ x y, x < w.toNat ∧ y < h.toNat ∧ pixelIndex w x y = i

/-- R20, R212: a step of one context leaves every other context as it was, and depends on none of them. The model's own numbers
of the contexts, by which their free values differ, stay the places they stand at (log entry 7). -/
def Obligations.ContextsShareNothing : Prop :=
  (∀ (b b' : Block) (k : Nat), Block.stepContext b k = .next b' →
    b'.length = b.length ∧ (∀ j, j ≠ k → b'[j]? = b[j]?) ∧
    (∀ s, b[k]? = some s → ∃ t, step s = .next t ∧ b'[k]? = some t) ∧
    (Block.Numbered b → Block.Numbered b')) ∧
  ∀ nctx, (Block.reset nctx).length = nctx ∧ Block.Numbered (Block.reset nctx)

/-! ### The cursor, the cache and the pixels -/

/-- R50, R52, R97, R101: a big-endian word written at `pos` reads back from the same place, and byte by byte its most significant
byte comes first. -/
def Obligations.WrittenWordReadsBack : Prop :=
  ∀ (v : Word) (s : State), s.pos + 4 ≤ s.lim →
    ∃ t, writeU32 v s = .ok () t ∧ t.pos = s.pos + 4 ∧
      (∃ u, readU32 { t with pos := s.pos } = .ok v u ∧ u.pos = s.pos + 4) ∧
      (t.streamByte s.pos).toNat = v.toNat / 16777216 ∧
      (t.streamByte (s.pos + 3)).toNat = v.toNat % 256 ∧
      ∀ a, a < s.pos ∨ s.pos + 4 ≤ a → Cells.get? t.stream a = Cells.get? s.stream a

/-- R103, R104, R106: a cursor operation that would pass `lim` takes the fault with `pos` unchanged, as BufferOverflow in an
encode and as OutOfBounds in a decode; no form of it returns a value. -/
def Obligations.CursorFailsWhole : Prop :=
  ∀ (n : Nat) (s : State), s.lim < s.pos + n →
    ∃ t, t.pos = s.pos ∧ t.lim = s.lim ∧
      (s.mode = .enc → Faulted .bufferOverflow s.pos t) ∧ (s.mode = .dec → Faulted .outOfBounds s.pos t) ∧
      (n = 1 → readU8 s = .raised t ∧ (∀ v, writeU8 v s = .raised t) ∧ ∀ c, writeChar c s = .raised t) ∧
      (n = 2 → readU16 s = .raised t ∧ ∀ v, writeU16 v s = .raised t) ∧
      (n = 3 → readU24 s = .raised t ∧ ∀ v, writeU24 v s = .raised t) ∧
      (n = 4 → readU32 s = .raised t ∧ ∀ v, writeU32 v s = .raised t)

/-- R112, R113, R118: of two different pixels with one pixelHash the later update wins, and no other slot changes. -/
def Obligations.LaterUpdateWins : Prop :=
  ∀ (s : State) (p q : Pixel), pixelHash p = pixelHash q → p ≠ q →
    let t := (s.cacheUpdate p).cacheUpdate q
    t.hit p = false ∧ t.hit q = true ∧ ∀ i : Slot, i ≠ pixelHash q → t.cache[i] = s.cache[i]

/-- R110, R111: the pixelHash is the xor modulo 64, symmetric in the channels and blind to bits 7 and 6; at the invocation start slot 0 is
the only one whose content hashes to its own index. -/
def Obligations.HashIsLowSixBitsOfXor : Prop :=
  (∀ p : Pixel, (pixelHash p).val = (p.r ^^^ p.g ^^^ p.b ^^^ p.a).toNat % 64) ∧
  (∀ r g b a : Byte, pixelHash ⟨r, g, b, a⟩ = pixelHash ⟨g, r, b, a⟩ ∧ pixelHash ⟨r, g, b, a⟩ = pixelHash ⟨r, b, g, a⟩ ∧
    pixelHash ⟨r, g, b, a⟩ = pixelHash ⟨r, g, a, b⟩) ∧
  (∀ r g b a x : Byte, x.toNat % 64 = 0 → pixelHash ⟨r ^^^ x, g, b, a⟩ = pixelHash ⟨r, g, b, a⟩) ∧
  pixelHash Config.prevInit = 63 ∧ ∀ i : Slot, pixelHash cacheInit[i] = i ↔ i = 0

/-- R12: `pack` and `unpack` are inverse, and `pack` puts r in the most significant byte. -/
def Obligations.PackIsABijection : Prop :=
  (∀ p : Pixel, unpack (pack p) = p) ∧ (∀ w : Word, pack (unpack w) = w) ∧
  ∀ p : Pixel, (pack p).toNat = p.r.toNat * 16777216 + p.g.toNat * 65536 + p.b.toNat * 256 + p.a.toNat

/-! ### The whole invocations -/

/-- R172: an encode run by the machine's steps, the start command the first of them, gives what the one-function encode gives:
the same bytes, the same kind of fault, or the refusal of the command. -/
def Obligations.EncodeStepsGiveWholeEncode : Prop :=
  ∀ (s : State) (w h : Word) (c cs : Byte) (pixels : List Pixel),
    s.mode ≠ .enc → s.mode ≠ .dec → encodeCap w h c ≤ s.params.streamMax →
    (∀ i p, pixels[i]? = some p → Cells.get? s.pixin i = some (pack p)) →
    let result := runSteps (pixels.length + 2) { s with host := [some (.startEnc w h c cs pixels.length)] }
    match encodeAll s.params.magic w h c cs pixels with
    | .ok bytes => ∃ t, result = .next t ∧ t.mode = .done ∧ t.outLen = bytes.length ∧
        ∀ k : Nat, Cells.get? t.stream k = bytes[k]?
    | .error (.fault f) => ∃ t n, result = .next t ∧ Faulted f n t
    | .error .channelsNotThreeOrFour => result = .refused .channelsNotThreeOrFour

/-- R188: a decode run by the machine's steps, the start command the first of them, gives what the one-function decode gives: the same image, or the same kind of
fault. -/
def Obligations.DecodeStepsGiveWholeDecode : Prop :=
  ∀ (s : State) (bytes : List Byte),
    s.mode ≠ .enc → s.mode ≠ .dec → bytes.length ≤ s.params.streamMax →
    (∀ k b, bytes[k]? = some b → Cells.get? s.stream k = some b) →
    ∃ t, runSteps (bytes.length + 2) { s with host := [some (.startDec bytes.length)] } = .next t ∧
      match decodeAll s.params.magic s.params.pixbufMax bytes with
      | .ok im => t.mode = .done ∧ t.width = im.width ∧ t.height = im.height ∧ t.channels = im.channels ∧
          t.cspace = im.cspace ∧ t.out = im.pixels.length ∧
          ∀ (i k : Nat) (p : Pixel), im.pixels[i]? = some p → k < 4 →
            Cells.get? t.pixout (4 * i + k) = some (channelAt p k)
      | .error f => ∃ n, Faulted f n t

/-- R191: the round trip: a completed encode decodes to the same dimensions, header bytes and pixels. -/
def Obligations.DecodeInvertsEncode : Prop :=
  ∀ (magic : Magic) (pixbufMax : Nat) (w h : Word) (c cs : Byte) (pixels : List Pixel) (bytes : List Byte),
    encodeAll magic w h c cs pixels = .ok bytes → 4 * (w.toNat * h.toNat) ≤ pixbufMax →
    decodeAll magic pixbufMax bytes =
      .ok { width := w, height := h, channels := c, cspace := cs, pixels := pixels }
end

