-- ==== Sys2Proof/Laws/State.lean ====
section
/-!
SUPPORT. The fields of a state after each named update: one lemma for each field, so that later proofs unfold no record
update.
-/
namespace Sys2Proof.Machine

/-! ### The program counter moves -/

@[simp] theorem State.advance_params (s : State) (n : Nat) : (s.advance n).params = s.params := rfl
@[simp] theorem State.advance_mode (s : State) (n : Nat) : (s.advance n).mode = s.mode := rfl
@[simp] theorem State.advance_fault (s : State) (n : Nat) : (s.advance n).fault = s.fault := rfl
@[simp] theorem State.advance_prev (s : State) (n : Nat) : (s.advance n).prev = s.prev := rfl
@[simp] theorem State.advance_run (s : State) (n : Nat) : (s.advance n).run = s.run := rfl
@[simp] theorem State.advance_width (s : State) (n : Nat) : (s.advance n).width = s.width := rfl
@[simp] theorem State.advance_height (s : State) (n : Nat) : (s.advance n).height = s.height := rfl
@[simp] theorem State.advance_channels (s : State) (n : Nat) : (s.advance n).channels = s.channels := rfl
@[simp] theorem State.advance_cspace (s : State) (n : Nat) : (s.advance n).cspace = s.cspace := rfl
@[simp] theorem State.advance_cache (s : State) (n : Nat) : (s.advance n).cache = s.cache := rfl
@[simp] theorem State.advance_pos (s : State) (n : Nat) : (s.advance n).pos = s.pos + n := rfl
@[simp] theorem State.advance_lim (s : State) (n : Nat) : (s.advance n).lim = s.lim := rfl
@[simp] theorem State.advance_idx (s : State) (n : Nat) : (s.advance n).idx = s.idx := rfl
@[simp] theorem State.advance_npix (s : State) (n : Nat) : (s.advance n).npix = s.npix := rfl
@[simp] theorem State.advance_out (s : State) (n : Nat) : (s.advance n).out = s.out := rfl
@[simp] theorem State.advance_outLen (s : State) (n : Nat) : (s.advance n).outLen = s.outLen := rfl
@[simp] theorem State.advance_stream (s : State) (n : Nat) : (s.advance n).stream = s.stream := rfl
@[simp] theorem State.advance_pixin (s : State) (n : Nat) : (s.advance n).pixin = s.pixin := rfl
@[simp] theorem State.advance_pixout (s : State) (n : Nat) : (s.advance n).pixout = s.pixout := rfl
@[simp] theorem State.advance_host (s : State) (n : Nat) : (s.advance n).host = s.host := rfl
@[simp] theorem State.advance_context (s : State) (n : Nat) : (s.advance n).context = s.context := rfl
@[simp] theorem State.advance_draws (s : State) (n : Nat) : (s.advance n).draws = s.draws := rfl

/-! ### A cache update -/

@[simp] theorem State.cacheUpdate_params (s : State) (p : Pixel) : (s.cacheUpdate p).params = s.params := rfl
@[simp] theorem State.cacheUpdate_mode (s : State) (p : Pixel) : (s.cacheUpdate p).mode = s.mode := rfl
@[simp] theorem State.cacheUpdate_fault (s : State) (p : Pixel) : (s.cacheUpdate p).fault = s.fault := rfl
@[simp] theorem State.cacheUpdate_prev (s : State) (p : Pixel) : (s.cacheUpdate p).prev = s.prev := rfl
@[simp] theorem State.cacheUpdate_run (s : State) (p : Pixel) : (s.cacheUpdate p).run = s.run := rfl
@[simp] theorem State.cacheUpdate_width (s : State) (p : Pixel) : (s.cacheUpdate p).width = s.width := rfl
@[simp] theorem State.cacheUpdate_height (s : State) (p : Pixel) : (s.cacheUpdate p).height = s.height := rfl
@[simp] theorem State.cacheUpdate_channels (s : State) (p : Pixel) : (s.cacheUpdate p).channels = s.channels := rfl
@[simp] theorem State.cacheUpdate_cspace (s : State) (p : Pixel) : (s.cacheUpdate p).cspace = s.cspace := rfl
@[simp] theorem State.cacheUpdate_cache (s : State) (p : Pixel) : (s.cacheUpdate p).cache = s.cache.set (pixelHash p) p := rfl
@[simp] theorem State.cacheUpdate_pos (s : State) (p : Pixel) : (s.cacheUpdate p).pos = s.pos := rfl
@[simp] theorem State.cacheUpdate_lim (s : State) (p : Pixel) : (s.cacheUpdate p).lim = s.lim := rfl
@[simp] theorem State.cacheUpdate_idx (s : State) (p : Pixel) : (s.cacheUpdate p).idx = s.idx := rfl
@[simp] theorem State.cacheUpdate_npix (s : State) (p : Pixel) : (s.cacheUpdate p).npix = s.npix := rfl
@[simp] theorem State.cacheUpdate_out (s : State) (p : Pixel) : (s.cacheUpdate p).out = s.out := rfl
@[simp] theorem State.cacheUpdate_outLen (s : State) (p : Pixel) : (s.cacheUpdate p).outLen = s.outLen := rfl
@[simp] theorem State.cacheUpdate_stream (s : State) (p : Pixel) : (s.cacheUpdate p).stream = s.stream := rfl
@[simp] theorem State.cacheUpdate_pixin (s : State) (p : Pixel) : (s.cacheUpdate p).pixin = s.pixin := rfl
@[simp] theorem State.cacheUpdate_pixout (s : State) (p : Pixel) : (s.cacheUpdate p).pixout = s.pixout := rfl
@[simp] theorem State.cacheUpdate_host (s : State) (p : Pixel) : (s.cacheUpdate p).host = s.host := rfl
@[simp] theorem State.cacheUpdate_context (s : State) (p : Pixel) : (s.cacheUpdate p).context = s.context := rfl
@[simp] theorem State.cacheUpdate_draws (s : State) (p : Pixel) : (s.cacheUpdate p).draws = s.draws := rfl

/-! ### The fault register is cleared -/

@[simp] theorem State.clearFault_params (s : State) : (s.clearFault).params = s.params := rfl
@[simp] theorem State.clearFault_mode (s : State) : (s.clearFault).mode = s.mode := rfl
@[simp] theorem State.clearFault_fault (s : State) : (s.clearFault).fault = ⟨0, s.freeNat 0⟩ := rfl
@[simp] theorem State.clearFault_prev (s : State) : (s.clearFault).prev = s.prev := rfl
@[simp] theorem State.clearFault_run (s : State) : (s.clearFault).run = s.run := rfl
@[simp] theorem State.clearFault_width (s : State) : (s.clearFault).width = s.width := rfl
@[simp] theorem State.clearFault_height (s : State) : (s.clearFault).height = s.height := rfl
@[simp] theorem State.clearFault_channels (s : State) : (s.clearFault).channels = s.channels := rfl
@[simp] theorem State.clearFault_cspace (s : State) : (s.clearFault).cspace = s.cspace := rfl
@[simp] theorem State.clearFault_cache (s : State) : (s.clearFault).cache = s.cache := rfl
@[simp] theorem State.clearFault_pos (s : State) : (s.clearFault).pos = s.pos := rfl
@[simp] theorem State.clearFault_lim (s : State) : (s.clearFault).lim = s.lim := rfl
@[simp] theorem State.clearFault_idx (s : State) : (s.clearFault).idx = s.idx := rfl
@[simp] theorem State.clearFault_npix (s : State) : (s.clearFault).npix = s.npix := rfl
@[simp] theorem State.clearFault_out (s : State) : (s.clearFault).out = s.out := rfl
@[simp] theorem State.clearFault_outLen (s : State) : (s.clearFault).outLen = s.outLen := rfl
@[simp] theorem State.clearFault_stream (s : State) : (s.clearFault).stream = s.stream := rfl
@[simp] theorem State.clearFault_pixin (s : State) : (s.clearFault).pixin = s.pixin := rfl
@[simp] theorem State.clearFault_pixout (s : State) : (s.clearFault).pixout = s.pixout := rfl
@[simp] theorem State.clearFault_host (s : State) : (s.clearFault).host = s.host := rfl
@[simp] theorem State.clearFault_context (s : State) : (s.clearFault).context = s.context := rfl
@[simp] theorem State.clearFault_draws (s : State) : (s.clearFault).draws = s.draws := rfl

/-! ### The outputs become invalid -/

@[simp] theorem State.invalidateOutputs_params (s : State) : (s.invalidateOutputs).params = s.params := by
  unfold State.invalidateOutputs; split <;> rfl
@[simp] theorem State.invalidateOutputs_mode (s : State) : (s.invalidateOutputs).mode = s.mode := by
  unfold State.invalidateOutputs; split <;> rfl
@[simp] theorem State.invalidateOutputs_fault (s : State) : (s.invalidateOutputs).fault = s.fault := by
  unfold State.invalidateOutputs; split <;> rfl
@[simp] theorem State.invalidateOutputs_prev (s : State) : (s.invalidateOutputs).prev = s.prev := by
  unfold State.invalidateOutputs; split <;> rfl
@[simp] theorem State.invalidateOutputs_run (s : State) : (s.invalidateOutputs).run = s.run := by
  unfold State.invalidateOutputs; split <;> rfl
@[simp] theorem State.invalidateOutputs_cache (s : State) : (s.invalidateOutputs).cache = s.cache := by
  unfold State.invalidateOutputs; split <;> rfl
@[simp] theorem State.invalidateOutputs_pos (s : State) : (s.invalidateOutputs).pos = s.pos := by
  unfold State.invalidateOutputs; split <;> rfl
@[simp] theorem State.invalidateOutputs_lim (s : State) : (s.invalidateOutputs).lim = s.lim := by
  unfold State.invalidateOutputs; split <;> rfl
@[simp] theorem State.invalidateOutputs_idx (s : State) : (s.invalidateOutputs).idx = s.idx := by
  unfold State.invalidateOutputs; split <;> rfl
@[simp] theorem State.invalidateOutputs_npix (s : State) : (s.invalidateOutputs).npix = s.npix := by
  unfold State.invalidateOutputs; split <;> rfl
@[simp] theorem State.invalidateOutputs_pixin (s : State) : (s.invalidateOutputs).pixin = s.pixin := by
  unfold State.invalidateOutputs; split <;> rfl
@[simp] theorem State.invalidateOutputs_host (s : State) : (s.invalidateOutputs).host = s.host := by
  unfold State.invalidateOutputs; split <;> rfl
@[simp] theorem State.invalidateOutputs_context (s : State) : (s.invalidateOutputs).context = s.context := by
  unfold State.invalidateOutputs; split <;> rfl
@[simp] theorem State.invalidateOutputs_draws (s : State) : (s.invalidateOutputs).draws = s.draws + 1 := by
  unfold State.invalidateOutputs; split <;> rfl

/-! ### Fault entry -/

@[simp] theorem raise_params (k : FaultKind) (n : Nat) (s : State) : (raise k n s).params = s.params := by
  simp [raise]
@[simp] theorem raise_mode (k : FaultKind) (n : Nat) (s : State) : (raise k n s).mode = .fault := by
  simp [raise]
@[simp] theorem raise_fault (k : FaultKind) (n : Nat) (s : State) : (raise k n s).fault = ⟨k.code, n⟩ := by
  simp [raise]
@[simp] theorem raise_prev (k : FaultKind) (n : Nat) (s : State) : (raise k n s).prev = s.prev := by
  simp [raise]
@[simp] theorem raise_run (k : FaultKind) (n : Nat) (s : State) : (raise k n s).run = s.run := by
  simp [raise]
@[simp] theorem raise_cache (k : FaultKind) (n : Nat) (s : State) : (raise k n s).cache = s.cache := by
  simp [raise]
@[simp] theorem raise_pos (k : FaultKind) (n : Nat) (s : State) : (raise k n s).pos = s.pos := by
  simp [raise]
@[simp] theorem raise_lim (k : FaultKind) (n : Nat) (s : State) : (raise k n s).lim = s.lim := by
  simp [raise]
@[simp] theorem raise_idx (k : FaultKind) (n : Nat) (s : State) : (raise k n s).idx = s.idx := by
  simp [raise]
@[simp] theorem raise_npix (k : FaultKind) (n : Nat) (s : State) : (raise k n s).npix = s.npix := by
  simp [raise]
@[simp] theorem raise_pixin (k : FaultKind) (n : Nat) (s : State) : (raise k n s).pixin = s.pixin := by
  simp [raise]
@[simp] theorem raise_host (k : FaultKind) (n : Nat) (s : State) : (raise k n s).host = s.host := by
  simp [raise]
@[simp] theorem raise_context (k : FaultKind) (n : Nat) (s : State) : (raise k n s).context = s.context := by
  simp [raise]
@[simp] theorem raise_draws (k : FaultKind) (n : Nat) (s : State) : (raise k n s).draws = s.draws + 1 := by
  simp [raise]

/-- A fault in a decode leaves `STREAM` and `out_len` alone. -/
theorem raise_of_dec {s : State} (h : s.mode = .dec) (k : FaultKind) (n : Nat) :
    (raise k n s).stream = s.stream ∧ (raise k n s).outLen = s.outLen ∧ (raise k n s).pixout = [] := by
  simp [raise, State.invalidateOutputs, h]

/-- A fault outside a decode leaves `PIXOUT`, `out` and the header registers alone. -/
theorem raise_of_not_dec {s : State} (h : s.mode ≠ .dec) (k : FaultKind) (n : Nat) :
    (raise k n s).pixout = s.pixout ∧ (raise k n s).out = s.out ∧ (raise k n s).width = s.width ∧
      (raise k n s).height = s.height ∧ (raise k n s).channels = s.channels ∧
      (raise k n s).cspace = s.cspace ∧ (raise k n s).stream = [] := by
  simp [raise, State.invalidateOutputs, h]

/-- The fault codes of R194 are the numbers 1 to 5. -/
theorem FaultKind.code_range (k : FaultKind) : 1 ≤ k.code.toNat ∧ k.code.toNat ≤ 5 := by
  cases k <;> decide

@[simp] theorem FaultKind.code_ne_zero (k : FaultKind) : k.code ≠ 0 := by
  cases k <;> decide

/-! ### Results of operations -/

@[simp] theorem Res.andThen_ok {α β : Type} (v : α) (s : State) (f : α → State → Res β) :
    (Res.ok v s).andThen f = f v s := rfl

@[simp] theorem Res.andThen_raised {α β : Type} (s : State) (f : α → State → Res β) :
    (Res.raised s : Res α).andThen f = .raised s := rfl

@[simp] theorem Res.final_ok {α : Type} (v : α) (s : State) : (Res.ok v s).final = s := rfl

@[simp] theorem Res.final_raised {α : Type} (s : State) : (Res.raised s : Res α).final = s := rfl

theorem Res.andThen_assoc {α β γ : Type} (x : Res α) (f : α → State → Res β) (g : β → State → Res γ) :
    (x.andThen f).andThen g = x.andThen fun v s => (f v s).andThen g := by
  cases x <;> rfl

end Sys2Proof.Machine
end

