-- ==== Sys2Proof/Laws/Cache.lean ====
section
/-!
SUPPORT. The colour cache: what a slot holds after an update (R112), and the hit test after it (R113).
-/
namespace Sys2Proof.Machine

/-- Only the slot `hash(p)` changes (R112). -/
theorem cacheUpdate_get (s : State) (p : Pixel) (i : Slot) :
    (s.cacheUpdate p).cache[i] = if i = pixelHash p then p else s.cache[i] := by
  simp only [State.cacheUpdate_cache, Fin.getElem_fin, Vector.getElem_set]
  by_cases h : i = pixelHash p
  · simp [h]
  · have : ¬ (pixelHash p).val = i.val := fun e => h (Fin.ext e.symm)
    simp [h, this]

theorem cacheUpdate_hit (s : State) (p : Pixel) : (s.cacheUpdate p).hit p = true := by
  simp only [State.hit, cacheUpdate_get, if_true, decide_true]

theorem hit_iff (s : State) (p : Pixel) : s.hit p = true ↔ s.cache[pixelHash p] = p := by
  simp [State.hit]

@[simp] theorem cacheInit_get (i : Slot) : cacheInit[i] = Config.slotInit := by
  simp [cacheInit]

@[simp] theorem pixelHash_slotInit : pixelHash Config.slotInit = 0 := by decide

@[simp] theorem pixelHash_prevInit : pixelHash Config.prevInit = 63 := by decide

end Sys2Proof.Machine
end

