-- ==== Sys2Proof/Laws/Memory.lean ====
section
/-!
SUPPORT. The laws of memory cells: a read after a write, the frame of a write, and that a write keeps the canonical form.
-/
namespace Sys2Proof.Machine

variable {α : Type}

@[simp] theorem Cells.get?_nil (a : Nat) : Cells.get? ([] : Cells α) a = none := rfl

@[simp] theorem Cells.get?_cons (c : Nat × α) (m : Cells α) (a : Nat) :
    Cells.get? (c :: m) a = if c.1 = a then some c.2 else Cells.get? m a := rfl

theorem Cells.get?_append (m n : Cells α) (a : Nat) :
    Cells.get? (m ++ n) a = (Cells.get? m a).or (Cells.get? n a) := by
  induction m with
  | nil => simp
  | cons c m ih =>
    rw [List.cons_append, Cells.get?_cons, Cells.get?_cons, ih]
    split <;> simp

/-- Filtering by address leaves the kept addresses as they were and empties the others. -/
theorem Cells.get?_filter (m : Cells α) (keep : Nat → Bool) (a : Nat) :
    Cells.get? (m.filter fun c => keep c.1) a = if keep a then Cells.get? m a else none := by
  induction m with
  | nil => simp
  | cons c m ih =>
    rw [List.filter_cons]
    by_cases hk : keep c.1 = true
    · rw [if_pos hk, Cells.get?_cons, Cells.get?_cons, ih]
      by_cases hc : c.1 = a
      · subst hc; simp [hk]
      · simp [hc]
    · rw [if_neg hk, ih, Cells.get?_cons]
      by_cases hc : c.1 = a
      · subst hc; simp [hk]
      · simp [hc]

theorem Cells.get?_block (vs : List α) (b a : Nat) :
    Cells.get? (Cells.block b vs) a = if b ≤ a then vs[a - b]? else none := by
  induction vs generalizing b with
  | nil => simp [Cells.block]
  | cons v vs ih =>
    rw [Cells.block, Cells.get?_cons, ih]
    by_cases hb : b = a
    · subst hb; simp
    · by_cases hlt : b ≤ a
      · have hs : a - b = (a - (b + 1)) + 1 := by omega
        rw [if_neg hb, if_pos (by omega), if_pos hlt, hs, List.getElem?_cons_succ]
      · rw [if_neg hb, if_neg (by omega), if_neg hlt]

/-- What every address holds after a write. -/
theorem Cells.get?_put (m : Cells α) (b : Nat) (vs : List α) (a : Nat) :
    Cells.get? (Cells.put m b vs) a =
      if b ≤ a ∧ a < b + vs.length then vs[a - b]? else Cells.get? m a := by
  unfold Cells.put
  rw [Cells.get?_append, Cells.get?_append, Cells.get?_filter m (fun k => decide (k < b)),
    Cells.get?_filter m (fun k => decide (b + vs.length ≤ k)), Cells.get?_block]
  rcases Nat.lt_or_ge a b with h | h
  · have h2 : ¬ b + vs.length ≤ a := by omega
    simp [h, Nat.not_le.mpr h, h2]
  · rcases Nat.lt_or_ge a (b + vs.length) with h2 | h2
    · have h3 : a - b < vs.length := by omega
      simp [h, h2, Nat.not_lt.mpr h, List.getElem?_eq_getElem h3]
    · have h3 : vs[a - b]? = none := List.getElem?_eq_none (by omega)
      simp [h, h2, Nat.not_lt.mpr h, Nat.not_lt.mpr h2, h3]

/-- A write leaves every address outside it alone. -/
theorem Cells.get?_put_outside (m : Cells α) {b a : Nat} {vs : List α} (h : a < b ∨ b + vs.length ≤ a) :
    Cells.get? (Cells.put m b vs) a = Cells.get? m a := by
  rw [Cells.get?_put, if_neg (by omega)]

/-- A read after a write to the same place gives the value written. -/
theorem Cells.get?_put_inside (m : Cells α) (b : Nat) (vs : List α) {k : Nat} (h : k < vs.length) :
    Cells.get? (Cells.put m b vs) (b + k) = some vs[k] := by
  rw [Cells.get?_put, if_pos (by omega), Nat.add_sub_cancel_left, List.getElem?_eq_getElem h]

theorem Cells.put_nil (m : Cells α) (hm : m.wf) (b : Nat) : Cells.put m b [] = m := by
  unfold Cells.put Cells.block
  simp only [List.length_nil, Nat.add_zero, List.append_nil]
  induction m with
  | nil => rfl
  | cons c m ih =>
    have hc := List.pairwise_cons.mp hm
    by_cases h : c.1 < b
    · simp [h, Nat.not_le.mpr h, ih hc.2]
    · have hall : ∀ d ∈ m, b ≤ d.1 := fun d hd => by have := hc.1 d hd; omega
      have h1 : m.filter (fun d => decide (d.1 < b)) = [] :=
        List.filter_eq_nil_iff.mpr fun d hd => by simp [hall d hd]
      have h2 : m.filter (fun d => decide (b ≤ d.1)) = m :=
        List.filter_eq_self.mpr fun d hd => by simp [hall d hd]
      simp [h, Nat.not_lt.mp h, h1, h2]

/-! ### The canonical form -/

theorem Cells.mem_block {c : Nat × α} {b : Nat} {vs : List α} (h : c ∈ Cells.block b vs) :
    b ≤ c.1 ∧ c.1 < b + vs.length := by
  induction vs generalizing b with
  | nil => simp [Cells.block] at h
  | cons v vs ih =>
    rcases List.mem_cons.mp h with rfl | h
    · simp
    · have := ih h
      simp only [List.length_cons]
      omega

theorem Cells.block_wf (b : Nat) (vs : List α) : (Cells.block b vs).wf := by
  induction vs generalizing b with
  | nil => exact List.Pairwise.nil
  | cons v vs ih => exact List.Pairwise.cons (fun c hc => (Cells.mem_block hc).1) (ih (b + 1))

/-- A write keeps the canonical form. -/
theorem Cells.put_wf {m : Cells α} (hm : m.wf) (b : Nat) (vs : List α) : (Cells.put m b vs).wf := by
  refine List.pairwise_append.mpr ⟨List.pairwise_append.mpr ⟨hm.filter _, Cells.block_wf b vs, ?_⟩, hm.filter _, ?_⟩
  · intro c hc d hd
    have h1 := (List.mem_filter.mp hc).2
    have h2 := (Cells.mem_block hd).1
    simp only [decide_eq_true_eq] at h1
    omega
  · intro c hc d hd
    have h1 := (List.mem_filter.mp hd).2
    simp only [decide_eq_true_eq] at h1
    rcases List.mem_append.mp hc with hc | hc
    · have h2 := (List.mem_filter.mp hc).2
      simp only [decide_eq_true_eq] at h2
      omega
    · have h2 := (Cells.mem_block hc).2
      omega

/-! ### Neighbouring writes -/

/-- Two writes next to each other are one write. -/
theorem Cells.put_put (m : Cells α) (a : Nat) (vs ws : List α) :
    Cells.put (Cells.put m a vs) (a + vs.length) ws = Cells.put m a (vs ++ ws) := by
  have hblock : ∀ (b : Nat) (xs : List α), Cells.block b (xs ++ ws) = Cells.block b xs ++ Cells.block (b + xs.length) ws := by
    intro b xs
    induction xs generalizing b with
    | nil => simp [Cells.block]
    | cons x xs ih =>
      rw [List.cons_append, Cells.block, Cells.block, ih, List.cons_append, List.length_cons,
        show b + 1 + xs.length = b + (xs.length + 1) by omega]
  have keep : ∀ (q : Nat → Bool), (∀ k, k < a + vs.length → q k = true) →
      (Cells.block a vs).filter (fun c => q c.1) = Cells.block a vs := fun q hq =>
    List.filter_eq_self.mpr fun c hc => hq _ (Cells.mem_block hc).2
  have drop : ∀ (q : Nat → Bool), (∀ k, k < a + vs.length → q k = false) →
      (Cells.block a vs).filter (fun c => q c.1) = [] := fun q hq =>
    List.filter_eq_nil_iff.mpr fun c hc => by simp [hq _ (Cells.mem_block hc).2]
  have k1 := keep (fun k => decide (k < a + vs.length)) (fun k hk => by simpa using hk)
  have d1 := drop (fun k => decide (a + vs.length + ws.length ≤ k)) (fun k hk => by simp; omega)
  have f1 : m.filter (fun c => decide (c.1 < a + vs.length) && decide (c.1 < a)) = m.filter (fun c => decide (c.1 < a)) :=
    List.filter_congr fun c _ => by rw [← Bool.decide_and]; exact decide_eq_decide.mpr (by omega)
  have f2 : m.filter (fun c => decide (c.1 < a + vs.length) && decide (a + vs.length ≤ c.1)) = [] :=
    List.filter_eq_nil_iff.mpr fun c _ => by simp
  have f3 : m.filter (fun c => decide (a + vs.length + ws.length ≤ c.1) && decide (c.1 < a)) = [] :=
    List.filter_eq_nil_iff.mpr fun c _ => by simp; omega
  have f4 : m.filter (fun c => decide (a + vs.length + ws.length ≤ c.1) && decide (a + vs.length ≤ c.1)) =
      m.filter (fun c => decide (a + vs.length + ws.length ≤ c.1)) :=
    List.filter_congr fun c _ => by rw [← Bool.decide_and]; exact decide_eq_decide.mpr (by omega)
  unfold Cells.put
  simp only [List.filter_append, List.filter_filter, k1, d1, f1, f2, f3, f4, hblock, List.length_append,
    List.append_nil, List.nil_append, List.append_assoc, ← Nat.add_assoc]

end Sys2Proof.Machine
end

