-- ==== Sys2Proof/Laws/Cursor.lean ====
section
/-!
SUPPORT. What the cursor can do: one lemma for each operation of `bytecursor_fifo`, and that every store keeps the canonical form
of the memories.
-/
namespace Sys2Proof.Machine

@[simp] theorem be16_length (v : U16) : (be16 v).length = 2 := rfl

@[simp] theorem be24_length (v : U24) : (be24 v).length = 3 := rfl

@[simp] theorem be32_length (v : Word) : (be32 v).length = 4 := rfl

/-- What a cursor read can do: its value with `pos` moved, or the fault with nothing moved (R103, R104). -/
theorem cursorRead_cases {α : Type} (n : Nat) (value : (Nat → Byte) → α) (s : State) :
    (s.pos + n ≤ s.lim ∧
      cursorRead n value s = .ok (value fun k => s.streamByte (s.pos + k)) { s with pos := s.pos + n }) ∨
    (s.lim < s.pos + n ∧ cursorRead n value s = .raised (raiseCursor s)) := by
  unfold cursorRead
  rcases Nat.lt_or_ge s.lim (s.pos + n) with h | h
  · exact .inr ⟨h, if_pos h⟩
  · exact .inl ⟨h, if_neg (by omega)⟩

/-- What a cursor write can do: the bytes stored with `pos` moved, or the fault (R103, R104). -/
theorem cursorWrite_cases (bs : List Byte) (s : State) :
    (s.pos + bs.length ≤ s.lim ∧
      cursorWrite bs s = .ok () { s with stream := Cells.put s.stream s.pos bs, pos := s.pos + bs.length }) ∨
    (s.lim < s.pos + bs.length ∧ cursorWrite bs s = .raised (raiseCursor s)) := by
  unfold cursorWrite
  rcases Nat.lt_or_ge s.lim (s.pos + bs.length) with h | h
  · exact .inr ⟨h, if_pos h⟩
  · exact .inl ⟨h, if_neg (by omega)⟩

theorem cursorWrite_of_room {bs : List Byte} {s : State} (h : s.pos + bs.length ≤ s.lim) :
    cursorWrite bs s = .ok () { s with stream := Cells.put s.stream s.pos bs, pos := s.pos + bs.length } :=
  if_neg (by omega)

/-- Two writes in a row are one write of both byte strings, when both fit. -/
theorem cursorWrite_append {xs ys : List Byte} {s : State} (h : s.pos + xs.length + ys.length ≤ s.lim) :
    ((cursorWrite xs s).andThen fun _ t => cursorWrite ys t) = cursorWrite (xs ++ ys) s := by
  rw [cursorWrite_of_room (bs := xs) (by omega), Res.andThen_ok, cursorWrite_of_room h,
    cursorWrite_of_room (bs := xs ++ ys) (by rw [List.length_append]; omega), List.length_append]
  simp only [Cells.put_put, Nat.add_assoc]

@[simp] theorem raiseCursor_mode (s : State) : (raiseCursor s).mode = .fault := by simp [raiseCursor]

@[simp] theorem raiseCursor_pos (s : State) : (raiseCursor s).pos = s.pos := by simp [raiseCursor]

/-- R106 (a): in an encode a cursor failure is BufferOverflow. -/
theorem raiseCursor_enc {s : State} (h : s.mode = .enc) : raiseCursor s = raise .bufferOverflow s.pos s := by
  simp [raiseCursor, h]

/-- R106 (b): elsewhere it is OutOfBounds. -/
theorem raiseCursor_not_enc {s : State} (h : s.mode ≠ .enc) : raiseCursor s = raise .outOfBounds s.pos s := by
  simp [raiseCursor, h]

theorem readU8_of_room {s : State} (h : s.pos + 1 ≤ s.lim) :
    readU8 s = .ok (s.streamByte s.pos) { s with pos := s.pos + 1 } := by
  rcases cursorRead_cases 1 (fun m => m 0) s with ⟨_, e⟩ | ⟨h2, _⟩
  · exact e
  · omega

/-- The continuation bytes, when all of them are inside the buffer (R181). -/
theorem readBytes_of_room {n : Nat} {s : State} (h : s.pos + n ≤ s.lim) :
    readBytes n s =
      .ok ((List.range n).map fun k => s.streamByte (s.pos + k)) { s with pos := s.pos + n } := by
  induction n generalizing s with
  | zero => simp [readBytes]
  | succ n ih =>
    rw [readBytes, readU8_of_room (by omega), Res.andThen_ok, ih (by simp only; omega), Res.andThen_ok,
      List.range_succ_eq_map]
    have hs : ∀ (k p : Nat), ({ s with pos := p } : State).streamByte k = s.streamByte k := fun _ _ => rfl
    simp [Function.comp_def, hs, Nat.add_assoc, Nat.add_comm 1]

/-! ### The canonical form -/

/-- All memories of a state are in canonical form. -/
def MemoriesWf (s : State) : Prop := s.stream.wf ∧ s.pixin.wf ∧ s.pixout.wf

theorem raise_wf {s : State} (h : MemoriesWf s) (k : FaultKind) (n : Nat) : MemoriesWf (raise k n s) := by
  obtain ⟨h1, h2, h3⟩ := h
  unfold MemoriesWf raise State.invalidateOutputs
  split
  · exact ⟨h1, h2, List.Pairwise.nil⟩
  · exact ⟨List.Pairwise.nil, h2, h3⟩

theorem raiseCursor_wf {s : State} (h : MemoriesWf s) : MemoriesWf (raiseCursor s) := raise_wf h _ _

theorem cursorRead_wf {α : Type} {s : State} (h : MemoriesWf s) (n : Nat) (value : (Nat → Byte) → α) :
    MemoriesWf (cursorRead n value s).final := by
  rcases cursorRead_cases n value s with ⟨_, e⟩ | ⟨_, e⟩ <;> rw [e]
  · exact h
  · exact raiseCursor_wf h

theorem cursorWrite_wf {s : State} (h : MemoriesWf s) (bs : List Byte) : MemoriesWf (cursorWrite bs s).final := by
  rcases cursorWrite_cases bs s with ⟨_, e⟩ | ⟨_, e⟩ <;> rw [e]
  · exact ⟨Cells.put_wf h.1 _ _, h.2.1, h.2.2⟩
  · exact raiseCursor_wf h

/-- Sequencing keeps what both parts keep. -/
theorem Res.andThen_final {α β : Type} {P : State → Prop} {x : Res α} {f : α → State → Res β}
    (hx : P x.final) (hf : ∀ v s, P s → P (f v s).final) : P (x.andThen f).final := by
  cases x with
  | ok v s => exact hf v s hx
  | raised s => exact hx

end Sys2Proof.Machine
end

