-- ==== Sys2Proof/Laws/Decode.lean ====
section
/-!
SUPPORT. The small lemmas of the opcode formats: a biased field gives its delta back, a big-endian word is the join of its bytes,
and the kind and the fields of each packed opcode.
-/
namespace Sys2Proof

/-- A delta in the field's range comes back (R80). -/
theorem unbias_biased {w bias : Nat} {d : Int} (h0 : 0 ≤ d + bias) (h1 : d + bias < 2 ^ w) :
    unbias bias (biased w bias d) = d := by
  unfold unbias biased
  have hm : (d + bias) % ((2 ^ w : Nat) : Int) = d + bias := Int.emod_eq_of_lt h0 (by exact_mod_cast h1)
  rw [BitVec.toNat_ofInt, hm, Int.toNat_of_nonneg h0]
  omega

/-- A field comes back from the delta it holds. -/
theorem biased_unbias {w : Nat} (bias : Nat) (f : BitVec w) : biased w bias (unbias bias f) = f := by
  unfold unbias biased
  simp

theorem join16 (v : U16) : v.extractLsb' 8 8 ++ v.extractLsb' 0 8 = v := by
  apply BitVec.eq_of_toNat_eq
  simp only [BitVec.toNat_append, BitVec.extractLsb'_toNat]
  have := v.isLt
  rw [← Nat.shiftLeft_add_eq_or_of_lt (by omega)]
  simp only [Nat.shiftLeft_eq, Nat.shiftRight_eq_div_pow]
  omega

theorem join24 (v : U24) : v.extractLsb' 16 8 ++ v.extractLsb' 8 8 ++ v.extractLsb' 0 8 = v := by
  apply BitVec.eq_of_toNat_eq
  simp only [BitVec.toNat_append, BitVec.extractLsb'_toNat]
  have := v.isLt
  rw [← Nat.shiftLeft_add_eq_or_of_lt (b := v.toNat >>> 8 % 2 ^ 8) (by omega),
    ← Nat.shiftLeft_add_eq_or_of_lt (by omega)]
  simp only [Nat.shiftLeft_eq, Nat.shiftRight_eq_div_pow]
  omega

theorem join32 (v : Word) :
    v.extractLsb' 24 8 ++ v.extractLsb' 16 8 ++ v.extractLsb' 8 8 ++ v.extractLsb' 0 8 = v := by
  apply BitVec.eq_of_toNat_eq
  simp only [BitVec.toNat_append, BitVec.extractLsb'_toNat]
  have := v.isLt
  rw [← Nat.shiftLeft_add_eq_or_of_lt (b := v.toNat >>> 16 % 2 ^ 8) (by omega),
    ← Nat.shiftLeft_add_eq_or_of_lt (b := v.toNat >>> 8 % 2 ^ 8) (by omega),
    ← Nat.shiftLeft_add_eq_or_of_lt (by omega)]
  simp only [Nat.shiftLeft_eq, Nat.shiftRight_eq_div_pow]
  omega

/-- The high part of a concatenation. -/
theorem extract_high {m n : Nat} (x : BitVec m) (y : BitVec n) : (x ++ y).extractLsb' n m = x := by
  apply BitVec.eq_of_getLsbD_eq
  intro i hi
  simp [BitVec.getLsbD_append, hi]

/-- The low part of a concatenation. -/
theorem extract_low {m n : Nat} (x : BitVec m) (y : BitVec n) : (x ++ y).extractLsb' 0 n = y := by
  apply BitVec.eq_of_getLsbD_eq
  intro i hi
  simp [BitVec.getLsbD_append, hi]

/-- A field inside the high part of a concatenation. -/
theorem extract_inside {m n k len : Nat} (x : BitVec m) (y : BitVec n) :
    (x ++ y).extractLsb' (n + k) len = x.extractLsb' k len := by
  apply BitVec.eq_of_getLsbD_eq
  intro i hi
  simp [BitVec.getLsbD_append, hi, Nat.add_assoc]

end Sys2Proof
end

