-- ==== Sys2Proof/Laws/Emit.lean ====
section
/-!
SUPPORT. What the pixel output can do: `emitPixel`, `emitRun` and `finishPixel`, with the bytes of `PIXOUT` they write, and that
`emitRun` is the repetition of `emitPixel`.
-/
namespace Sys2Proof.Machine

theorem pixelRunBytes_length (p : Pixel) (n : Nat) : (pixelRunBytes p n).length = 4 * n := by
  induction n with
  | zero => rfl
  | succ n ih => simp only [pixelRunBytes, List.length_cons, ih]; omega

theorem pixelRunBytes_getElem? (p : Pixel) {n k : Nat} (h : k < 4 * n) :
    (pixelRunBytes p n)[k]? = some (channelAt p (k % 4)) := by
  induction n generalizing k with
  | zero => omega
  | succ n ih =>
    match k, h with
    | 0, _ => rfl
    | 1, _ => rfl
    | 2, _ => rfl
    | 3, _ => rfl
    | k + 4, h =>
      have := ih (k := k) (by omega)
      simpa [pixelRunBytes, Nat.add_mod_right] using this

@[simp] theorem pixelRunBytes_one (p : Pixel) : pixelRunBytes p 1 = pixelBytes p := rfl

/-- A write of `n` copies of a pixel at a pixel's place reads back as OutputsPixels says. -/
theorem outputsPixels_put (p : Pixel) (n : Nat) (s : State) :
    OutputsPixels p n s
      { s with pixout := Cells.put s.pixout (4 * s.out) (pixelRunBytes p n), out := s.out + n } := by
  refine ⟨rfl, fun a => ?_⟩
  rw [Cells.get?_put, pixelRunBytes_length, ← Nat.mul_add]
  split
  · next h =>
    rw [pixelRunBytes_getElem? p (by omega)]
    congr 2; omega
  · rfl

/-- What `emitPixel` can do (R182): output one pixel, or raise OutOfBounds with nothing written. -/
theorem emitPixel_cases (p : Pixel) (s : State) :
    (s.out < s.pixelCount ∧
      emitPixel p s = .ok () { s with pixout := Cells.put s.pixout (4 * s.out) (pixelBytes p), out := s.out + 1 }) ∨
    (s.pixelCount ≤ s.out ∧ emitPixel p s = .raised (raise .outOfBounds s.out s)) := by
  unfold emitPixel
  rcases Nat.lt_or_ge s.out s.pixelCount with h | h
  · exact .inl ⟨h, if_neg (by omega)⟩
  · exact .inr ⟨h, if_pos h⟩

/-- What `emitRun` can do (R129, R135). -/
theorem emitRun_cases (p : Pixel) (n : Nat) (s : State) :
    (n ≤ s.pixelCount - s.out ∧
      emitRun p n s = .ok ()
        { s with pixout := Cells.put s.pixout (4 * s.out) (pixelRunBytes p n), out := s.out + n }) ∨
    (s.pixelCount - s.out < n ∧ emitRun p n s = .raised (raise .outOfBounds (max s.out s.pixelCount) s)) := by
  unfold emitRun
  rcases Nat.lt_or_ge (s.pixelCount - s.out) n with h | h
  · exact .inr ⟨h, if_pos h⟩
  · exact .inl ⟨h, if_neg (by omega)⟩

/-- What `finishPixel` can do (R154). -/
theorem finishPixel_cases (p : Pixel) (s : State) :
    (s.out < s.pixelCount ∧
      finishPixel p s = .ok ()
        { s with pixout := Cells.put s.pixout (4 * s.out) (pixelBytes p), out := s.out + 1, prev := p
                 cache := s.cache.set (pixelHash p) p }) ∨
    (s.pixelCount ≤ s.out ∧ finishPixel p s = .raised (raise .outOfBounds s.out s)) := by
  unfold finishPixel
  rcases emitPixel_cases p s with ⟨h, e⟩ | ⟨h, e⟩
  · exact .inl ⟨h, by rw [e]; rfl⟩
  · exact .inr ⟨h, by rw [e]; rfl⟩

/-- `emitRun` is the repetition of `emitPixel` (R129): one pixel, then the rest of the run. -/
theorem emitRun_succ {s : State} (h : s.mode = .dec) (p : Pixel) (n : Nat) :
    emitRun p (n + 1) s = (emitPixel p s).andThen fun _ t => emitRun p n t := by
  rcases emitPixel_cases p s with ⟨hlt, e⟩ | ⟨hge, e⟩
  · rw [e, Res.andThen_ok]
    unfold emitRun
    have hc : ∀ m : Memory, ({ s with pixout := m, out := s.out + 1 } : State).pixelCount = s.pixelCount := fun _ => rfl
    by_cases hroom : s.pixelCount - s.out < n + 1
    · rw [if_pos hroom, if_pos (by simp only [hc]; omega)]
      simp only [hc, Nat.max_eq_right (Nat.le_of_lt hlt), Nat.max_eq_right hlt]
      simp [raise, State.invalidateOutputs, State.freeNat, State.freeWord, State.freeByte, h]
    · rw [if_neg hroom, if_neg (by simp only [hc]; omega)]
      have hb : pixelRunBytes p (n + 1) = pixelBytes p ++ pixelRunBytes p n := rfl
      have hp := Cells.put_put s.pixout (4 * s.out) (pixelBytes p) (pixelRunBytes p n)
      have h4 : 4 * (s.out + 1) = 4 * s.out + (pixelBytes p).length := by simp [pixelBytes]; omega
      simp only [hb, h4, hp, Nat.add_assoc, Nat.add_comm 1 n]
  · rw [e, Res.andThen_raised]
    unfold emitRun
    rw [if_pos (by omega), Nat.max_eq_left hge]

/-- A run of no pixels does nothing. -/
theorem emitRun_zero {s : State} (h : s.pixout.wf) (p : Pixel) : emitRun p 0 s = .ok () s := by
  unfold emitRun
  rw [if_neg (by omega)]
  simp only [pixelRunBytes, Cells.put_nil s.pixout h, Nat.add_zero]

/-! ### The canonical form -/

theorem emitPixel_wf {s : State} (h : MemoriesWf s) (p : Pixel) : MemoriesWf (emitPixel p s).final := by
  rcases emitPixel_cases p s with ⟨_, e⟩ | ⟨_, e⟩ <;> rw [e]
  · exact ⟨h.1, h.2.1, Cells.put_wf h.2.2 _ _⟩
  · exact raise_wf h _ _

theorem emitRun_wf {s : State} (h : MemoriesWf s) (p : Pixel) (n : Nat) : MemoriesWf (emitRun p n s).final := by
  rcases emitRun_cases p n s with ⟨_, e⟩ | ⟨_, e⟩ <;> rw [e]
  · exact ⟨h.1, h.2.1, Cells.put_wf h.2.2 _ _⟩
  · exact raise_wf h _ _

theorem finishPixel_wf {s : State} (h : MemoriesWf s) (p : Pixel) : MemoriesWf (finishPixel p s).final := by
  rcases finishPixel_cases p s with ⟨_, e⟩ | ⟨_, e⟩ <;> rw [e]
  · exact ⟨h.1, h.2.1, Cells.put_wf h.2.2 _ _⟩
  · exact raise_wf h _ _

theorem putStream_wf {s t : State} (h : MemoriesWf s) {a : Nat} {bs : List Byte} (e : putStream a bs s = .next t) :
    MemoriesWf t := by
  unfold putStream at e
  split at e
  · cases e
  · split at e
    · cases e
    · cases e
      exact ⟨Cells.put_wf h.1 _ _, h.2.1, h.2.2⟩

theorem putPixin_wf {s t : State} (h : MemoriesWf s) {i : Nat} {ws : List Word} (e : putPixin i ws s = .next t) :
    MemoriesWf t := by
  unfold putPixin at e
  split at e
  · cases e
  · cases e
    exact ⟨h.1, Cells.put_wf h.2.1 _ _, h.2.2⟩

theorem powerOnReset_wf (s : State) : MemoriesWf (powerOnReset s) :=
  ⟨List.Pairwise.nil, List.Pairwise.nil, List.Pairwise.nil⟩

theorem reset_wf : MemoriesWf State.reset :=
  ⟨List.Pairwise.nil, List.Pairwise.nil, List.Pairwise.nil⟩

end Sys2Proof.Machine
end

