-- ==== Sys2Proof/Laws/Encode.lean ====
section
/-!
SUPPORT. What the encoder's run flush can do, as one cursor write of an opcode's bytes (R123 to R127), and when the whole encode
gives a stream.
-/
namespace Sys2Proof.Machine

/-- A cursor write that fits, in the terms of claims. -/
theorem appendsBytes_put (bs : List Byte) (s : State) :
    AppendsBytes bs s { s with stream := Cells.put s.stream s.pos bs, pos := s.pos + bs.length } :=
  ⟨rfl, fun a => Cells.get?_put s.stream s.pos bs a⟩

/-- The run opcode is written with one access, whichever it is (R126, R127). -/
theorem flushRun_eq (n : Nat) (s : State) : flushRun n s = cursorWrite (encode (runOpcode n)) s := by
  unfold flushRun runOpcode
  split <;> rfl

/-- R123, R125: nothing without a pending run, else one write of its opcode and `run` cleared. -/
theorem flushPending_eq (s : State) :
    flushPending s =
      if s.run = 0 then .ok () s
      else (cursorWrite (pendingBytes s.run) s).andThen fun _ t => .ok () { t with run := 0 } := by
  unfold flushPending pendingBytes
  by_cases h : s.run = 0
  · simp [h]
  · simp [h, flushRun_eq, Nat.pos_of_ne_zero h]

/-- R128: a pending run costs at most two bytes. -/
theorem pendingBytes_length (run : Nat) : (pendingBytes run).length = flushCost run := by
  unfold pendingBytes flushCost runOpcode
  split
  · rfl
  · split <;> rfl

/-- R172 gives a stream exactly when the channel count is accepted and the image encodes. -/
theorem encodeAll_eq_ok {m : Magic} {w h : Word} {c cs : Byte} {pixels : List Pixel} {bytes : List Byte} :
    encodeAll m w h c cs pixels = .ok bytes ↔ (c = 3 ∨ c = 4) ∧ encodeImage m w h c cs pixels = .ok bytes := by
  unfold encodeAll
  by_cases hc : c ≠ 3 ∧ c ≠ 4
  · rw [if_pos hc]
    exact ⟨fun e => (by cases e), fun e => absurd e.1 (not_or.mpr hc)⟩
  · rw [if_neg hc, and_iff_right (by by_contra h; exact hc (not_or.mp h))]
    cases encodeImage m w h c cs pixels <;> simp [Except.mapError]

end Sys2Proof.Machine
end

