-- ==== Sys2Proof/Laws/PerInstr.lean ====
section
/-!
SUPPORT. One lemma per constructor: the encoder writes as many bytes as the instruction's length says (R70, R72).
-/
namespace Sys2Proof.Laws.EncodedLength

/-- The family's statement about one instruction. -/
def Statement (i : Instr) : Prop := (encode i).length = i.length

theorem index (i : Slot) : Statement (.index i) := rfl

theorem run8 (len : Nat) : Statement (.run8 len) := rfl

theorem run16 (len : Nat) : Statement (.run16 len) := rfl

theorem diff8 (dr dg db : Int) : Statement (.diff8 dr dg db) := rfl

theorem diff16 (dr dg db : Int) : Statement (.diff16 dr dg db) := rfl

theorem diff24 (dr dg db da : Int) : Statement (.diff24 dr dg db da) := rfl

theorem color (r g b a : Option Byte) : Statement (.color r g b a) := by
  cases r <;> cases g <;> cases b <;> cases a <;> rfl

end Sys2Proof.Laws.EncodedLength
end

