-- ==== Sys2Proof/Laws/Step.lean ====
section
/-!
SUPPORT. Who moves in a step, read off the head of the schedule.
-/
namespace Sys2Proof.Machine

@[simp] theorem step_hostMove (s : State) (e : HostEvent) (rest : List (Option HostEvent)) :
    step { s with host := some e :: rest } = hostMove e { s with host := rest } := rfl

@[simp] theorem step_turn (s : State) (rest : List (Option HostEvent)) :
    step { s with host := none :: rest } = seqStep { s with host := rest } := rfl

theorem step_of_idle_host {s : State} (h : s.host = []) : step s = seqStep s := by
  unfold step
  rw [h]

end Sys2Proof.Machine
end

