-- ==== Sys2Proof/Tests/Slice0.lean ====
section
/-!
SUPPORT. The model's own tests. Expected values are those of spec/95_test_vectors.md or of the examples inside the rules named;
each `witness_` theorem shows concrete states that meet the hypotheses of the obligation of that name.
-/
namespace Sys2Proof.Tests

open Sys2Proof.Machine

/-! ### Small states -/

/-- What a test reads from the state after a step. -/
def look {α : Type} (o : Host.Outcome State Fault Refusal) (f : State → α) : Option α :=
  match o with
  | .next t => some (f t)
  | .fault _ => none
  | .refused _ => none

/-- The refusal a step ends in. -/
def refusal (o : Host.Outcome State Fault Refusal) : Option Refusal :=
  match o with
  | .next _ => none
  | .fault _ => none
  | .refused r => some r

/-- `HDR(w,1)` with a given channel count and `cspace` 0, for a width below 256. -/
def hdr (w channels : Byte) : List Byte := [0x71, 0x6F, 0x69, 0x66, 0, 0, 0, w, 0, 0, 0, 1, channels, 0]

/-- A decode of a `w` by 1 image at its entry point: `code` stands before the trailer. -/
def dec (w : Byte) (prev : Pixel) (code : List Byte) : State :=
  { State.reset.atEntry with
    stream := Cells.block 0 (hdr w 4 ++ code ++ [0, 0, 0, 0]), lim := 14 + code.length + 4
    width := w.setWidth 32, prev := prev }

/-- An encode of a `w` by 1 image with four channels, at its first pixel. -/
def enc (w : Byte) (prev : Pixel) (pixels : List Pixel) : State :=
  { State.reset.atEntry with
    mode := .enc, stream := Cells.block 0 (hdr w 4), pixin := Cells.block 0 (pixels.map pack)
    width := w.setWidth 32, npix := w.toNat, lim := 5 * w.toNat + 18, prev := prev }

/-- An idle context whose `STREAM` holds bytes. -/
def loaded (bytes : List Byte) : State := { State.reset with stream := Cells.block 0 bytes }

/-- The bytes an encode has written behind the header. -/
def written (t : State) : List Nat := (t.stream.drop 14).map fun c => c.2.toNat

def opaqueBlack : Pixel := ⟨0, 0, 0, 255⟩
def gray : Pixel := ⟨100, 100, 100, 100⟩

/-! ### WellFormed refuses each ill-formed term -/

theorem test_wf_run8_low : (Instr.run8 0).wf = false := by decide
theorem test_wf_run8_high : (Instr.run8 33).wf = false := by decide
theorem test_wf_run16_low : (Instr.run16 32).wf = false := by decide
theorem test_wf_run16_high : (Instr.run16 8225).wf = false := by decide
theorem test_wf_diff8 :
    (Instr.diff8 (-3) 0 0).wf = false ∧ (Instr.diff8 2 0 0).wf = false ∧ (Instr.diff8 0 (-3) 0).wf = false ∧
    (Instr.diff8 0 2 0).wf = false ∧ (Instr.diff8 0 0 (-3)).wf = false ∧ (Instr.diff8 0 0 2).wf = false := by decide
theorem test_wf_diff16 :
    (Instr.diff16 (-17) 0 0).wf = false ∧ (Instr.diff16 16 0 0).wf = false ∧ (Instr.diff16 0 (-9) 0).wf = false ∧
    (Instr.diff16 0 8 0).wf = false ∧ (Instr.diff16 0 0 (-9)).wf = false ∧ (Instr.diff16 0 0 8).wf = false := by decide
theorem test_wf_diff24 :
    (Instr.diff24 (-17) 0 0 0).wf = false ∧ (Instr.diff24 16 0 0 0).wf = false ∧
    (Instr.diff24 0 (-17) 0 0).wf = false ∧ (Instr.diff24 0 16 0 0).wf = false ∧
    (Instr.diff24 0 0 (-17) 0).wf = false ∧ (Instr.diff24 0 0 16 0).wf = false ∧
    (Instr.diff24 0 0 0 (-17)).wf = false ∧ (Instr.diff24 0 0 0 16).wf = false := by decide

/-! ### One written-out word for each opcode (R73 to R79) -/

theorem test_decode_index : decode [0b00111010] = .ok (.index 58, []) := by decide
theorem test_decode_run8 : decode [0b01011111, 0xAA] = .ok (.run8 32, [0xAA]) := by decide
theorem test_decode_run16 : decode [0b01111111, 0b11111111] = .ok (.run16 8224, []) := by decide
theorem test_decode_diff8 : decode [0b10110110] = .ok (.diff8 1 (-1) 0, []) := by decide
theorem test_decode_diff16 : decode [0b11010000, 0b01011000] = .ok (.diff16 0 (-3) 0, []) := by decide
theorem test_decode_diff24 : decode [0b11101000, 0b00011110, 0b00010000] = .ok (.diff24 0 (-9) 0 0, []) := by decide
theorem test_decode_color : decode [0b11111001, 1, 0] = .ok (.color (some 1) none none (some 0), []) := by decide
theorem test_decode_color_empty : decode [0b11110000, 7] = .ok (.color none none none none, [7]) := by decide
theorem test_decode_missing : decode [0b11100000, 0] = .error (.missingContinuation .diff24 2 1) := by decide

theorem test_encode_run16 : encode (.run16 289) = [0x61, 0x00] := by decide
theorem test_encode_diff24 : encode (.diff24 10 10 10 0) = [0xED, 0x6B, 0x50] := by decide
theorem test_encode_color : encode (.color (some 200) none none none) = [0xF8, 0xC8] := by decide

/-- The opcode table's numbering: the second byte of `60 06` is bits 15..8. -/
theorem test_table_word : decodeTableWord 16 0x0660 = some (.run16 39) := by decide

/-- The table gives COLOR's first byte only; its literals are zeros. -/
theorem test_table_word_color : decodeTableWord 8 0xFF = some (.color (some 0) (some 0) (some 0) (some 0)) := by decide

/-! ### The opcodes, one step each (2.2, 2.3, 2.5 of the vectors, P4 and P5) -/

/-- The observations of a decode step: `pos`, `out`, `prev` and the bytes of `PIXOUT`. -/
def seen (t : State) : Nat × Nat × Pixel × List Nat := (t.pos, t.out, t.prev, t.pixout.map fun c => c.2.toNat)

theorem test_index :
    look (step { dec 1 opaqueBlack [0x3A] with cache := cacheInit.set 58 ⟨5, 5, 5, 255⟩ }) seen =
      some (15, 1, ⟨5, 5, 5, 255⟩, [5, 5, 5, 255]) := by decide

theorem test_index_unwritten_slot :
    look (step (dec 1 opaqueBlack [0x05])) (fun t => (t.prev, t.cache.toList.all (· = ⟨0, 0, 0, 0⟩))) =
      some (⟨0, 0, 0, 0⟩, true) := by decide

theorem test_run8 :
    look (step (dec 2 opaqueBlack [0x41])) seen =
      some (15, 2, opaqueBlack, [0, 0, 0, 255, 0, 0, 0, 255]) := by decide

theorem test_run8_overrun :
    look (step (dec 1 opaqueBlack [0x41])) (fun t => (t.mode, t.fault)) = some (.fault, ⟨1, 1⟩) := by decide

theorem test_run16 :
    look (step (dec 40 ⟨5, 5, 5, 255⟩ [0x60, 0x06])) (fun t => (t.pos, t.out, t.prev)) =
      some (16, 39, ⟨5, 5, 5, 255⟩) := by decide +kernel

theorem test_run16_truncated :
    look (step (dec 1 opaqueBlack [0x60])) (fun t => (t.mode, t.fault)) = some (.fault, ⟨3, 14⟩) := by decide

theorem test_diff8 :
    look (step (dec 1 ⟨10, 10, 10, 255⟩ [0xB6])) (fun t => (t.pos, t.prev, t.cache[55])) =
      some (15, ⟨11, 9, 10, 255⟩, ⟨11, 9, 10, 255⟩) := by decide

theorem test_diff8_wraps :
    look (step (dec 1 opaqueBlack [0x80])) (fun t => (t.prev, t.cache[1])) =
      some (⟨254, 254, 254, 255⟩, ⟨254, 254, 254, 255⟩) := by decide

theorem test_diff16 :
    look (step (dec 1 opaqueBlack [0xD5, 0xDD])) (fun t => (t.pos, t.prev, t.cache[58])) =
      some (16, ⟨5, 5, 5, 255⟩, ⟨5, 5, 5, 255⟩) := by decide

theorem test_diff16_lowest :
    look (step (dec 2 opaqueBlack [0xC0, 0x00])) (fun t => (t.pos, t.prev)) =
      some (16, ⟨240, 248, 248, 255⟩) := by decide

theorem test_diff24 :
    look (step (dec 1 opaqueBlack [0xE8, 0x6A, 0x10])) (fun t => (t.pos, t.prev, t.cache[53])) =
      some (17, ⟨0, 10, 0, 255⟩, ⟨0, 10, 0, 255⟩) := by decide

theorem test_diff24_wraps :
    look (step (dec 1 ⟨1, 1, 1, 0⟩ [0xE0, 0x00, 0x00])) (fun t => (t.pos, t.prev)) =
      some (17, ⟨241, 241, 241, 240⟩) := by decide

theorem test_color :
    look (step (dec 1 ⟨0, 0, 0, 0⟩ [0xFC, 0xFF, 0xFF])) (fun t => (t.pos, t.prev, t.cache[0])) =
      some (17, ⟨255, 255, 0, 0⟩, ⟨255, 255, 0, 0⟩) := by decide

theorem test_color_all :
    look (step (dec 1 opaqueBlack [0xFF, 1, 2, 3, 4])) (fun t => (t.pos, t.prev, t.cache[4])) =
      some (19, ⟨1, 2, 3, 4⟩, ⟨1, 2, 3, 4⟩) := by decide

/-- P5 (b): one pixel too many. -/
theorem test_pixel_overrun :
    look (step { dec 2 opaqueBlack [0x40] with out := 2 }) (fun t => (t.mode, t.fault)) = some (.fault, ⟨1, 2⟩) := by
  decide

/-- P5 (c): one pixel too few. -/
theorem test_too_few_pixels :
    look (step { dec 2 opaqueBlack [] with out := 1 }) (fun t => (t.mode, t.fault)) = some (.fault, ⟨5, 1⟩) := by decide

/-! ### The cursor (2.1 of the vectors) -/

/-- `STREAM = 12 34 56 78`, `lim = 4`. -/
def four (pos : Nat) : State := { loaded [0x12, 0x34, 0x56, 0x78] with pos := pos, lim := 4, mode := .dec }

theorem test_readU32 : look (.next (readU32 (four 0)).final) (·.pos) = some 4 := by decide
theorem test_readU24 : (match readU24 (four 1) with | .ok v t => (v, t.pos) | .raised t => (0, t.pos)) = (0x345678, 4) := by
  decide
theorem test_readU16 : (match readU16 (four 2) with | .ok v t => (v, t.pos) | .raised t => (0, t.pos)) = (0x5678, 4) := by
  decide
theorem test_readU24_short :
    ((readU24 (four 2)).final.pos, (readU24 (four 2)).final.fault) = (2, ⟨1, 2⟩) := by decide
theorem test_writeU24 :
    (writeU24 0xABCDEF { State.reset with lim := 3, mode := .enc }).final.stream = [(0, 0xAB), (1, 0xCD), (2, 0xEF)] := by
  decide
theorem test_writeU16_short :
    ((writeU16 0x1234 { State.reset with lim := 3, pos := 2, mode := .enc }).final.pos,
      (writeU16 0x1234 { State.reset with lim := 3, pos := 2, mode := .enc }).final.fault) = (2, ⟨4, 2⟩) := by decide
theorem test_writeU32 :
    (writeU32 40 { State.reset with lim := 4, mode := .enc }).final.stream = [(0, 0), (1, 0), (2, 0), (3, 0x28)] := by
  decide

/-! ### The cache (2.2) -/

theorem test_hash : pixelHash ⟨11, 9, 10, 250⟩ = 50 ∧ pixelHash ⟨64, 0, 0, 0⟩ = 0 ∧ pixelHash ⟨200, 9, 10, 250⟩ = 49 := by
  decide

/-! ### The encoder (1.3 to 1.8, 2.3, 2.4, 2.6) -/

theorem test_flush_32 : (flushRun 32 (enc 100 opaqueBlack [])).final.stream.drop 14 = [(14, 0x5F)] := by decide
theorem test_flush_33 : (flushRun 33 (enc 100 opaqueBlack [])).final.stream.drop 14 = [(14, 0x60), (15, 0x00)] := by decide
theorem test_flush_8223 : (flushRun 8223 (enc 100 opaqueBlack [])).final.stream.drop 14 = [(14, 0x7F), (15, 0xFE)] := by
  decide

theorem test_enc_index :
    look (step (enc 1 opaqueBlack [⟨0, 0, 0, 0⟩])) (fun t => (written t, t.prev)) = some ([0x00], ⟨0, 0, 0, 0⟩) := by decide

theorem test_enc_run_then_index :
    look (step { enc 1 ⟨10, 10, 10, 255⟩ [⟨11, 9, 10, 255⟩] with run := 2, cache := cacheInit.set 55 ⟨11, 9, 10, 255⟩ })
      (fun t => (written t, t.run)) = some ([0x41, 0x37], 0) := by decide

theorem test_enc_forced_split :
    look (step { enc 1 opaqueBlack [opaqueBlack] with run := 8223 }) (fun t => (written t, t.run, t.idx)) =
      some ([0x7F, 0xFF], 0, 1) := by decide

theorem test_enc_diff8 : look (step (enc 1 gray [⟨101, 99, 100, 100⟩])) written = some [0xB6] := by decide
theorem test_enc_diff16 : look (step (enc 1 gray [⟨97, 100, 100, 100⟩])) written = some [0xCD, 0x88] := by decide
theorem test_enc_diff16_blue : look (step (enc 1 gray [⟨100, 100, 102, 100⟩])) written = some [0xD0, 0x8A] := by decide
theorem test_enc_diff24_green : look (step (enc 1 gray [⟨100, 108, 100, 100⟩])) written = some [0xE8, 0x62, 0x10] := by
  decide
theorem test_enc_diff24_alpha : look (step (enc 1 gray [⟨100, 100, 100, 99⟩])) written = some [0xE8, 0x42, 0x0F] := by
  decide
theorem test_enc_color_high : look (step (enc 1 gray [⟨116, 100, 100, 100⟩])) written = some [0xF8, 0x74] := by decide
theorem test_enc_color_zero_literal :
    look (step (enc 1 ⟨200, 100, 50, 255⟩ [⟨0, 100, 50, 255⟩])) written = some [0xF8, 0x00] := by decide

/-- R140: priority, not size. -/
theorem test_enc_priority :
    look (step (enc 1 opaqueBlack [⟨0, 10, 0, 255⟩])) (fun t => (written t, t.cache[53])) =
      some ([0xE8, 0x6A, 0x10], ⟨0, 10, 0, 255⟩) := by decide

/-- R175's example: the trailer does not fit. -/
theorem test_enc_overflow :
    look (step { enc 0 opaqueBlack [] with pos := 19, lim := 22 }) (fun t => (t.mode, t.fault)) = some (.fault, ⟨4, 19⟩) := by
  decide

theorem test_enc_finish :
    look (step (enc 0 opaqueBlack [])) (fun t => (t.mode, t.outLen, written t)) = some (.done, 18, [0, 0, 0, 0]) := by decide

theorem test_startEnc :
    look (startEnc 1 1 3 7 1 State.reset) (fun t => (t.mode, t.lim, t.pos, t.prev, t.stream.map fun c => c.2)) =
      some (.enc, 22, 14, opaqueBlack, [0x71, 0x6F, 0x69, 0x66, 0, 0, 0, 1, 0, 0, 0, 1, 3, 7]) := by decide

theorem test_startEnc_mismatch :
    look (startEnc 2 2 4 0 3 State.reset) (fun t => (t.mode, t.fault)) = some (.fault, ⟨5, 3⟩) := by decide

theorem test_startEnc_refused : refusal (startEnc 1 1 5 0 1 State.reset) = some .channelsNotThreeOrFour := by decide

/-! ### START_DEC (2.7) -/

theorem test_startDec_short :
    look (startDec 13 (loaded ((hdr 1 4).take 13))) (fun t => (t.mode, t.fault)) = some (.fault, ⟨1, 0⟩) := by decide

theorem test_startDec_magic :
    look (startDec 18 (loaded ([0x71, 0x6F, 0x69, 0x46] ++ (hdr 1 4).drop 4 ++ [0, 0, 0, 0]))) (fun t => (t.mode, t.fault)) =
      some (.fault, ⟨2, 0⟩) := by decide

theorem test_startDec_size :
    look (startDec 18 (loaded
      [0x71, 0x6F, 0x69, 0x66, 0xFF, 0xFF, 0xFF, 0xFF, 0xFF, 0xFF, 0xFF, 0xFF, 4, 0, 0, 0, 0, 0]))
      (fun t => (t.mode, t.fault)) = some (.fault, ⟨5, 73786976260478468100⟩) := by decide

theorem test_startDec :
    look (startDec 19 (loaded (hdr 2 3 ++ [0x41, 0, 0, 0, 0])))
      (fun t => (t.mode, t.width, t.height, t.channels, t.pos, t.prev)) = some (.dec, 2, 1, 3, 14, opaqueBlack) := by decide

/-- R185: a header without a whole trailer and an empty image. -/
theorem test_short_trailer :
    look (step { dec 0 opaqueBlack [] with lim := 15 }) (·.mode) = some .done := by decide

/-! ### The host's entry points -/

/-- `withFetchWord` on the reset state runs DIFF16 `C0 00` as the first instruction. -/
theorem test_withFetchWord :
    look (step (State.reset.withFetchWord 16 0x00C0)) (fun t => (t.mode, t.prev, t.pos)) =
      some (.dec, ⟨240, 248, 248, 255⟩, 16) := by decide

/-- The same for COLOR with four flags, whose literals are zeros. -/
theorem test_withFetchWord_color :
    look (step (State.reset.withFetchWord 8 0xFF)) (fun t => (t.mode, t.prev, t.pos)) =
      some (.dec, ⟨0, 0, 0, 0⟩, 19) := by decide

/-- A host schedule that fills `STREAM` and starts a decode: after two steps the decode stands at its entry point. -/
theorem test_host_schedule :
    look (Sys2Proof.core.run 2
      { State.reset with
        host := [some (.putStream 0 (hdr 2 4 ++ [0x41, 0, 0, 0, 0])), some (.startDec 19)] })
      (fun t => (t.mode, t.width, t.pos)) = some (.dec, 2, 14) := by decide

/-! ### Witnesses: encoding -/

theorem look_next {α : Type} {o : Host.Outcome State Fault Refusal} {f : State → α} {v : α} (h : look o f = some v) :
    ∃ t, o = .next t ∧ f t = v := by
  cases o with
  | next t => exact ⟨t, rfl, Option.some.inj h⟩
  | fault r => cases h
  | refused r => cases h

theorem witness_LengthFromFirstByte :
    kind 0x00 = .index ∧ kind 0x3F = .index ∧ kind 0x40 = .run8 ∧ kind 0x5F = .run8 ∧ kind 0x80 = .diff8 ∧
    kind 0xBF = .diff8 ∧ kind 0x60 = .run16 ∧ kind 0x7F = .run16 ∧ kind 0xC0 = .diff16 ∧ kind 0xDF = .diff16 ∧
    kind 0xE0 = .diff24 ∧ kind 0xEF = .diff24 ∧ kind 0xF0 = .color ∧ kind 0xFF = .color := by decide

theorem witness_FirstByteMapGivesFields :
    (0x3F : Byte).toNat ≤ 0x3F ∧ (0x40 ≤ (0x40 : Byte).toNat ∧ (0x5F : Byte).toNat ≤ 0x5F) ∧
    (0x60 ≤ (0x60 : Byte).toNat ∧ (0x7F : Byte).toNat ≤ 0x7F) ∧ (0x80 ≤ (0x80 : Byte).toNat ∧ (0xBF : Byte).toNat ≤ 0xBF) ∧
    (0xC0 ≤ (0xC0 : Byte).toNat ∧ (0xDF : Byte).toNat ≤ 0xDF) ∧ (0xE0 ≤ (0xE0 : Byte).toNat ∧ (0xEF : Byte).toNat ≤ 0xEF) ∧
    (0xF0 ≤ (0xF0 : Byte).toNat ∧ ([] : List Byte).length = ncont 0xF0) ∧
    (0xF0 ≤ (0xFF : Byte).toNat ∧ ([1, 2, 3, 4] : List Byte).length = ncont 0xFF) := by decide

theorem witness_EncodeThenDecode :
    (Instr.index 0).wf = true ∧ (Instr.index 63).wf = true ∧ (Instr.run8 1).wf = true ∧ (Instr.run8 32).wf = true ∧
    (Instr.run16 33).wf = true ∧ (Instr.run16 8224).wf = true ∧ (Instr.diff8 (-2) 1 (-2)).wf = true ∧
    (Instr.diff16 (-16) 7 (-8)).wf = true ∧ (Instr.diff24 (-16) 15 (-16) 15).wf = true ∧
    (Instr.color none (some 0) none (some 255)).wf = true := by decide

theorem witness_DecodeThenEncode : decode [0x7F, 0xFF, 0x01] = .ok (.run16 8224, [0x01]) := by decide

/-! ### Witnesses: the opcodes -/

/-- One pixel has room. -/
def room : State := dec 1 opaqueBlack [0x05]

/-- No pixel has room. -/
def full : State := { room with out := 1 }

theorem witness_IndexOutputsCacheSlot :
    kind 0x00 = .index ∧ kind 0x3F = .index ∧ room.out < room.pixelCount ∧ full.pixelCount ≤ full.out := by decide
theorem witness_Diff8AddsDeltas : room.out < room.pixelCount ∧ full.pixelCount ≤ full.out := by decide
theorem witness_Diff16AddsDeltas : room.out < room.pixelCount ∧ full.pixelCount ≤ full.out := by decide
theorem witness_Diff24AddsDeltas : room.out < room.pixelCount ∧ full.pixelCount ≤ full.out := by decide
theorem witness_ColorTakesLiterals : room.out < room.pixelCount ∧ full.pixelCount ≤ full.out := by decide
theorem witness_DeltaOpcodeGivesPixelBack : room.out < room.pixelCount := by decide

theorem witness_Run8RepeatsPrev :
    kind 0x40 = .run8 ∧ kind 0x5F = .run8 ∧ (1 ≤ 1 ∧ room.out + 1 ≤ room.pixelCount) ∧ (1 ≤ 2 ∧ room.pixelCount < room.out + 2) := by decide
theorem witness_Run16RepeatsPrev :
    kind 0x60 = .run16 ∧ kind 0x7F = .run16 ∧ (1 ≤ 33 ∧ (dec 33 opaqueBlack []).out + 33 ≤ (dec 33 opaqueBlack []).pixelCount) ∧
    (1 ≤ 34 ∧ (dec 33 opaqueBlack []).pixelCount < (dec 33 opaqueBlack []).out + 34) := by decide

/-! ### Witnesses: the decode sequence -/

/-- A decode at a DIFF16 that ends right before the trailer. -/
def lastDiff16 : State := dec 1 opaqueBlack [0xD5, 0xDD]

/-- A decode at a RUN16 whose second byte would lie in the trailer. -/
def cutRun16 : State := dec 1 opaqueBlack [0x60]

theorem witness_StepRunsDecodedInstruction :
    lastDiff16.host = [] ∧ lastDiff16.mode = .dec ∧ lastDiff16.pos + 4 < lastDiff16.lim ∧
    lastDiff16.pos + oplen (lastDiff16.streamByte lastDiff16.pos) + 4 ≤ lastDiff16.lim ∧
    [0xDD] = (List.range (ncont (lastDiff16.streamByte lastDiff16.pos))).map
      (fun k => lastDiff16.streamByte (lastDiff16.pos + 1 + k)) ∧
    decode (lastDiff16.streamByte lastDiff16.pos :: [0xDD]) = .ok (.diff16 5 5 5, []) := by decide

theorem witness_TruncatedStreamTaken :
    (cutRun16.host = [] ∧ cutRun16.mode = .dec ∧ cutRun16.pos + 4 < cutRun16.lim ∧
      cutRun16.lim < cutRun16.pos + oplen (cutRun16.streamByte cutRun16.pos) + 4) ∧
    (lastDiff16.host = [] ∧ lastDiff16.mode = .dec ∧ lastDiff16.pos + 4 < lastDiff16.lim ∧
      lastDiff16.pos + oplen (lastDiff16.streamByte lastDiff16.pos) + 4 ≤ lastDiff16.lim) := by decide

theorem witness_DecodeStepAdvances :
    lastDiff16.host = [] ∧ lastDiff16.mode = .dec ∧ lastDiff16.pos + 4 < lastDiff16.lim ∧
    ∃ t, step lastDiff16 = .next t ∧ t.mode = .dec := ⟨rfl, rfl, by decide, look_next (by decide)⟩

/-- A decode of two pixels at its finish. -/
def atFinish (out : Nat) : State := { dec 2 opaqueBlack [] with out := out }

theorem witness_DecodeFinishChecksPixelCount :
    ((atFinish 2).host = [] ∧ (atFinish 2).mode = .dec ∧ (atFinish 2).lim ≤ (atFinish 2).pos + 4 ∧
      (atFinish 2).out = (atFinish 2).pixelCount) ∧
    ((atFinish 1).lim ≤ (atFinish 1).pos + 4 ∧ (atFinish 1).out ≠ (atFinish 1).pixelCount) := by decide

theorem witness_DecodeAlwaysEnds : cutRun16.host = [] ∧ cutRun16.mode = .dec := by decide

/-- An idle context with given maxima whose `STREAM` holds bytes. -/
def bounded (pixbufMax streamMax : Nat) (bytes : List Byte) : State :=
  { loaded bytes with
    params := { magic := Config.defaultMagic, pixbufMax := pixbufMax, streamMax := streamMax } }

/-- Four commands, each with one reason to stop: 13 bytes; a wrong magic; one pixel with room for three bytes; a length of
`STREAM_MAX` + 1. -/
theorem witness_StartDecReportsInOrder :
    ((loaded ((hdr 1 4).take 13)).mode ≠ .enc ∧ (loaded ((hdr 1 4).take 13)).mode ≠ .dec ∧
      13 ≤ (loaded ((hdr 1 4).take 13)).params.streamMax ∧
      (∀ k, k < 14 → k < 13 → Cells.get? (loaded ((hdr 1 4).take 13)).stream k = some ((hdr 1 4).getD k 0)) ∧ 13 < 14) ∧
    ((∀ k, k < 14 → k < 14 → Cells.get? (loaded (0 :: (hdr 1 4).drop 1)).stream k = some ((0 :: (hdr 1 4).drop 1).getD k 0)) ∧
      14 ≤ 14 ∧ (0x00 : Byte) ++ (0x6F : Byte) ++ (0x69 : Byte) ++ (0x66 : Byte) ≠ (loaded (0 :: (hdr 1 4).drop 1)).params.magic.word) ∧
    ((∀ k, k < 14 → k < 14 → Cells.get? (bounded 3 14 (hdr 1 4)).stream k = some ((hdr 1 4).getD k 0)) ∧
      14 ≤ (bounded 3 14 (hdr 1 4)).params.streamMax ∧
      ((0x71 : Byte) ++ (0x6F : Byte) ++ (0x69 : Byte) ++ (0x66 : Byte)) = (bounded 3 14 (hdr 1 4)).params.magic.word ∧
      (bounded 3 14 (hdr 1 4)).params.pixbufMax < 4 * (1 * 1)) ∧
    ((bounded 3 14 (hdr 1 4)).mode ≠ .enc ∧ (bounded 3 14 (hdr 1 4)).mode ≠ .dec ∧
      (bounded 3 14 (hdr 1 4)).params.streamMax < 14 + 1) := by decide

theorem witness_StartDecOpensDecode :
    (bounded 4 14 (hdr 1 4)).mode ≠ .enc ∧ (bounded 4 14 (hdr 1 4)).mode ≠ .dec ∧
    14 ≤ (bounded 4 14 (hdr 1 4)).params.streamMax ∧ 14 ≤ 14 ∧
    (∀ k, k < 14 → Cells.get? (bounded 4 14 (hdr 1 4)).stream k = some ((hdr 1 4).getD k 0)) ∧
    (hdr 1 4).getD 0 0 ++ (hdr 1 4).getD 1 0 ++ (hdr 1 4).getD 2 0 ++ (hdr 1 4).getD 3 0 =
      (bounded 4 14 (hdr 1 4)).params.magic.word ∧
    4 * (((hdr 1 4).getD 4 0 ++ (hdr 1 4).getD 5 0 ++ (hdr 1 4).getD 6 0 ++ (hdr 1 4).getD 7 0).toNat *
      ((hdr 1 4).getD 8 0 ++ (hdr 1 4).getD 9 0 ++ (hdr 1 4).getD 10 0 ++ (hdr 1 4).getD 11 0).toNat) ≤
      (bounded 4 14 (hdr 1 4)).params.pixbufMax := by decide

/-! ### Witnesses: the encode sequence -/

theorem witness_StartEncChecksInOrder :
    (State.reset.mode ≠ .enc ∧ State.reset.mode ≠ .dec) ∧ ((2 : Byte) ≠ 3 ∧ (2 : Byte) ≠ 4) ∧
    (((3 : Byte) = 3 ∨ (3 : Byte) = 4) ∧ 3 ≠ (2 : Word).toNat * (2 : Word).toNat) ∧
    (((4 : Byte) = 3 ∨ (4 : Byte) = 4) ∧ 1 = (1 : Word).toNat * (1 : Word).toNat ∧
      (bounded 4 22 []).params.streamMax < (1 : Word).toNat * (1 : Word).toNat * ((4 : Byte).toNat + 1) + 18) := by decide

theorem witness_StartEncOpensEncode :
    (bounded 4 23 []).mode ≠ .enc ∧ (bounded 4 23 []).mode ≠ .dec ∧ ((4 : Byte) = 3 ∨ (4 : Byte) = 4) ∧
    1 = (1 : Word).toNat * (1 : Word).toNat ∧
    (1 : Word).toNat * (1 : Word).toNat * ((4 : Byte).toNat + 1) + 18 ≤ (bounded 4 23 []).params.streamMax := by decide

/-- An encode at a pixel equal to `prev`, with a run pending. -/
def repeating (run : Nat) : State := { enc 1 opaqueBlack [opaqueBlack] with run := run, lim := 16 }

theorem witness_RunPixelOnlyCounts :
    (repeating 8222).host = [] ∧ (repeating 8222).mode = .enc ∧ (repeating 8222).idx < (repeating 8222).npix ∧
    Cells.get? (repeating 8222).pixin (repeating 8222).idx = some (pack (repeating 8222).prev) ∧
    (repeating 8222).run + 1 ≠ 8224 := by decide

theorem witness_ForcedSplitAt8224 :
    (repeating 8223).host = [] ∧ (repeating 8223).mode = .enc ∧ (repeating 8223).idx < (repeating 8223).npix ∧
    Cells.get? (repeating 8223).pixin (repeating 8223).idx = some (pack (repeating 8223).prev) ∧
    (repeating 8223).run + 1 = 8224 ∧ (repeating 8223).pos + 2 ≤ (repeating 8223).lim ∧
    ({ repeating 8223 with lim := 15 } : State).lim < ({ repeating 8223 with lim := 15 } : State).pos + 2 := by decide

/-- An encode at a pixel that breaks a run of 33 and needs a five-byte COLOR: seven bytes in all (R168). -/
def breaking (lim : Nat) : State := { enc 1 opaqueBlack [⟨20, 30, 40, 50⟩] with run := 33, lim := lim }

theorem witness_PixelWritesFlushThenOpcode :
    (breaking 21).host = [] ∧ (breaking 21).mode = .enc ∧ (breaking 21).idx < (breaking 21).npix ∧
    Cells.get? (breaking 21).pixin (breaking 21).idx = some (pack ⟨20, 30, 40, 50⟩) ∧
    (⟨20, 30, 40, 50⟩ : Pixel) ≠ (breaking 21).prev ∧
    (breaking 21).pos + (pendingBytes (breaking 21).run ++ encode (pixelOpcode (breaking 21) ⟨20, 30, 40, 50⟩)).length ≤
      (breaking 21).lim := by decide

/-- Two misfits: the COLOR of `breaking 20` at its last byte, and the pending run of `breaking 15`. -/
theorem witness_EncodeStepOverflows :
    (breaking 20).host = [] ∧ (breaking 20).mode = .enc ∧ (breaking 20).idx < (breaking 20).npix ∧
    (breaking 20).pos ≤ (breaking 20).lim ∧
    Cells.get? (breaking 20).pixin (breaking 20).idx = some (pack ⟨20, 30, 40, 50⟩) ∧
    (⟨20, 30, 40, 50⟩ : Pixel) ≠ (breaking 20).prev ∧
    (breaking 20).lim <
      (breaking 20).pos + (pendingBytes (breaking 20).run ++ encode (pixelOpcode (breaking 20) ⟨20, 30, 40, 50⟩)).length ∧
    (breaking 15).pos ≤ (breaking 15).lim ∧
    (breaking 15).lim < (breaking 15).pos + (pendingBytes (breaking 15).run).length := by decide

theorem test_enc_color_overflow :
    look (step (breaking 20)) (fun t => (t.mode, t.fault)) = some (.fault, ⟨4, 20⟩) := by decide

theorem witness_DeltaOpcodeChangesSomething : (⟨0, 0, 0, 0⟩ : Pixel) ≠ opaqueBlack := by decide

/-- Five pixels that differ from `prev`, one for each selection: INDEX, DIFF8, DIFF16, DIFF24, COLOR. -/
theorem witness_EncoderOpcodesAreCanonical :
    (⟨0, 0, 0, 0⟩ : Pixel) ≠ room.prev ∧ (pixelOpcode room ⟨0, 0, 0, 0⟩).kind = .index ∧
    pixelOpcode room ⟨1, 0, 0, 255⟩ = .diff8 1 0 0 ∧ pixelOpcode room ⟨2, 0, 0, 255⟩ = .diff16 2 0 0 ∧
    pixelOpcode room ⟨0, 0, 0, 254⟩ = .diff24 0 0 0 (-1) ∧
    pixelOpcode room ⟨16, 0, 0, 255⟩ = .color (some 16) none none none := by decide

/-- An encode of two pixels at the first, which misses the cache. -/
def twoPixels : State := enc 2 opaqueBlack [⟨1, 2, 3, 4⟩, opaqueBlack]

theorem witness_OnePixelKeepsBothSidesEqual :
    twoPixels.prev = (dec 2 opaqueBlack []).prev ∧ twoPixels.cache = (dec 2 opaqueBlack []).cache ∧ twoPixels.host = [] ∧
    twoPixels.mode = .enc ∧ twoPixels.idx < twoPixels.npix ∧
    Cells.get? twoPixels.pixin twoPixels.idx = some (pack ⟨1, 2, 3, 4⟩) ∧ (⟨1, 2, 3, 4⟩ : Pixel) ≠ twoPixels.prev ∧
    (∃ e', step twoPixels = .next e' ∧ e'.mode = .enc) ∧
    (dec 2 opaqueBlack []).out < (dec 2 opaqueBlack []).pixelCount :=
  ⟨rfl, rfl, rfl, rfl, by decide, by decide, by decide, look_next (by decide), by decide⟩

/-- An encode of no pixels: the trailer fits exactly. -/
def noPixels : State := enc 0 opaqueBlack []

/-- An encode of 33 pixels equal to `prev`, all consumed: a run is pending. -/
def pendingRun (lim : Nat) : State := { enc 33 opaqueBlack [] with idx := 33, run := 33, lim := lim }

theorem witness_EncodeFinishWritesTrailer :
    noPixels.host = [] ∧ noPixels.mode = .enc ∧ noPixels.idx = noPixels.npix ∧
    noPixels.pos + (pendingBytes noPixels.run).length + 4 ≤ noPixels.lim ∧
    ({ noPixels with lim := 17 } : State).lim <
      ({ noPixels with lim := 17 } : State).pos + (pendingBytes noPixels.run).length + 4 ∧
    ((pendingRun 20).host = [] ∧ (pendingRun 20).mode = .enc ∧ (pendingRun 20).idx = (pendingRun 20).npix ∧
      (pendingRun 20).pos + (pendingBytes (pendingRun 20).run).length + 4 ≤ (pendingRun 20).lim) ∧
    (pendingRun 19).lim < (pendingRun 19).pos + (pendingBytes (pendingRun 19).run).length + 4 := by decide

/-! ### Witnesses: the invariant -/

theorem block_isSome {α : Type} (vs : List α) (a : Nat) : (Cells.get? (Cells.block 0 vs) a).isSome ↔ a < vs.length := by
  rw [Cells.get?_block, if_pos (Nat.zero_le a), Nat.sub_zero]
  simp

theorem cacheInit_inv : CacheInv cacheInit := fun i => Or.inl (by simp [cacheInit])

theorem twoPixels_inv : Inv twoPixels where
  streamWf := by decide
  pixinWf := by decide
  pixoutWf := by decide
  codeMeans := by decide
  codeRange := by decide
  cache := fun _ => cacheInit_inv
  encode := fun _ =>
    { channels := by decide, npix := by decide, lim := by decide, limFits := by decide, posLow := by decide
      posHigh := by decide, run := by decide, runConsumed := by decide, idx := by decide
      runPixels := fun _ h => absurd h (Nat.not_lt_zero _)
      written := block_isSome _ }
  decode := fun h => by cases h

theorem noPixels_inv : Inv noPixels where
  streamWf := by decide
  pixinWf := by decide
  pixoutWf := by decide
  codeMeans := by decide
  codeRange := by decide
  cache := fun _ => cacheInit_inv
  encode := fun _ =>
    { channels := by decide, npix := by decide, lim := by decide, limFits := by decide, posLow := by decide
      posHigh := by decide, run := by decide, runConsumed := by decide, idx := by decide
      runPixels := fun _ h => absurd h (Nat.not_lt_zero _)
      written := block_isSome _ }
  decode := fun h => by cases h

theorem lastDiff16_inv : Inv lastDiff16 where
  streamWf := by decide
  pixinWf := by decide
  pixoutWf := by decide
  codeMeans := by decide
  codeRange := by decide
  cache := fun _ => cacheInit_inv
  encode := fun h => by cases h
  decode := fun _ =>
    { limLow := by decide, limFits := by decide, posLow := by decide, posHigh := by decide, out := by decide
      fits := by decide, written := fun a => by
        show (none : Option Byte).isSome ↔ a < 0
        simp }

theorem twoPixels_loaded : PixinLoaded twoPixels := fun _ => by decide

theorem witness_CompletedEncodeLength :
    Inv noPixels ∧ noPixels.host = [] ∧ noPixels.mode = .enc ∧ ∃ t, step noPixels = .next t ∧ t.mode = .done :=
  ⟨noPixels_inv, rfl, rfl, look_next (by decide)⟩

theorem witness_EncodeAlwaysEnds :
    Inv twoPixels ∧ PixinLoaded twoPixels ∧ twoPixels.host = [] ∧ twoPixels.mode = .enc :=
  ⟨twoPixels_inv, twoPixels_loaded, rfl, rfl⟩

theorem witness_FourChannelsNeverOverflow :
    (∃ t, step { State.reset with host := some (.startEnc 1 1 4 0 1) :: [] } = .next t ∧ t.mode = .enc) ∧ Inv twoPixels ∧ WithinFiveBytes twoPixels ∧
    twoPixels.host = [] ∧ twoPixels.mode = .enc ∧ twoPixels.channels = 4 ∧ ∃ t, step twoPixels = .next t ∧ t.mode = .enc :=
  ⟨look_next (by decide), twoPixels_inv, fun _ _ => by decide, rfl, rfl, rfl, look_next (by decide)⟩

theorem witness_StepKeepsInvariant :
    (Inv twoPixels ∧ ∃ t, step twoPixels = .next t ∧ t.mode = .enc) ∧
    (Inv lastDiff16 ∧ ∃ t, step lastDiff16 = .next t ∧ t.mode = .dec) :=
  ⟨⟨twoPixels_inv, look_next (by decide)⟩, lastDiff16_inv, look_next (by decide)⟩

theorem witness_RunningStepIsEnabled :
    (Inv twoPixels ∧ PixinLoaded twoPixels ∧ twoPixels.host = []) ∧
    (Inv lastDiff16 ∧ PixinLoaded lastDiff16 ∧ lastDiff16.host = []) ∧
    ((enc 1 opaqueBlack []).host = [] ∧ (enc 1 opaqueBlack []).mode = .enc ∧
      (enc 1 opaqueBlack []).idx < (enc 1 opaqueBlack []).npix ∧
      Cells.get? (enc 1 opaqueBlack []).pixin (enc 1 opaqueBlack []).idx = none) :=
  ⟨⟨twoPixels_inv, twoPixels_loaded, rfl⟩, ⟨lastDiff16_inv, fun h => (by cases h), rfl⟩, by decide⟩

/-! ### Witnesses: the whole machine -/

theorem witness_ParametersNeverChange : ∃ t, step lastDiff16 = .next t ∧ t.mode = .dec := look_next (by decide)

theorem witness_WaitsForTheHost :
    (State.reset.host = [] ∧ State.reset.mode ≠ .enc ∧ State.reset.mode ≠ .dec) ∧
    (∃ t, step { lastDiff16 with host := [] } = .next t ∧ t.mode = .dec) ∧
    step { enc 1 opaqueBlack [] with host := [] } = .refused .pixinWordMissing :=
  ⟨by decide, look_next (by decide), rfl⟩

theorem witness_SequencerWritesItsOwnBufferOnly :
    (lastDiff16.host = [] ∧ lastDiff16.mode = .dec ∧ ∃ t, step lastDiff16 = .next t ∧ t.mode = .dec) ∧
    (twoPixels.host = [] ∧ twoPixels.mode = .enc ∧ ∃ t, step twoPixels = .next t ∧ t.mode = .enc) :=
  ⟨⟨rfl, rfl, look_next (by decide)⟩, rfl, rfl, look_next (by decide)⟩

theorem witness_SequencerModeChanges :
    (∃ t, step noPixels = .next t ∧ t.mode = .done) ∧ (∃ t, step cutRun16 = .next t ∧ t.mode = .fault) ∧
    (∃ t, step State.reset = .next t ∧ t.mode = .idle) :=
  ⟨look_next (by decide), look_next (by decide), look_next (by decide)⟩

theorem witness_StartWhileBusyRefused :
    (twoPixels.mode = .enc ∨ twoPixels.mode = .dec) ∧
    (({ twoPixels with host := [some (.startEnc 1 1 4 0 1)] } : State).mode = .enc) ∧
    (({ lastDiff16 with host := [some (.startDec 18), none] } : State).mode = .dec) := by decide

theorem witness_PowerOnResetAnyTime :
    ({ twoPixels with host := [some .powerOnReset] } : State).host = some .powerOnReset :: [] := rfl

theorem witness_HostFillsBuffersOutsideInvocations :
    (twoPixels.mode = .enc ∨ twoPixels.mode = .dec) ∧
    ((bounded 4 23 []).mode ≠ .enc ∧ (bounded 4 23 []).mode ≠ .dec ∧
      21 + ([1, 2] : List Byte).length ≤ (bounded 4 23 []).params.streamMax ∧
      (bounded 4 23 []).params.streamMax < 22 + ([1, 2] : List Byte).length) := by decide

theorem witness_HostReadsByMode :
    HostReg.out ≠ HostReg.faultCode ∧ HostReg.out ≠ HostReg.faultAt ∧ State.reset.mode = .idle ∧
    ({ State.reset with mode := .fault } : State).mode = .fault ∧ ({ State.reset with mode := .done } : State).mode = .done := by
  decide

/-- A finished decode of one pixel. -/
def decoded : State :=
  { State.reset with mode := .done, width := 1, height := 1, out := 1, pixout := Cells.block 0 [10, 20, 30, 255] }

theorem witness_HostReadsPackedPixels :
    decoded.mode = .done ∧ 0 < decoded.out ∧
    (∀ k, k < 4 → Cells.get? decoded.pixout (4 * 0 + k) = some (channelAt ⟨10, 20, 30, 255⟩ k)) ∧
    (({ noPixels with mode := .done, outLen := 18 } : State).mode = .done ∧
      17 < ({ noPixels with mode := .done, outLen := 18 } : State).outLen ∧
      ({ noPixels with mode := .done, outLen := 18 } : State).outLen ≤ 18) ∧ noPixels.mode ≠ .done := by decide

theorem witness_RowMajorIndexIsOneToOne :
    1 < (2 : Word).toNat ∧ 2 < (3 : Word).toNat ∧ pixelIndex 2 1 2 = pixelIndex 2 1 2 ∧ 5 < (2 : Word).toNat * (3 : Word).toNat := by
  decide

theorem witness_ContextsShareNothing :
    Block.stepContext (Block.reset 2) 1 = .next (Block.reset 2) ∧
    (Block.reset 2)[1]? = some { State.reset with context := 1 } ∧ Block.Numbered [State.reset] :=
  ⟨rfl, rfl, fun k s h => by
    cases k with
    | zero => cases h; rfl
    | succ k => cases h⟩

/-! ### Witnesses: the cursor and the cache -/

theorem witness_WrittenWordReadsBack :
    ({ State.reset with pos := 10, lim := 14 } : State).pos + 4 ≤ ({ State.reset with pos := 10, lim := 14 } : State).lim := by
  decide

theorem witness_CursorFailsWhole :
    (four 4).lim < (four 4).pos + 1 ∧ (four 3).lim < (four 3).pos + 2 ∧ (four 2).lim < (four 2).pos + 3 ∧
    (four 1).lim < (four 1).pos + 4 ∧ (four 1).mode = .dec ∧ ({ four 1 with mode := .enc } : State).mode = .enc := by decide

theorem witness_LaterUpdateWins :
    pixelHash ⟨1, 0, 0, 0⟩ = pixelHash ⟨0, 1, 0, 0⟩ ∧ (⟨1, 0, 0, 0⟩ : Pixel) ≠ ⟨0, 1, 0, 0⟩ := by decide

theorem witness_HashIsLowSixBitsOfXor : (64 : Byte).toNat % 64 = 0 ∧ (192 : Byte).toNat % 64 = 0 := by decide

/-! ### Witnesses: the whole invocations -/

/-- An idle context whose `PIXIN` holds pixels. -/
def supplied (pixels : List Pixel) : State :=
  { State.reset with pixin := Cells.block 0 (pixels.map pack) }

theorem witness_EncodeStepsGiveWholeEncode :
    (supplied [gray]).mode ≠ .enc ∧ (supplied [gray]).mode ≠ .dec ∧
    encodeCap 1 1 4 ≤ (supplied [gray]).params.streamMax ∧
    (∀ i p, [gray][i]? = some p → Cells.get? (supplied [gray]).pixin i = some (pack p)) := by
  refine ⟨by decide, by decide, by decide, fun i p h => ?_⟩
  show Cells.get? (Cells.block 0 ([gray].map pack)) i = _
  rw [Cells.get?_block, if_pos (Nat.zero_le i), Nat.sub_zero, List.getElem?_map, h]
  rfl

theorem witness_DecodeStepsGiveWholeDecode :
    (loaded (hdr 0 4 ++ [0, 0, 0, 0])).mode ≠ .enc ∧
    (loaded (hdr 0 4 ++ [0, 0, 0, 0])).mode ≠ .dec ∧
    (hdr 0 4 ++ [0, 0, 0, 0]).length ≤ (loaded (hdr 0 4 ++ [0, 0, 0, 0])).params.streamMax ∧
    (∀ k b, (hdr 0 4 ++ [0, 0, 0, 0])[k]? = some b → Cells.get? (loaded (hdr 0 4 ++ [0, 0, 0, 0])).stream k = some b) := by
  refine ⟨by decide, by decide, by decide, fun k b h => ?_⟩
  show Cells.get? (Cells.block 0 (hdr 0 4 ++ [0, 0, 0, 0])) k = _
  rw [Cells.get?_block, if_pos (Nat.zero_le k), Nat.sub_zero, h]

/-- The three ends of R172 on 1 by 1 images: a stream (below), BufferOverflow with `channels` 3, and a refused channel count. -/
theorem test_encodeAll_ends :
    encodeAll Config.defaultMagic 1 1 3 0 [⟨1, 2, 3, 0⟩] = .error (.fault .bufferOverflow) ∧
    encodeAll Config.defaultMagic 1 1 4 0 [] = .error (.fault .dimensionMismatch) ∧
    encodeAll Config.defaultMagic 1 1 5 0 [gray] = .error .channelsNotThreeOrFour := by decide

/-- Scenario A: the bytes are those of spec/95_test_vectors.md. -/
theorem witness_DecodeInvertsEncode :
    encodeAll Config.defaultMagic 1 1 4 0 [⟨10, 20, 30, 255⟩] =
      .ok [0x71, 0x6F, 0x69, 0x66, 0, 0, 0, 1, 0, 0, 0, 1, 4, 0, 0xFE, 0x0A, 0x14, 0x1E, 0, 0, 0, 0] ∧
    4 * ((1 : Word).toNat * (1 : Word).toNat) ≤ 4 := by decide

end Sys2Proof.Tests
end

section
/-!
PROOF. The statement about packing (R12 of spec/00_scope.md).
-/
namespace Sys2Proof.Machine

/-- A concatenation in numbers: its high part counts in units of the low part's range. -/
theorem toNat_append_eq_mul_add {m n : Nat} (x : BitVec m) (y : BitVec n) :
    (x ++ y).toNat = x.toNat * 2 ^ n + y.toNat := by
  rw [BitVec.toNat_append, ← Nat.shiftLeft_add_eq_or_of_lt y.isLt, Nat.shiftLeft_eq]

@[simp] theorem unpack_pack (p : Pixel) : unpack (pack p) = p := by
  have hr : (pack p).extractLsb' 24 8 = p.r :=
    calc (pack p).extractLsb' 24 8
      _ = (p.r ++ p.g ++ p.b).extractLsb' 16 8 := extract_inside (k := 16) (p.r ++ p.g ++ p.b) p.a
      _ = (p.r ++ p.g).extractLsb' 8 8 := extract_inside (k := 8) (p.r ++ p.g) p.b
      _ = p.r := extract_high p.r p.g
  have hg : (pack p).extractLsb' 16 8 = p.g :=
    calc (pack p).extractLsb' 16 8
      _ = (p.r ++ p.g ++ p.b).extractLsb' 8 8 := extract_inside (k := 8) (p.r ++ p.g ++ p.b) p.a
      _ = (p.r ++ p.g).extractLsb' 0 8 := extract_inside (k := 0) (p.r ++ p.g) p.b
      _ = p.g := extract_low p.r p.g
  have hb : (pack p).extractLsb' 8 8 = p.b :=
    calc (pack p).extractLsb' 8 8
      _ = (p.r ++ p.g ++ p.b).extractLsb' 0 8 := extract_inside (k := 0) (p.r ++ p.g ++ p.b) p.a
      _ = p.b := extract_low (p.r ++ p.g) p.b
  have ha : (pack p).extractLsb' 0 8 = p.a := extract_low (p.r ++ p.g ++ p.b) p.a
  rw [unpack, hr, hg, hb, ha]

@[simp] theorem pack_unpack (w : Word) : pack (unpack w) = w := join32 w

theorem pack_toNat (p : Pixel) :
    (pack p).toNat = p.r.toNat * 16777216 + p.g.toNat * 65536 + p.b.toNat * 256 + p.a.toNat := by
  simp only [pack, toNat_append_eq_mul_add]
  omega

/-- Settles O57: the fields of the concatenation are the channels, and the join of a word's four bytes is the word. -/
theorem packIsABijection : Obligations.PackIsABijection :=
  ⟨unpack_pack, pack_unpack, pack_toNat⟩

end Sys2Proof.Machine
end

section
/-!
SUPPORT. What the encoder's writes can do: each emission appends the bytes of its opcode to `STREAM`, or raises at the cursor
with nothing but the encoder's own registers changed (R103, R108, R164 to R169).
-/
namespace Sys2Proof.Machine

/-! ### Bytes appended at the cursor -/

/-- `t` is `s` with `bs` appended at `pos`, and with nothing else changed. -/
structure Appended (bs : List Byte) (s t : State) : Prop where
  only : t = { s with stream := t.stream, pos := t.pos }
  bytes : AppendsBytes bs s t
  fits : s.pos ≤ s.lim → t.pos ≤ s.lim
  canonical : s.stream.wf → t.stream.wf

/-- The registers an encode step assigns besides `idx` and the cursor (R165, R166). -/
def State.withRegs (s : State) (prev : Pixel) (run : Nat) (cache : Vector Pixel 64) : State :=
  { s with prev := prev, run := run, cache := cache }

/-- An operation that appends `bs` to `s`, or raises at the cursor because they do not fit. -/
def Writes (bs : List Byte) (s : State) (x : Res Unit) : Prop :=
  (∃ t, x = .ok () t ∧ Appended bs s t) ∨
  (s.lim < s.pos + bs.length ∧ ∃ u, x = .raised (raiseCursor u) ∧ EncodeFrame s u)

variable {bs cs : List Byte} {s t u : State}

theorem EncodeFrame.refl (s : State) : EncodeFrame s s := by constructor <;> rfl

theorem EncodeFrame.trans (h : EncodeFrame s t) (k : EncodeFrame t u) : EncodeFrame s u :=
  ⟨k.params.trans h.params, k.mode.trans h.mode, k.fault.trans h.fault, k.width.trans h.width,
    k.height.trans h.height, k.channels.trans h.channels, k.cspace.trans h.cspace, k.lim.trans h.lim,
    k.npix.trans h.npix, k.out.trans h.out, k.outLen.trans h.outLen, k.pixin.trans h.pixin,
    k.pixout.trans h.pixout, k.host.trans h.host, k.context.trans h.context, k.draws.trans h.draws⟩

/-- Two appends in a row are one append of both byte strings. -/
theorem AppendsBytes.trans (h : AppendsBytes bs s t) (k : AppendsBytes cs t u) : AppendsBytes (bs ++ cs) s u := by
  obtain ⟨hp, hb⟩ := h
  obtain ⟨kp, kb⟩ := k
  refine ⟨by rw [kp, hp, List.length_append, Nat.add_assoc], fun a => ?_⟩
  rw [kb, hb, hp, List.length_append, List.getElem?_append, Nat.add_assoc, Nat.sub_sub]
  rcases Nat.lt_or_ge a s.pos with h1 | h1
  · rw [if_neg (by omega), if_neg (by omega), if_neg (by omega)]
  rcases Nat.lt_or_ge a (s.pos + bs.length) with h2 | h2
  · rw [if_neg (by omega), if_pos ⟨h1, h2⟩, if_pos (by omega), if_pos (by omega)]
  · rw [if_neg (c := s.pos ≤ a ∧ a < s.pos + bs.length) (by omega), if_neg (c := a - s.pos < bs.length) (by omega)]
    exact if_congr (by omega) rfl rfl

theorem Appended.refl (s : State) : Appended [] s s where
  only := rfl
  bytes := ⟨rfl, fun _ => (if_neg fun h => Nat.not_lt.mpr h.1 h.2).symm⟩
  fits := id
  canonical := id

theorem Appended.frame (h : Appended bs s t) : EncodeFrame s t := by
  rw [h.only]
  constructor <;> rfl

theorem Appended.trans (h : Appended bs s t) (k : Appended cs t u) : Appended (bs ++ cs) s u where
  only := by rw [k.only, h.only]
  bytes := h.bytes.trans k.bytes
  fits := fun hs => h.frame.lim ▸ k.fits (h.frame.lim ▸ h.fits hs)
  canonical := k.canonical ∘ h.canonical

/-- Exactly the bytes below `pos` stay written (R33). -/
theorem Appended.written (h : Appended bs s t) (hs : ∀ a, (Cells.get? s.stream a).isSome ↔ a < s.pos) (a : Nat) :
    (Cells.get? t.stream a).isSome ↔ a < t.pos := by
  rw [h.bytes.2, h.bytes.1]
  split
  · next hin => simp; omega
  · next hout => rw [hs]; omega

/-- Registers that the cursor does not read may be assigned before or after an append. -/
theorem Appended.withRegs (h : Appended bs s t) (prev : Pixel) (run : Nat) (cache : Vector Pixel 64) :
    Appended bs (s.withRegs prev run cache) (t.withRegs prev run cache) :=
  { h with only := congrArg (State.withRegs · prev run cache) h.only }

theorem Appended.withRegs_self (h : Appended bs s t) : t.withRegs s.prev s.run s.cache = t := by
  rw [h.only]
  rfl

theorem Writes.nil (s : State) : Writes [] s (.ok () s) := .inl ⟨s, rfl, .refl s⟩

theorem cursorWrite_writes (bs : List Byte) (s : State) : Writes bs s (cursorWrite bs s) := by
  rcases cursorWrite_cases bs s with ⟨hroom, e⟩ | ⟨hfull, e⟩
  · exact .inl ⟨_, e, ⟨rfl, appendsBytes_put bs s, fun _ => hroom, fun h => Cells.put_wf h _ _⟩⟩
  · exact .inr ⟨hfull, s, e, .refl s⟩

/-- Sequencing: the second part may run with registers assigned that the cursor does not read. -/
theorem Writes.andThen_withRegs {x : Res Unit} {f : Unit → State → Res Unit} {prev : Pixel} {run : Nat}
    {cache : Vector Pixel 64} (hx : Writes bs s x)
    (hf : ∀ t, Appended bs s t → Writes cs (t.withRegs prev run cache) (f () t)) :
    Writes (bs ++ cs) (s.withRegs prev run cache) (x.andThen f) := by
  rcases hx with ⟨t, e, ht⟩ | ⟨hfull, u, e, hu⟩
  · rw [e, Res.andThen_ok]
    rcases hf t ht with ⟨u, e', hu⟩ | ⟨hfull, u, e', hu⟩
    · exact .inl ⟨u, e', (ht.withRegs ..).trans hu⟩
    · refine .inr ⟨?_, u, e', ?_⟩
      · have : t.lim < t.pos + cs.length := hfull
        show s.lim < s.pos + (bs ++ cs).length
        rw [List.length_append, ← Nat.add_assoc, ← ht.bytes.1, ← ht.frame.lim]
        exact this
      · rw [ht.only] at hu
        exact { hu with }
  · refine .inr ⟨?_, u, by rw [e, Res.andThen_raised], { hu with }⟩
    show s.lim < s.pos + (bs ++ cs).length
    rw [List.length_append]
    omega

theorem Writes.andThen {x : Res Unit} {f : Unit → State → Res Unit} (hx : Writes bs s x)
    (hf : ∀ t, Appended bs s t → Writes cs t (f () t)) : Writes (bs ++ cs) s (x.andThen f) :=
  hx.andThen_withRegs (prev := s.prev) (run := s.run) (cache := s.cache) fun t ht => ht.withRegs_self.symm ▸ hf t ht

/-- Registers assigned behind a write. -/
theorem Writes.andThen_set {x : Res Unit} {g : State → State} {prev : Pixel} {run : Nat} {cache : Vector Pixel 64}
    (hx : Writes bs s x) (hg : ∀ t, Appended bs s t → g t = t.withRegs prev run cache) :
    Writes bs (s.withRegs prev run cache) (x.andThen fun _ t => .ok () (g t)) :=
  List.append_nil bs ▸ hx.andThen_withRegs fun t ht => hg t ht ▸ Writes.nil _

/-! ### The encoder's emissions -/

theorem flushRun_writes (n : Nat) (s : State) : Writes (encode (runOpcode n)) s (flushRun n s) :=
  flushRun_eq n s ▸ cursorWrite_writes _ s

theorem emitLiteral_writes (d : Int) (v : Byte) (s : State) :
    Writes (literalOf d v).toList s (emitLiteral (d ≠ 0) v s) := by
  unfold literalOf emitLiteral
  by_cases h : d = 0
  · simpa [h] using Writes.nil s
  · simpa [h, writeU8] using cursorWrite_writes [v] s

theorem literalOf_isSome (d : Int) (v : Byte) : (literalOf d v).isSome = decide (d ≠ 0) := by
  unfold literalOf
  by_cases h : d = 0 <;> simp [h]

/-- R145: COLOR is written byte by byte, and the bytes are those of its encoding. -/
theorem emitColor_writes (d : Deltas) (v : Pixel) (s : State) :
    Writes (encode (.color (literalOf d.r v.r) (literalOf d.g v.g) (literalOf d.b v.b) (literalOf d.a v.a))) s
      (emitColor d v s) := by
  simp only [encode, literalOf_isSome, List.append_assoc]
  exact (cursorWrite_writes [_] s).andThen fun s1 _ => (emitLiteral_writes d.r v.r s1).andThen fun s2 _ =>
    (emitLiteral_writes d.g v.g s2).andThen fun s3 _ => (emitLiteral_writes d.b v.b s3).andThen fun s4 _ =>
    emitLiteral_writes d.a v.a s4

/-- R139 to R145: the delta opcode by priority. -/
theorem emitDelta_writes (d : Deltas) (v : Pixel) (s : State) : Writes (encode (deltaOpcode d v)) s (emitDelta d v s) := by
  unfold deltaOpcode emitDelta
  split
  · exact cursorWrite_writes _ s
  split
  · exact cursorWrite_writes _ s
  split
  · exact cursorWrite_writes _ s
  · exact emitColor_writes d v s

/-- R123, R125: the pending run is written and `run` is 0. -/
theorem flushPending_writes (s : State) :
    Writes (pendingBytes s.run) (s.withRegs s.prev 0 s.cache) (flushPending s) := by
  rw [flushPending_eq]
  by_cases h : s.run = 0
  · have hs : s.withRegs s.prev 0 s.cache = s := h ▸ rfl
    simpa [h, hs, pendingBytes] using Writes.nil s
  · rw [if_neg h]
    exact (cursorWrite_writes _ s).andThen_set fun t ht => by rw [ht.only]; rfl

/-! ### One pixel -/

/-- The registers after a pixel (R122, R124, R166): it becomes `prev`, it extends the run or ends it, and on a miss it is put
into the cache. -/
def State.afterPixel (s : State) (v : Pixel) : State :=
  s.withRegs v (if v = s.prev ∧ s.run + 1 ≠ Config.runMax then s.run + 1 else 0)
    (if v = s.prev ∨ s.cache[pixelHash v] = v then s.cache else s.cache.set (pixelHash v) v)

theorem State.afterPixel_frame (s : State) (v : Pixel) : EncodeFrame s (s.afterPixel v) := by
  constructor <;> rfl

/-- The bytes a pixel costs (R165 to R167). -/
def State.pixelCode (s : State) (v : Pixel) : List Byte :=
  if v = s.prev then (if s.run + 1 = Config.runMax then encode (runOpcode Config.runMax) else [])
  else pendingBytes s.run ++ encode (pixelOpcode s v)

theorem extendRun_writes (s : State) :
    Writes (if s.run + 1 = Config.runMax then encode (runOpcode Config.runMax) else [])
      (s.withRegs s.prev (if s.run + 1 = Config.runMax then 0 else s.run + 1) s.cache) (extendRun s) := by
  unfold extendRun
  by_cases h : s.run + 1 = Config.runMax
  · rw [if_pos h, if_pos h, if_pos h, h]
    exact (flushRun_writes _ { s with run := Config.runMax }).andThen_set (prev := s.prev) (cache := s.cache)
      fun t ht => by rw [ht.only]; rfl
  · rw [if_neg h, if_neg h, if_neg h]
    exact Writes.nil _

theorem encodePixel_writes (v : Pixel) (s : State) :
    Writes (encode (pixelOpcode s v))
      (s.withRegs v s.run (if s.cache[pixelHash v] = v then s.cache else s.cache.set (pixelHash v) v))
      (encodePixel v s) := by
  unfold encodePixel pixelOpcode State.hit
  by_cases h : s.cache[pixelHash v] = v
  · simp only [h, decide_true, if_true]
    exact (cursorWrite_writes _ s).andThen_set fun t ht => by rw [ht.only]; rfl
  · simp only [h, decide_false, if_false]
    exact (emitDelta_writes _ v (s.cacheUpdate v)).andThen_set (run := s.run)
      (cache := s.cache.set (pixelHash v) v) fun t ht => by rw [ht.only]; rfl

/-- R165: what a pixel writes and which registers it assigns. -/
theorem consumePixel_writes (v : Pixel) (s : State) :
    Writes (s.pixelCode v) (s.afterPixel v) (consumePixel v s) := by
  unfold consumePixel State.pixelCode State.afterPixel State.extendsRun
  by_cases h : v = s.prev
  · subst h
    simpa only [true_and, true_or, if_true, decide_true, ite_not] using extendRun_writes s
  · simp only [h, false_and, false_or, if_false, decide_false]
    refine (flushPending_writes s).andThen_withRegs (prev := v) (run := 0) fun t ht => ?_
    rw [ht.only]
    exact encodePixel_writes v _

end Sys2Proof.Machine
end

section
/-!
SUPPORT. What each move can do, said once: the encode and decode steps with their finishes, the two start commands, and who
moves in a step. Every proof about `step` starts from these.
-/
namespace Sys2Proof.Machine

variable {s t : State}

/-! ### The encode invocation -/

/-- What the encode step can do (R165): consume the pixel at `idx`, or raise at the cursor. -/
theorem encodeStep_cases (h : encodeStep s = .next t) :
    ∃ v, Cells.get? s.pixin s.idx = some (pack v) ∧
      (Appended (s.pixelCode v) (State.afterPixel { s with idx := s.idx + 1 } v) t ∨
        ∃ u, EncodeFrame s u ∧ t = raiseCursor u) := by
  unfold encodeStep at h
  split at h
  · cases h
  next w hw =>
    refine ⟨unpack w, by rw [hw, pack_unpack], ?_⟩
    cases h
    rcases consumePixel_writes (unpack w) { s with idx := s.idx + 1 } with ⟨t, e, ht⟩ | ⟨-, u, e, hu⟩
    · exact .inl (e ▸ ht)
    · exact .inr ⟨u, { (State.afterPixel_frame _ _).trans hu with }, by rw [e]; rfl⟩

/-- What the encode finish can do (R169): the pending run and the trailer are written and the mode is DONE, or a write
raises. -/
theorem encodeFinish_cases (s : State) :
    (∃ u, Appended (pendingBytes s.run ++ [0, 0, 0, 0]) (s.withRegs s.prev 0 s.cache) u ∧
      encodeFinish s = { u with outLen := u.pos, mode := .done }) ∨
    ∃ u, EncodeFrame s u ∧ encodeFinish s = raiseCursor u := by
  have h : Writes (pendingBytes s.run ++ [0, 0, 0, 0]) (s.withRegs s.prev 0 s.cache)
      ((flushPending s).andThen fun _ t => writeU32 0 t) :=
    (flushPending_writes s).andThen fun t _ => cursorWrite_writes (be32 0) t
  unfold encodeFinish
  rw [← Res.andThen_assoc]
  rcases h with ⟨u, e, hu⟩ | ⟨-, u, e, hu⟩
  · exact .inl ⟨u, hu, by rw [e]; rfl⟩
  · exact .inr ⟨u, { hu with }, by rw [e]; rfl⟩

/-- The header's bytes in `STREAM` order (R68, R164). -/
def State.headerBytes (s : State) : List Byte :=
  [s.params.magic.c0.setWidth 8, s.params.magic.c1.setWidth 8, s.params.magic.c2.setWidth 8,
    s.params.magic.c3.setWidth 8] ++ be32 s.width ++ be32 s.height ++ [s.channels, s.cspace]

/-- Behind a write, one more whose bytes are read from registers that no write changes. -/
theorem Writes.andThen_field {bs : List Byte} {x : Res Unit} {v : State → List Byte} (hx : Writes bs s x)
    (hv : ∀ t, EncodeFrame s t → v t = v s) : Writes (bs ++ v s) s (x.andThen fun _ t => cursorWrite (v t) t) :=
  hx.andThen fun t ht => hv t ht.frame ▸ cursorWrite_writes (v t) t

/-- R164: the header is written field by field. -/
theorem writeHeader_writes (s : State) : Writes s.headerBytes s (writeHeader s) := by
  unfold writeHeader
  simp only [← Res.andThen_assoc]
  have magic := (((cursorWrite_writes [s.params.magic.c0.setWidth 8] s).andThen_field
    (v := fun t => [t.params.magic.c1.setWidth 8]) fun t h => by rw [h.params]).andThen_field
    (v := fun t => [t.params.magic.c2.setWidth 8]) fun t h => by rw [h.params]).andThen_field
    (v := fun t => [t.params.magic.c3.setWidth 8]) fun t h => by rw [h.params]
  exact (((magic.andThen_field (v := fun t => be32 t.width) fun t h => by rw [h.width]).andThen_field
    (v := fun t => be32 t.height) fun t h => by rw [h.height]).andThen_field
    (v := fun t => [t.channels]) fun t h => by rw [h.channels]).andThen_field
    (v := fun t => [t.cspace]) fun t h => by rw [h.cspace]

theorem encodeCap_ge (w h : Word) (c : Byte) : 18 ≤ encodeCap w h c := Nat.le_add_left ..

/-- What `START_ENC` can do when it is not refused (R162): take DimensionMismatch, or open an encode with the header
written. -/
theorem startEnc_cases {w h : Word} {c cs : Byte} {n : Nat} (e : startEnc w h c cs n s = .next t) :
    t = raise .dimensionMismatch n s ∨
    ((c = 3 ∨ c = 4) ∧ n = w.toNat * h.toNat ∧ encodeCap w h c ≤ s.params.streamMax ∧
      Appended (initEncode w h c cs n s).headerBytes (initEncode w h c cs n s) t) := by
  unfold startEnc at e
  split at e
  · cases e
  split at e
  · cases e
  next hc =>
  split at e
  · cases e
    exact .inl rfl
  next hn =>
  split at e
  · cases e
  next hcap =>
  cases e
  refine .inr ⟨by by_contra hne; exact hc (not_or.mp hne), not_not.mp hn, Nat.not_lt.mp hcap, ?_⟩
  rcases writeHeader_writes (initEncode w h c cs n s) with ⟨t, e, ht⟩ | ⟨hfull, -⟩
  · exact e ▸ ht
  · exact absurd hfull (Nat.not_lt.mpr (Nat.le_trans (by decide : 14 ≤ 18) (encodeCap_ge w h c)))

/-! ### The opcodes of a decode -/

/-- A completed opcode of length `n`: its frame (R184), pixels output within the image (R182), and at most one slot of the cache
written, at its pixel's own hash (R112). -/
structure OpcodeCompletes (n : Nat) (s t : State) : Prop where
  frame : OpcodeFrame s t
  pos : t.pos = s.pos + n
  outputs : ∃ p len, OutputsPixels p len s t
  room : s.out ≤ s.pixelCount → t.out ≤ s.pixelCount
  canonical : s.pixout.wf → t.pixout.wf
  cache : t.cache = s.cache ∨ ∃ p, t.cache = s.cache.set (pixelHash p) p

/-- What any operation of an opcode can do: complete, or take OutOfBounds with `pos` moved. -/
def CompletesOrOverruns (n : Nat) (s : State) (x : Res Unit) : Prop :=
  OpcodeCompletes n s x.final ∨ ∃ info, x.final = raise .outOfBounds info (s.advance n)

/-- `len` copies of a pixel written at `out`, `pos` moved, and `prev` and the cache assigned: an opcode completes so. -/
theorem opcodeCompletes_put {p : Pixel} {len n : Nat} {prev : Pixel} {cache : Vector Pixel 64}
    (hroom : s.out ≤ s.pixelCount → s.out + len ≤ s.pixelCount)
    (hcache : cache = s.cache ∨ ∃ q, cache = s.cache.set (pixelHash q) q) :
    OpcodeCompletes n s
      { s.advance n with pixout := Cells.put s.pixout (4 * s.out) (pixelRunBytes p len), out := s.out + len
                         prev := prev, cache := cache } where
  frame := by constructor <;> rfl
  pos := rfl
  outputs := ⟨p, len, outputsPixels_put p len s⟩
  room := hroom
  canonical := fun h => Cells.put_wf h _ _
  cache := hcache

theorem finishPixel_completes (p : Pixel) (n : Nat) (s : State) :
    CompletesOrOverruns n s (finishPixel p (s.advance n)) := by
  unfold CompletesOrOverruns
  rcases finishPixel_cases p (s.advance n) with ⟨hroom, e⟩ | ⟨-, e⟩ <;> rw [e]
  · exact .inl (opcodeCompletes_put (p := p) (len := 1) (fun _ => hroom) (.inr ⟨p, rfl⟩))
  · exact .inr ⟨_, rfl⟩

theorem emitRun_completes (p : Pixel) (len n : Nat) (s : State) :
    CompletesOrOverruns n s (emitRun p len (s.advance n)) := by
  unfold CompletesOrOverruns
  rcases emitRun_cases p len (s.advance n) with ⟨hroom, e⟩ | ⟨-, e⟩ <;> rw [e]
  · change len ≤ s.pixelCount - s.out at hroom
    exact .inl (opcodeCompletes_put (fun h => by omega) (.inl rfl))
  · exact .inr ⟨_, rfl⟩

/-- What INDEX can do (R117). -/
theorem execIndex_completes (i : Slot) (s : State) :
    ∃ t, execIndex i s = .next t ∧
      (OpcodeCompletes 1 s t ∨ ∃ info, t = raise .outOfBounds info (s.advance 1)) := by
  refine ⟨_, rfl, ?_⟩
  rcases emitPixel_cases s.cache[i] (s.advance 1) with ⟨hroom, e⟩ | ⟨-, e⟩ <;> rw [e]
  · exact .inl (opcodeCompletes_put (p := s.cache[i]) (len := 1) (fun _ => hroom) (.inl rfl))
  · exact .inr ⟨_, rfl⟩

/-- What any opcode can do (R183). -/
theorem exec_cases (i : Instr) (s : State) :
    ∃ t, exec i s = .next t ∧
      (OpcodeCompletes i.length s t ∨ ∃ info, t = raise .outOfBounds info (s.advance i.length)) := by
  cases i with
  | index k => exact execIndex_completes k s
  | run8 len => exact ⟨_, rfl, emitRun_completes s.prev len 1 s⟩
  | run16 len => exact ⟨_, rfl, emitRun_completes s.prev len 2 s⟩
  | diff8 dr dg db => exact ⟨_, rfl, finishPixel_completes _ 1 s⟩
  | diff16 dr dg db => exact ⟨_, rfl, finishPixel_completes _ 2 s⟩
  | diff24 dr dg db da => exact ⟨_, rfl, finishPixel_completes _ 3 s⟩
  | color r g b a => exact ⟨_, rfl, finishPixel_completes _ _ s⟩

/-! ### The decode invocation -/

theorem takeLiteral_count (flag : Bool) (lits : List Byte) : literalCount (takeLiteral flag lits).1 = flag.toNat := by
  cases flag <;> rfl

/-- R72: the length of the opcode depends on its first byte alone. -/
theorem instrOf_length (b : Byte) (cs : List Byte) : (instrOf b cs).length = oplen b := by
  unfold instrOf oplen ncont
  split
  case h_7 =>
    simp only [unpackColor, Instr.length, takeLiteral_count, flagCount, Nat.add_assoc]
  all_goals rfl

/-- What the fetch can do (R181): give an opcode that ends before the trailer, or raise with at most the first byte read. -/
theorem fetch_cases (s : State) :
    (∃ i, fetch s = .instr i ∧ i.length = oplen (s.streamByte s.pos) ∧ s.pos + i.length + 4 ≤ s.lim) ∨
    ∃ k info n, fetch s = .raised (raise k info (s.advance n)) := by
  unfold fetch
  rcases cursorRead_cases 1 (fun m => m 0) s with ⟨hroom, e⟩ | ⟨-, e⟩
  · have e : readU8 s = .ok (s.streamByte s.pos) (s.advance 1) := e
    rw [e]
    dsimp only
    split
    · exact .inr ⟨_, _, 1, rfl⟩
    next hlim =>
      have hlim : s.pos + 1 + ncont (s.streamByte s.pos) + 4 ≤ s.lim := Nat.not_lt.mp hlim
      rw [readBytes_of_room (s := s.advance 1) (by simp only [State.advance_pos, State.advance_lim]; omega)]
      refine .inl ⟨_, rfl, instrOf_length .., ?_⟩
      rw [instrOf_length, oplen]
      omega
  · have e : readU8 s = .raised (raiseCursor s) := e
    rw [e]
    exact .inr ⟨_, _, 0, rfl⟩

/-- What the decode step can do (R181): complete an opcode before the trailer, or raise with nothing but `pos` moved. -/
theorem decodeStep_cases (h : decodeStep s = .next t) :
    (∃ n, s.pos + n + 4 ≤ s.lim ∧ OpcodeCompletes n s t) ∨ ∃ k info n, t = raise k info (s.advance n) := by
  unfold decodeStep at h
  rcases fetch_cases s with ⟨i, e, -, hlim⟩ | ⟨k, info, n, e⟩ <;> rw [e] at h
  · obtain ⟨t', e', ht⟩ := exec_cases i s
    have : t' = t := by simpa [e'] using h
    subst this
    rcases ht with ht | ⟨info, ht⟩
    · exact .inl ⟨_, hlim, ht⟩
    · exact .inr ⟨_, info, _, ht⟩
  · cases h
    exact .inr ⟨k, info, n, rfl⟩

/-- What the decode finish can do (R186). -/
theorem decodeFinish_cases (s : State) :
    (s.out = s.pixelCount ∧ decodeFinish s = { s with mode := .done }) ∨
    (s.out ≠ s.pixelCount ∧ decodeFinish s = raise .dimensionMismatch s.out s) := by
  unfold decodeFinish
  by_cases h : s.out = s.pixelCount
  · exact .inl ⟨h, if_neg (not_not.mpr h)⟩
  · exact .inr ⟨h, if_pos h⟩

/-- The big-endian word at an address of `STREAM` (R97). -/
def State.streamWord (s : State) (a : Nat) : Word :=
  s.streamByte a ++ s.streamByte (a + 1) ++ s.streamByte (a + 2) ++ s.streamByte (a + 3)

/-- The header registers loaded from the fourteen bytes at offset 0, behind which the cursor stands (R178). -/
def State.loadHeader (s : State) : State :=
  { s with pos := 14, width := s.streamWord 4, height := s.streamWord 8
           channels := s.streamByte 12, cspace := s.streamByte 13 }

theorem readU32_at {p : Nat} (hp : s.pos = p) (h : p + 4 ≤ s.lim) :
    readU32 s = .ok (s.streamWord p) { s with pos := p + 4 } := by
  subst hp
  rcases cursorRead_cases 4 (fun m => m 0 ++ m 1 ++ m 2 ++ m 3) s with ⟨-, e⟩ | ⟨hfull, -⟩
  · exact e
  · omega

theorem readU8_at {p : Nat} (hp : s.pos = p) (h : p + 1 ≤ s.lim) :
    readU8 s = .ok (s.streamByte p) { s with pos := p + 1 } := by
  subst hp
  exact readU8_of_room h

/-- What the read of the header can do (R178): the length test fails, or every field is read. -/
theorem readHeader_cases (hpos : s.pos = 0) :
    (s.lim < 14 ∧ readHeader s = .raised (raise .outOfBounds 0 s)) ∨
    (14 ≤ s.lim ∧ readHeader s = .ok (s.streamWord 0) s.loadHeader) := by
  unfold readHeader Config.headerBytes
  rcases Nat.lt_or_ge s.lim 14 with h | h
  · exact .inl ⟨h, if_pos h⟩
  · have room : ∀ n, n ≤ 14 → n ≤ s.lim := fun _ hn => Nat.le_trans hn h
    refine .inr ⟨h, ?_⟩
    rw [if_neg (Nat.not_lt.mpr h), readU32_at hpos, Res.andThen_ok, readU32_at (p := 4) rfl, Res.andThen_ok,
      readU32_at (p := 8) rfl, Res.andThen_ok, readU8_at (p := 12) rfl, Res.andThen_ok, readU8_at (p := 13) rfl,
      Res.andThen_ok]
    · rfl
    all_goals exact room _ (by decide)

/-- What the check of the header can do (R179). -/
theorem checkHeader_cases (m : Word) (s : State) :
    (m = s.params.magic.word ∧ 4 * s.pixelCount ≤ s.params.pixbufMax ∧ checkHeader m s = .ok () s) ∨
    ∃ k info, checkHeader m s = .raised (raise k info s) := by
  unfold checkHeader
  split
  · exact .inr ⟨_, _, rfl⟩
  next hm =>
  split
  · exact .inr ⟨_, _, rfl⟩
  next hsize => exact .inl ⟨not_not.mp hm, Nat.not_lt.mp hsize, rfl⟩

/-- What `START_DEC` can do when it is not refused (R177): open a decode behind the header, or raise. -/
theorem startDec_cases {len : Nat} (e : startDec len s = .next t) :
    (14 ≤ len ∧ len ≤ s.params.streamMax ∧
      4 * (openDecode len s).loadHeader.pixelCount ≤ s.params.pixbufMax ∧
      t = initDecode (openDecode len s).loadHeader) ∨
    ∃ k info, t = raise k info (openDecode len s) ∨ t = raise k info (openDecode len s).loadHeader := by
  unfold startDec at e
  split at e
  · cases e
  split at e
  · cases e
  next hlen =>
  cases e
  rcases readHeader_cases (s := openDecode len s) rfl with ⟨-, e⟩ | ⟨hlow, e⟩ <;> rw [e]
  · exact .inr ⟨_, _, .inl rfl⟩
  · rw [Res.andThen_ok]
    rcases checkHeader_cases ((openDecode len s).streamWord 0) (openDecode len s).loadHeader with
      ⟨-, hsize, e⟩ | ⟨k, info, e⟩ <;> rw [e]
    · exact .inl ⟨hlow, Nat.not_lt.mp hlen, hsize, rfl⟩
    · exact .inr ⟨k, info, .inr rfl⟩

/-! ### The host fills a buffer -/

theorem putStream_cases {addr : Nat} {bytes : List Byte} (e : putStream addr bytes s = .next t) :
    (s.mode ≠ .enc ∧ s.mode ≠ .dec) ∧ t = { s with stream := Cells.put s.stream addr bytes } := by
  unfold putStream at e
  split at e
  · cases e
  next hbusy =>
  split at e
  · cases e
  cases e
  exact ⟨by simpa [State.busy] using hbusy, rfl⟩

theorem putPixin_cases {idx : Nat} {words : List Word} (e : putPixin idx words s = .next t) :
    (s.mode ≠ .enc ∧ s.mode ≠ .dec) ∧ t = { s with pixin := Cells.put s.pixin idx words } := by
  unfold putPixin at e
  split at e
  · cases e
  next hbusy =>
  cases e
  exact ⟨by simpa [State.busy] using hbusy, rfl⟩

/-! ### Who moves -/

/-- A step is a turn of the sequencer or a move of the host, with the rest of the schedule left (R206). -/
theorem step_cases (s : State) :
    ∃ rest, step s = seqStep { s with host := rest } ∨ ∃ e, step s = hostMove e { s with host := rest } := by
  unfold step
  split
  next h => exact ⟨[], .inl (by rw [← h])⟩
  next rest _ => exact ⟨rest, .inl rfl⟩
  next e rest _ => exact ⟨rest, .inr ⟨e, rfl⟩⟩

/-- What a turn of the sequencer can do (R206). -/
theorem seqStep_cases (h : seqStep s = .next t) :
    (s.mode = .enc ∧ ((s.idx < s.npix ∧ encodeStep s = .next t) ∨ (s.npix ≤ s.idx ∧ t = encodeFinish s))) ∨
    (s.mode = .dec ∧ ((s.pos + 4 < s.lim ∧ decodeStep s = .next t) ∨ (s.lim ≤ s.pos + 4 ∧ t = decodeFinish s))) ∨
    (s.mode ≠ .enc ∧ s.mode ≠ .dec ∧ t = s) := by
  unfold seqStep at h
  split at h
  next hm =>
    refine .inl ⟨hm, ?_⟩
    split at h
    next hlt => exact .inl ⟨hlt, h⟩
    next hge => cases h; exact .inr ⟨Nat.not_lt.mp hge, rfl⟩
  next hm =>
    refine .inr (.inl ⟨hm, ?_⟩)
    split at h
    next hlt => exact .inl ⟨hlt, h⟩
    next hge => cases h; exact .inr ⟨Nat.not_lt.mp hge, rfl⟩
  all_goals
    next hm =>
    cases h
    simp [hm]

theorem seqStep_of_pixels_left (hm : s.mode = .enc) (hidx : s.idx < s.npix) : seqStep s = encodeStep s := by
  simp only [seqStep, hm, if_pos hidx]

/-- How a turn of the sequencer ends: the invocation goes on, is done or faults, from a state that differs from `s` in what the
invocation writes only; in the other modes it waits. -/
theorem seqStep_ends (h : seqStep s = .next t) :
    (s.mode = .enc ∧ ∃ u, EncodeFrame s u ∧
      (t = u ∨ t = { u with outLen := u.pos, mode := .done } ∨ t = raiseCursor u)) ∨
    (s.mode = .dec ∧ ∃ u, OpcodeFrame s u ∧
      (t = u ∨ t = { u with mode := .done } ∨ ∃ k info, t = raise k info u)) ∨
    (s.mode ≠ .enc ∧ s.mode ≠ .dec ∧ t = s) := by
  rcases seqStep_cases h with ⟨hm, ⟨-, e⟩ | ⟨-, rfl⟩⟩ | ⟨hm, ⟨-, e⟩ | ⟨-, rfl⟩⟩ | hwait
  · refine .inl ⟨hm, ?_⟩
    obtain ⟨v, -, ht | ⟨u, hu, rfl⟩⟩ := encodeStep_cases e
    · exact ⟨t, { (State.afterPixel_frame _ v).trans ht.frame with }, .inl rfl⟩
    · exact ⟨u, hu, .inr (.inr rfl)⟩
  · refine .inl ⟨hm, ?_⟩
    rcases encodeFinish_cases s with ⟨u, hu, e⟩ | ⟨u, hu, e⟩
    · exact ⟨u, { hu.frame with }, .inr (.inl e)⟩
    · exact ⟨u, hu, .inr (.inr e)⟩
  · refine .inr (.inl ⟨hm, ?_⟩)
    rcases decodeStep_cases e with ⟨n, -, ht⟩ | ⟨k, info, n, rfl⟩
    · exact ⟨t, ht.frame, .inl rfl⟩
    · exact ⟨s.advance n, by constructor <;> rfl, .inr (.inr ⟨k, info, rfl⟩)⟩
  · refine .inr (.inl ⟨hm, s, by constructor <;> rfl, ?_⟩)
    rcases decodeFinish_cases s with ⟨-, e⟩ | ⟨-, e⟩
    · exact .inr (.inl e)
    · exact .inr (.inr ⟨_, _, e⟩)
  · exact .inr (.inr hwait)

end Sys2Proof.Machine
end

section
/-!
PROOF. The invariant (R42): each move keeps it, and it holds at reset.
-/
namespace Sys2Proof.Machine

variable {bs : List Byte} {s t u : State} {v : Pixel}

theorem Inv.memoriesWf (h : Inv s) : MemoriesWf s := ⟨h.streamWf, h.pixinWf, h.pixoutWf⟩

theorem Inv.code_eq_zero (h : Inv s) (hm : s.mode ≠ .fault) : s.fault.code = 0 :=
  not_not.mp (mt h.codeMeans.mpr hm)

/-- The invariant does not speak of the schedule. -/
theorem Inv.withHost (h : Inv s) (rest : List (Option HostEvent)) : Inv { s with host := rest } :=
  { h with encode := fun hm => { h.encode hm with }, decode := fun hm => { h.decode hm with } }

/-- Outside an invocation the invariant asks for canonical memories and a fault code that fits the mode. -/
theorem inv_of_not_busy (hwf : MemoriesWf t) (henc : t.mode ≠ .enc) (hdec : t.mode ≠ .dec)
    (hcode : t.mode = .fault ↔ t.fault.code ≠ 0) (hrange : t.fault.code.toNat ≤ 5) : Inv t where
  streamWf := hwf.1
  pixinWf := hwf.2.1
  pixoutWf := hwf.2.2
  codeMeans := hcode
  codeRange := hrange
  cache := fun hb => absurd (of_decide_eq_true hb) (not_or.mpr ⟨henc, hdec⟩)
  encode := fun hm => absurd hm henc
  decode := fun hm => absurd hm hdec

theorem inv_of_no_fault (hwf : MemoriesWf t) (hm : t.mode = .idle ∨ t.mode = .done) (hcode : t.fault.code = 0) : Inv t := by
  apply inv_of_not_busy hwf <;> rcases hm with hm | hm <;> simp [hm, hcode]

/-- Fault entry meets the invariant where it leaves the memories canonical. -/
theorem inv_raise {k : FaultKind} {n : Nat} (hwf : MemoriesWf (raise k n s)) : Inv (raise k n s) :=
  inv_of_not_busy hwf (by simp) (by simp) (by simpa using k.code_ne_zero) (by simpa using k.code_range.2)

/-! ### The cache (R42 (e)) -/

theorem cacheInv_init : CacheInv cacheInit := fun i => .inl (cacheInit_get i)

theorem CacheInv.set {table : Vector Pixel 64} (h : CacheInv table) (p : Pixel) :
    CacheInv (table.set (pixelHash p) p) := by
  intro i
  simp only [Fin.getElem_fin, Vector.getElem_set]
  split
  next hi => exact .inr (Fin.ext hi)
  next => exact h i

theorem CacheInv.afterPixel (h : CacheInv s.cache) (v : Pixel) : CacheInv (s.afterPixel v).cache := by
  show CacheInv (if v = s.prev ∨ s.cache[pixelHash v] = v then s.cache else s.cache.set (pixelHash v) v)
  split
  · exact h
  · exact h.set v

/-! ### An encode keeps it -/

/-- R42 (b), (c), (f): one more pixel is consumed, and the run is either one longer or over. -/
theorem EncodeInv.afterPixel (h : EncodeInv s) (hidx : s.idx < s.npix)
    (hv : Cells.get? s.pixin s.idx = some (pack v)) :
    EncodeInv (State.afterPixel { s with idx := s.idx + 1 } v) := by
  have hmax := h.run
  have hconsumed := h.runConsumed
  unfold State.afterPixel
  split
  next hrun =>
    obtain ⟨hprev, hsplit⟩ : v = s.prev ∧ s.run + 1 ≠ 8224 := hrun
    exact { h with
      run := show s.run + 1 ≤ 8223 by omega
      runConsumed := Nat.succ_le_succ hconsumed
      idx := hidx
      runPixels := fun k hk => by
        change k < s.run + 1 at hk
        show Cells.get? s.pixin (s.idx + 1 - 1 - k) = some (pack v)
        cases k with
        | zero => exact hv
        | succ k =>
          rw [show s.idx + 1 - 1 - (k + 1) = s.idx - 1 - k by omega, hprev]
          exact h.runPixels k (by omega) }
  next =>
    exact { h with
      run := Nat.zero_le _
      runConsumed := Nat.zero_le _
      idx := hidx
      runPixels := fun _ hk => absurd hk (Nat.not_lt_zero _) }

theorem EncodeInv.appended (h : EncodeInv s) (ha : Appended bs s t) : EncodeInv t := by
  have hwritten := ha.written h.written
  have hlow : 14 ≤ t.pos := ha.bytes.1 ▸ Nat.le_add_right_of_le h.posLow
  have hhigh := ha.fits h.posHigh
  rw [ha.only] at hwritten ⊢
  exact { h with posLow := hlow, posHigh := hhigh, written := hwritten }

theorem Inv.encode_next (h : Inv s) (hm : s.mode = .enc) (hf : EncodeFrame s t) (hstream : t.stream.wf)
    (hcache : CacheInv t.cache) (henc : EncodeInv t) : Inv t where
  streamWf := hstream
  pixinWf := hf.pixin ▸ h.pixinWf
  pixoutWf := hf.pixout ▸ h.pixoutWf
  codeMeans := by rw [hf.mode, hf.fault]; exact h.codeMeans
  codeRange := hf.fault ▸ h.codeRange
  cache := fun _ => hcache
  encode := fun _ => henc
  decode := fun hdec => by rw [hf.mode, hm] at hdec; cases hdec

/-- A fault in an encode: `STREAM` is unwritten, and the other memories are as they were. -/
theorem Inv.encode_raise (h : Inv s) (hm : s.mode = .enc) (hf : EncodeFrame s u) : Inv (raiseCursor u) := by
  obtain ⟨hpixout, -, -, -, -, -, hstream⟩ :=
    raise_of_not_dec (s := u) (by rw [hf.mode, hm]; decide) (if u.mode = .enc then .bufferOverflow else .outOfBounds) u.pos
  refine inv_raise ⟨?_, ?_, ?_⟩
  · rw [hstream]; exact List.Pairwise.nil
  · rw [raise_pixin, hf.pixin]; exact h.pixinWf
  · rw [hpixout, hf.pixout]; exact h.pixoutWf

theorem encodeStep_inv (h : Inv s) (hm : s.mode = .enc) (hidx : s.idx < s.npix) (e : encodeStep s = .next t) : Inv t := by
  obtain ⟨v, hv, ha | ⟨u, hu, rfl⟩⟩ := encodeStep_cases e
  · have hcache : CacheInv s.cache := h.cache (decide_eq_true (.inl hm))
    refine h.encode_next hm { (State.afterPixel_frame _ v).trans ha.frame with } (ha.canonical h.streamWf) ?_
      (((h.encode hm).afterPixel hidx hv).appended ha)
    rw [ha.only]
    exact CacheInv.afterPixel (s := { s with idx := s.idx + 1 }) hcache v
  · exact h.encode_raise hm hu

theorem encodeFinish_inv (h : Inv s) (hm : s.mode = .enc) : Inv (encodeFinish s) := by
  rcases encodeFinish_cases s with ⟨u, hu, e⟩ | ⟨u, hu, e⟩ <;> rw [e]
  · exact inv_of_no_fault
      ⟨hu.canonical h.streamWf, hu.frame.pixin ▸ h.pixinWf, hu.frame.pixout ▸ h.pixoutWf⟩ (.inr rfl)
      (hu.frame.fault ▸ h.code_eq_zero (by rw [hm]; decide))
  · exact h.encode_raise hm hu

/-! ### A decode keeps it -/

/-- R42 (a), (c), (d): the registers after one more opcode. -/
theorem DecodeInv.completes {n : Nat} (h : DecodeInv s) (hlim : s.pos + n + 4 ≤ s.lim) (ho : OpcodeCompletes n s t) :
    DecodeInv t := by
  have hpc : t.pixelCount = s.pixelCount := by rw [State.pixelCount, ho.frame.width, ho.frame.height]; rfl
  obtain ⟨p, len, hout, hbytes⟩ := ho.outputs
  have hlow := h.posLow
  refine ⟨?_, ?_, ?_, ?_, ?_, ?_, fun a => ?_⟩
  · rw [ho.frame.lim]; exact h.limLow
  · rw [ho.frame.lim, ho.frame.params]; exact h.limFits
  · rw [ho.pos]; omega
  · rw [ho.pos, ho.frame.lim]; omega
  · rw [hpc]; exact ho.room h.out
  · rw [hpc, ho.frame.params]; exact h.fits
  · rw [hbytes, hout]
    split
    next hin => simp [hin.2]
    next hout => rw [h.written]; omega

theorem decodeStep_inv (h : Inv s) (hm : s.mode = .dec) (e : decodeStep s = .next t) : Inv t := by
  rcases decodeStep_cases e with ⟨n, hlim, ho⟩ | ⟨k, info, n, rfl⟩
  · have hf := ho.frame
    have hcache : CacheInv s.cache := h.cache (decide_eq_true (.inr hm))
    exact {
      streamWf := hf.stream ▸ h.streamWf
      pixinWf := hf.pixin ▸ h.pixinWf
      pixoutWf := ho.canonical h.pixoutWf
      codeMeans := by rw [hf.mode, hf.fault]; exact h.codeMeans
      codeRange := hf.fault ▸ h.codeRange
      cache := fun _ => by
        rcases ho.cache with e | ⟨p, e⟩ <;> rw [e]
        · exact hcache
        · exact hcache.set p
      encode := fun henc => by rw [hf.mode, hm] at henc; cases henc
      decode := fun _ => (h.decode hm).completes hlim ho }
  · exact inv_raise (raise_wf (s := s.advance n) h.memoriesWf k info)

theorem decodeFinish_inv (h : Inv s) (hm : s.mode = .dec) : Inv (decodeFinish s) := by
  rcases decodeFinish_cases s with ⟨-, e⟩ | ⟨-, e⟩ <;> rw [e]
  · exact inv_of_no_fault h.memoriesWf (.inr rfl) (h.code_eq_zero (by rw [hm]; decide))
  · exact inv_raise (raise_wf h.memoriesWf _ _)

theorem seqStep_inv (h : Inv s) (e : seqStep s = .next t) : Inv t := by
  rcases seqStep_cases e with ⟨hm, ⟨hidx, e⟩ | ⟨-, rfl⟩⟩ | ⟨hm, ⟨-, e⟩ | ⟨-, rfl⟩⟩ | ⟨-, -, rfl⟩
  · exact encodeStep_inv h hm hidx e
  · exact encodeFinish_inv h hm
  · exact decodeStep_inv h hm e
  · exact decodeFinish_inv h hm
  · exact h

/-! ### The host's moves keep it -/

theorem written_nil {α : Type} (a : Nat) : (Cells.get? ([] : Cells α) a).isSome ↔ a < 0 := by simp

theorem startEnc_inv (h : Inv s) {w hgt : Word} {c cs : Byte} {n : Nat} (e : startEnc w hgt c cs n s = .next t) : Inv t := by
  rcases startEnc_cases e with rfl | ⟨hc, hn, hcap, ha⟩
  · exact inv_raise (raise_wf h.memoriesWf _ _)
  · have hpos : t.pos = 14 := ha.bytes.1
    have hwritten := ha.written written_nil
    have hstream := ha.canonical List.Pairwise.nil
    rw [ha.only] at hpos hwritten hstream ⊢
    exact {
      streamWf := hstream
      pixinWf := h.pixinWf
      pixoutWf := h.pixoutWf
      codeMeans := by simp [initEncode]
      codeRange := Nat.zero_le _
      cache := fun _ => cacheInv_init
      encode := fun _ =>
        { channels := hc, npix := hn, lim := rfl, limFits := hcap, posLow := hpos.ge
          posHigh := hpos.le.trans (Nat.le_trans (by decide) (encodeCap_ge w hgt c))
          run := Nat.zero_le _, runConsumed := Nat.zero_le _, idx := Nat.zero_le _
          runPixels := fun _ hk => absurd hk (Nat.not_lt_zero _), written := hwritten }
      decode := fun hm => by cases hm }

theorem startDec_inv (h : Inv s) {len : Nat} (e : startDec len s = .next t) : Inv t := by
  rcases startDec_cases e with ⟨hlow, hlen, hsize, rfl⟩ | ⟨k, info, rfl | rfl⟩
  · exact {
      streamWf := h.streamWf
      pixinWf := h.pixinWf
      pixoutWf := List.Pairwise.nil
      codeMeans := by simp [initDecode, State.loadHeader, openDecode]
      codeRange := Nat.zero_le _
      cache := fun _ => cacheInv_init
      encode := fun hm => by cases hm
      decode := fun _ =>
        { limLow := hlow, limFits := hlen, posLow := Nat.le_refl _, posHigh := Nat.le_max_left ..
          out := Nat.zero_le _, fits := hsize, written := written_nil } }
  · exact inv_raise (raise_wf (s := openDecode len s) h.memoriesWf k info)
  · exact inv_raise (raise_wf (s := (openDecode len s).loadHeader) h.memoriesWf k info)

theorem hostMove_inv (h : Inv s) {ev : HostEvent} (e : hostMove ev s = .next t) : Inv t := by
  cases ev with
  | startEnc w hgt c cs n => exact startEnc_inv h e
  | startDec len => exact startDec_inv h e
  | putStream addr bytes =>
    obtain ⟨⟨henc, hdec⟩, ht⟩ := putStream_cases e
    have hwf := putStream_wf h.memoriesWf e
    subst ht
    exact inv_of_not_busy hwf henc hdec h.codeMeans h.codeRange
  | putPixin idx words =>
    obtain ⟨⟨henc, hdec⟩, ht⟩ := putPixin_cases e
    have hwf := putPixin_wf h.memoriesWf e
    subst ht
    exact inv_of_not_busy hwf henc hdec h.codeMeans h.codeRange
  | powerOnReset =>
    cases e
    exact inv_of_no_fault (powerOnReset_wf s) (.inl rfl) rfl

/-- Settles O40: by who moves, each move keeping the invariant. -/
theorem stepKeepsInvariant : Obligations.StepKeepsInvariant := by
  intro s t h e
  obtain ⟨rest, hs | ⟨ev, hs⟩⟩ := step_cases s <;> rw [hs] at e
  · exact seqStep_inv (h.withHost rest) e
  · exact hostMove_inv (h.withHost rest) e

/-- Settles O39: in IDLE only the memories and the fault code matter. -/
theorem resetMeetsInvariant : Obligations.ResetMeetsInvariant :=
  inv_of_no_fault reset_wf (.inl rfl) rfl

end Sys2Proof.Machine
end

section
/-!
PROOF. The whole machine: what no step changes (R21, R35), the synchronisation of both sides (R43), the contexts of a block
(R20), the reset state (R40) and the host's read view (R38).
-/
namespace Sys2Proof.Machine

variable {s t : State}

/-! ### Parameters and modes -/

theorem seqStep_keeps_params (h : seqStep s = .next t) : t.params = s.params ∧ t.context = s.context := by
  rcases seqStep_ends h with ⟨-, u, hu, ht⟩ | ⟨-, u, hu, ht⟩ | ⟨-, -, rfl⟩
  · rw [← hu.params, ← hu.context]
    rcases ht with rfl | rfl | rfl <;> simp [raiseCursor]
  · rw [← hu.params, ← hu.context]
    rcases ht with rfl | rfl | ⟨k, info, rfl⟩ <;> simp
  · exact ⟨rfl, rfl⟩

theorem hostMove_keeps_params {ev : HostEvent} (h : hostMove ev s = .next t) :
    t.params = s.params ∧ t.context = s.context := by
  cases ev with
  | startEnc w hgt c cs n =>
    rcases startEnc_cases h with rfl | ⟨-, -, -, ha⟩
    · simp
    · exact ⟨ha.frame.params, ha.frame.context⟩
  | startDec len =>
    rcases startDec_cases h with ⟨-, -, -, rfl⟩ | ⟨k, info, rfl | rfl⟩
    · exact ⟨rfl, rfl⟩
    · exact ⟨raise_params .., raise_context ..⟩
    · exact ⟨raise_params .., raise_context ..⟩
  | putStream addr bytes =>
    obtain ⟨-, rfl⟩ := putStream_cases h
    exact ⟨rfl, rfl⟩
  | putPixin idx words =>
    obtain ⟨-, rfl⟩ := putPixin_cases h
    exact ⟨rfl, rfl⟩
  | powerOnReset =>
    cases h
    exact ⟨rfl, rfl⟩

/-- Settles O42: by who moves, from what each move can do. -/
theorem parametersNeverChange : Obligations.ParametersNeverChange := by
  intro s t h
  obtain ⟨rest, hs | ⟨ev, hs⟩⟩ := step_cases s <;> rw [hs] at h
  · exact seqStep_keeps_params (s := { s with host := rest }) h
  · exact hostMove_keeps_params (s := { s with host := rest }) h

/-- Settles O45: by how a turn of the sequencer ends. -/
theorem sequencerModeChanges : Obligations.SequencerModeChanges := by
  intro s t hhost h
  rw [step_of_idle_host hhost] at h
  rcases seqStep_ends h with ⟨hm, u, hu, ht⟩ | ⟨hm, u, hu, ht⟩ | ⟨henc, hdec, rfl⟩
  · refine ⟨fun _ => ?_, fun h => absurd (hm.symm.trans h) (by decide), fun h => absurd hm h⟩
    rcases ht with rfl | rfl | rfl
    · exact .inl (hu.mode.trans hm)
    · exact .inr (.inl rfl)
    · exact .inr (.inr (raiseCursor_mode u))
  · refine ⟨fun h => absurd (hm.symm.trans h) (by decide), fun _ => ?_, fun _ h => absurd hm h⟩
    rcases ht with rfl | rfl | ⟨k, info, rfl⟩
    · exact .inl (hu.mode.trans hm)
    · exact .inr (.inl rfl)
    · exact .inr (.inr (raise_mode k info u))
  · exact ⟨fun h => absurd h henc, fun h => absurd h hdec, fun _ _ => rfl⟩

/-! ### Encoder and decoder -/

/-- R149, R155: the exact delta, added to the old channel, gives the new one. -/
@[simp] theorem add8_channelDelta (new old : Byte) : add8 old (channelDelta new old) = new := by
  unfold add8 wrap8 channelDelta
  rw [add_sub_cancel, BitVec.ofInt_natCast, BitVec.ofNat_toNat, BitVec.setWidth_eq]

theorem channelDelta_eq_zero {new old : Byte} : channelDelta new old = 0 ↔ new = old := by
  unfold channelDelta
  rw [Int.sub_eq_zero, Int.natCast_inj, BitVec.toNat_inj]

theorem addDeltas_deltas (v p : Pixel) :
    addDeltas p (deltas v p).r (deltas v p).g (deltas v p).b (deltas v p).a = v := by
  simp [addDeltas, deltas]

/-- R82: the literals of COLOR are those of the channels that change. -/
theorem literalOf_getD (new old : Byte) : (literalOf (channelDelta new old) new).getD old = new := by
  unfold literalOf
  split
  next h => exact (channelDelta_eq_zero.mp h).symm
  next => rfl

/-- R138: DIFF8 and DIFF16 are for pixels whose alpha stays. -/
theorem Deltas.a_eq_zero_of_fits8 {d : Deltas} (h : d.fits8 = true) : d.a = 0 := by
  simp only [Deltas.fits8, Bool.and_eq_true, decide_eq_true_eq, and_assoc] at h
  exact h.1

theorem Deltas.a_eq_zero_of_fits16 {d : Deltas} (h : d.fits16 = true) : d.a = 0 := by
  simp only [Deltas.fits16, Bool.and_eq_true, decide_eq_true_eq, and_assoc] at h
  exact h.1

/-- R155: the decoder's meaning of the delta opcode for `v` is to output `v` and take it as `prev` and into the cache. -/
theorem exec_deltaOpcode (v : Pixel) (s : State) :
    ∃ n, exec (deltaOpcode (deltas v s.prev) v) s = .next (finishPixel v (s.advance n)).final := by
  have hadd := addDeltas_deltas v s.prev
  unfold deltaOpcode
  split
  next h8 =>
    rw [Deltas.a_eq_zero_of_fits8 h8] at hadd
    exact ⟨1, by simp only [exec, execDiff8, hadd]⟩
  split
  next h16 =>
    rw [Deltas.a_eq_zero_of_fits16 h16] at hadd
    exact ⟨2, by simp only [exec, execDiff16, hadd]⟩
  split
  · exact ⟨3, by simp only [exec, execDiff24, hadd]⟩
  · exact ⟨_, by simp only [exec, execColor, withLiterals, deltas, literalOf_getD]; rfl⟩

/-- R43, R114: where there is room, a decoder executes the opcode for a pixel by outputting it, and keeps `prev` and the cache
as an encoder with the same `prev` and cache does. -/
theorem exec_pixelOpcode (s : State) (v : Pixel) (hroom : s.out < s.pixelCount) :
    ∃ t, exec (pixelOpcode s v) s = .next t ∧ OutputsPixels v 1 s t ∧ t.prev = v ∧
      t.cache = if s.cache[pixelHash v] = v then s.cache else s.cache.set (pixelHash v) v := by
  unfold pixelOpcode
  split
  next hhit =>
    refine ⟨_, rfl, ?_⟩
    rcases emitPixel_cases s.cache[pixelHash v] (s.advance 1) with ⟨-, e⟩ | ⟨hfull, -⟩
    · rw [e, hhit]
      exact ⟨outputsPixels_put v 1 (s.advance 1), rfl, rfl⟩
    · exact absurd hroom (Nat.not_lt.mpr hfull)
  next =>
    obtain ⟨n, e⟩ := exec_deltaOpcode v s
    refine ⟨_, e, ?_⟩
    rcases finishPixel_cases v (s.advance n) with ⟨-, e⟩ | ⟨hfull, -⟩
    · rw [e]
      exact ⟨outputsPixels_put v 1 (s.advance n), rfl, rfl⟩
    · exact absurd hroom (Nat.not_lt.mpr hfull)

theorem pixelOpcode_congr {e d : State} (hprev : e.prev = d.prev) (hcache : e.cache = d.cache) (v : Pixel) :
    pixelOpcode e v = pixelOpcode d v := by
  rw [pixelOpcode, pixelOpcode, hprev, hcache]

/-- Settles O33: both sides make the pixel `prev` and put it into the cache on a miss. -/
theorem onePixelKeepsBothSidesEqual : Obligations.OnePixelKeepsBothSidesEqual := by
  intro e e' d v hprev hcache hhost hm hidx hpix hne hstep hm' hroom
  obtain ⟨d', hexec, hout, hdprev, hdcache⟩ := exec_pixelOpcode d v hroom
  obtain ⟨v', hpix', ha | ⟨u, -, rfl⟩⟩ := encodeStep_cases
    (s := e) (by rw [← seqStep_of_pixels_left hm hidx, ← step_of_idle_host hhost, hstep])
  · obtain rfl : v' = v := by
      rw [← unpack_pack v', ← unpack_pack v, Option.some.inj (hpix'.symm.trans hpix)]
    have heprev : e'.prev = v' := congrArg State.prev ha.only
    have hecache : e'.cache = if v' = e.prev ∨ e.cache[pixelHash v'] = v' then e.cache
        else e.cache.set (pixelHash v') v' := congrArg State.cache ha.only
    refine ⟨d', pixelOpcode_congr hprev hcache v' ▸ hexec, hout, hdprev.trans heprev.symm, ?_⟩
    rw [hdcache, hecache, hcache]
    simp only [hne, false_or]
  · rw [raiseCursor_mode] at hm'
    cases hm'

/-! ### Contexts -/

theorem Block.stepContext_cases {b b' : Block} {k : Nat} (h : Block.stepContext b k = .next b') :
    (b[k]? = none ∧ b' = b) ∨ ∃ s t, b[k]? = some s ∧ step s = .next t ∧ b' = b.set k t := by
  unfold Block.stepContext at h
  split at h
  next hk =>
    cases h
    exact .inl ⟨hk, rfl⟩
  next s hk =>
    split at h <;> cases h
    next t ht => exact .inr ⟨s, t, hk, ht, rfl⟩

/-- Settles O52: the one list update of a context's step, and that the step keeps the context's number. -/
theorem contextsShareNothing : Obligations.ContextsShareNothing := by
  refine ⟨fun b b' k h => ?_, fun nctx => ⟨by simp [Block.reset], fun k s hk => ?_⟩⟩
  · rcases Block.stepContext_cases h with ⟨hk, rfl⟩ | ⟨s, t, hk, ht, rfl⟩
    · exact ⟨rfl, fun _ _ => rfl, fun s hs => by simp [hk] at hs, id⟩
    · have hlt : k < b.length := (List.getElem?_eq_some_iff.mp hk).1
      have hself : (b.set k t)[k]? = some t := List.getElem?_set_self hlt
      refine ⟨List.length_set, fun j hj => List.getElem?_set_ne hj.symm, fun s' hs' => ?_, fun hnum j u hj => ?_⟩
      · rw [hk] at hs'
        cases hs'
        exact ⟨t, ht, hself⟩
      · by_cases hjk : j = k
        · subst hjk
          rw [hself] at hj
          cases hj
          exact (parametersNeverChange s t ht).2.trans (hnum j s hk)
        · rw [List.getElem?_set_ne (Ne.symm hjk)] at hj
          exact hnum j u hj
  · obtain ⟨hlt, hs⟩ := List.getElem?_eq_some_iff.mp hk
    rw [← hs]
    simp [Block.reset]

/-! ### Reset and the read view -/

/-- Settles O38: the two registers R40 gives a value. -/
theorem resetIsIdle : Obligations.ResetIsIdle := ⟨rfl, rfl⟩

/-- Besides `fault.code` a register can be read in DONE only, and `fault.at` in FAULT only (R38). -/
theorem hostRead_eq_none {last : Direction} {r : HostReg} (hcode : r ≠ .faultCode) (hat : r = .faultAt → s.mode ≠ .fault)
    (hdone : s.mode ≠ .done) : hostRead last r s = none := by
  cases r with
  | faultCode => exact absurd rfl hcode
  | faultAt => exact if_neg (hat rfl)
  | width | height | channels | cspace => exact if_neg hdone
  | outLen | out => exact if_neg fun h => hdone h.1
  | prev | run | cache | pos | idx | lim => rfl

/-- Settles O49: by the mode, register by register. -/
theorem hostReadsByMode : Obligations.HostReadsByMode := by
  refine fun last s => ⟨rfl, fun r hr hm => ?_, fun hm => ⟨if_pos hm, fun r hcode hat => ?_⟩, fun hm => ?_,
    fun _ => rfl, rfl, rfl, rfl, rfl, rfl⟩
  · rcases hm with hm | hm | hm <;> exact hostRead_eq_none hr (by simp [hm]) (by simp [hm])
  · exact hostRead_eq_none hcode (fun h => absurd h hat) (by simp [hm])
  · simp [hostRead, hm]

end Sys2Proof.Machine
end

section
/-!
PROOF. The memories (spec/20_memory.md): who writes `STREAM`, `PIXIN` and `PIXOUT` and when (R45 to R49, R61, R63), the order of
bytes and pixels (R50 to R52, R58), and what `START_DEC` finds wrong in a placed stream (R177 to R179, R202).
-/
namespace Sys2Proof.Machine

variable {s t : State}

/-! ### Bytes placed in STREAM -/

theorem streamByte_eq_of_get? {a : Nat} {b : Byte} (h : Cells.get? s.stream a = some b) : s.streamByte a = b := by
  rw [State.streamByte, h, Option.getD_some]

/-- Four placed bytes read as their big-endian join (R50). -/
theorem streamWord_eq_of_get? {a : Nat} {bytes : Nat → Byte}
    (h : ∀ k, k < 4 → Cells.get? s.stream (a + k) = some (bytes (a + k))) :
    s.streamWord a = bytes a ++ bytes (a + 1) ++ bytes (a + 2) ++ bytes (a + 3) := by
  have byte : ∀ k, k < 4 → s.streamByte (a + k) = bytes (a + k) := fun k hk => streamByte_eq_of_get? (h k hk)
  rw [State.streamWord, byte 1 (by decide), byte 2 (by decide), byte 3 (by decide)]
  exact congrArg (· ++ _ ++ _ ++ _) (byte 0 (by decide))

/-- An appended byte reads back from its place. -/
theorem AppendsBytes.streamByte {bs : List Byte} (h : AppendsBytes bs s t) {k : Nat} (hk : k < bs.length) :
    t.streamByte (s.pos + k) = bs[k] := by
  apply streamByte_eq_of_get?
  rw [h.2, if_pos (by omega), Nat.add_sub_cancel_left, List.getElem?_eq_getElem hk]

theorem AppendsBytes.streamByte_first {bs : List Byte} (h : AppendsBytes bs s t) (hne : 0 < bs.length) :
    t.streamByte s.pos = bs[0] := h.streamByte hne

/-- An appended word reads back from its place (R50, R97, R101). -/
theorem AppendsBytes.streamWord {v : Word} (h : AppendsBytes (be32 v) s t) : t.streamWord s.pos = v :=
  calc t.streamWord s.pos
    _ = v.extractLsb' 24 8 ++ v.extractLsb' 16 8 ++ v.extractLsb' 8 8 ++ v.extractLsb' 0 8 := by
      rw [State.streamWord, h.streamByte_first (by simp), h.streamByte (k := 1) (by simp),
        h.streamByte (k := 2) (by simp), h.streamByte (k := 3) (by simp)]
      rfl
    _ = v := join32 v

/-- Settles O53: the write appends the word's four bytes, and the read joins them. -/
theorem writtenWordReadsBack : Obligations.WrittenWordReadsBack := by
  intro v s hroom
  have ha := appendsBytes_put (be32 v) s
  refine ⟨_, cursorWrite_of_room hroom, ha.1,
    ⟨_, (readU32_at (s := { s with stream := Cells.put s.stream s.pos (be32 v) }) rfl hroom).trans
      (congrArg (Res.ok · _) ha.streamWord), rfl⟩, ?_, ?_, fun a h => ?_⟩
  · rw [ha.streamByte_first (by simp)]
    have := v.isLt
    simp only [be32, List.getElem_cons_zero, BitVec.extractLsb'_toNat, Nat.shiftRight_eq_div_pow]
    omega
  · rw [ha.streamByte (k := 3) (by simp)]
    simp [be32]
  · rw [ha.2, be32_length, if_neg (by omega)]

/-! ### START_DEC on a placed stream -/

theorem busy_iff : s.busy = true ↔ s.mode = .enc ∨ s.mode = .dec := decide_eq_true_iff

/-- No invocation runs, whatever is scheduled. -/
theorem not_busy_withHost (henc : s.mode ≠ .enc) (hdec : s.mode ≠ .dec) (rest : List (Option HostEvent)) :
    ¬ ({ s with host := rest } : State).busy = true := fun h => (busy_iff.mp h).elim henc hdec

theorem startDec_too_large {len : Nat} (hfree : ¬ s.busy = true) (h : s.params.streamMax < len) :
    startDec len s = .refused .streamTooLarge := by
  rw [startDec, if_neg (mt busy_iff.mpr hfree), if_pos h]

section NotRefused

variable {len : Nat} (hfree : ¬ s.busy = true) (hmax : len ≤ s.params.streamMax)
include hfree hmax

/-- A start that is not refused reads the header and checks it (R177). -/
theorem startDec_not_refused :
    startDec len s = .next ((readHeader (openDecode len s)).andThen fun m s =>
      (checkHeader m s).andThen fun _ s => .ok () (initDecode s)).final := by
  rw [startDec, if_neg (mt busy_iff.mpr hfree), if_neg (Nat.not_lt.mpr hmax)]

/-- A stream shorter than a header is reported whatever it holds (R178). -/
theorem startDec_short (hlen : len < 14) : startDec len s = .next (raise .outOfBounds 0 (openDecode len s)) := by
  rw [startDec_not_refused hfree hmax]
  rcases readHeader_cases (s := openDecode len s) rfl with ⟨-, e⟩ | ⟨hlow, -⟩
  · rw [e]; rfl
  · exact absurd hlen (Nat.not_lt.mpr hlow)

/-- Of a whole header only the check is left (R178, R179). -/
theorem startDec_header (hlen : 14 ≤ len) :
    startDec len s = .next ((checkHeader ((openDecode len s).streamWord 0) (openDecode len s).loadHeader).andThen
      fun _ s => .ok () (initDecode s)).final := by
  rw [startDec_not_refused hfree hmax]
  rcases readHeader_cases (s := openDecode len s) rfl with ⟨hlow, -⟩ | ⟨-, e⟩
  · exact absurd hlow (Nat.not_lt.mpr hlen)
  · rw [e, Res.andThen_ok]

theorem startDec_wrong_magic (hlen : 14 ≤ len) (hmagic : (openDecode len s).streamWord 0 ≠ s.params.magic.word) :
    startDec len s = .next (raise .malformedHeader 0 (openDecode len s).loadHeader) := by
  have hcheck : checkHeader ((openDecode len s).streamWord 0) (openDecode len s).loadHeader =
      .raised (raise .malformedHeader 0 (openDecode len s).loadHeader) := if_pos hmagic
  rw [startDec_header hfree hmax hlen, hcheck, Res.andThen_raised, Res.final_raised]

theorem startDec_too_many_pixels (hlen : 14 ≤ len) (hmagic : (openDecode len s).streamWord 0 = s.params.magic.word)
    (hsize : s.params.pixbufMax < 4 * (openDecode len s).loadHeader.pixelCount) :
    startDec len s = .next (raise .dimensionMismatch (4 * (openDecode len s).loadHeader.pixelCount)
      (openDecode len s).loadHeader) := by
  have hcheck : checkHeader ((openDecode len s).streamWord 0) (openDecode len s).loadHeader =
      .raised (raise .dimensionMismatch (4 * (openDecode len s).loadHeader.pixelCount) (openDecode len s).loadHeader) :=
    (if_neg (not_not.mpr hmagic)).trans (if_pos hsize)
  rw [startDec_header hfree hmax hlen, hcheck, Res.andThen_raised, Res.final_raised]

end NotRefused

theorem faulted_raise (k : FaultKind) (n : Nat) (s : State) : Faulted k n (raise k n s) :=
  ⟨raise_mode k n s, raise_fault k n s⟩

/-- Settles O21: in the order of the checks, the header's words read from the bytes the host placed. -/
theorem startDecReportsInOrder : Obligations.StartDecReportsInOrder := by
  intro len s rest hdr henc hdec start
  have hstep : step start = startDec len { s with host := rest } := step_hostMove s (.startDec len) rest
  have hfree := not_busy_withHost henc hdec rest
  rw [hstep]
  refine ⟨startDec_too_large hfree, fun hmax hplaced => ?_⟩
  have word : 14 ≤ len → ∀ a, a + 4 ≤ 14 → (openDecode len { s with host := rest }).streamWord a =
      hdr a ++ hdr (a + 1) ++ hdr (a + 2) ++ hdr (a + 3) := fun hlen a ha =>
    streamWord_eq_of_get? fun k hk => hplaced (a + k) (by omega) (by omega)
  refine ⟨fun hshort => ?_, fun hlen hmagic => ?_, fun hlen hmagic hsize => ?_⟩
  · exact ⟨_, startDec_short hfree hmax hshort, raise_host .., faulted_raise ..⟩
  · rw [← word hlen 0 (by decide)] at hmagic
    exact ⟨_, startDec_wrong_magic hfree hmax hlen hmagic, raise_host .., faulted_raise ..⟩
  · have hcount : (openDecode len { s with host := rest }).loadHeader.pixelCount =
        (hdr 4 ++ hdr 5 ++ hdr 6 ++ hdr 7).toNat * (hdr 8 ++ hdr 9 ++ hdr 10 ++ hdr 11).toNat :=
      congrArg₂ (fun w h : Word => w.toNat * h.toNat) (word hlen 4 (by decide)) (word hlen 8 (by decide))
    rw [← word hlen 0 (by decide)] at hmagic
    rw [← hcount] at hsize ⊢
    exact ⟨_, startDec_too_many_pixels hfree hmax hlen hmagic hsize, raise_host .., faulted_raise ..⟩

/-! ### Who writes which buffer -/

/-- Settles O44: by how a turn of the sequencer ends; a fault unwrites the running direction's own buffer only. -/
theorem sequencerWritesItsOwnBufferOnly : Obligations.SequencerWritesItsOwnBufferOnly := by
  intro s t hhost h
  rw [step_of_idle_host hhost] at h
  rcases seqStep_ends h with ⟨hm, u, hu, ht⟩ | ⟨hm, u, hu, ht⟩ | ⟨-, -, rfl⟩
  · have hfault := raise_of_not_dec (s := u) (by simp [hu.mode, hm])
    obtain ⟨hpixin, hpixout⟩ : t.pixin = u.pixin ∧ t.pixout = u.pixout := by
      rcases ht with rfl | rfl | rfl
      · exact ⟨rfl, rfl⟩
      · exact ⟨rfl, rfl⟩
      · exact ⟨raise_pixin .., (hfault _ _).1⟩
    exact ⟨hpixin.trans hu.pixin, fun h => absurd (hm.symm.trans h) (by decide), fun _ => hpixout.trans hu.pixout⟩
  · have hfault := raise_of_dec (hu.mode.trans hm)
    obtain ⟨hpixin, hstream⟩ : t.pixin = u.pixin ∧ t.stream = u.stream := by
      rcases ht with rfl | rfl | ⟨k, info, rfl⟩
      · exact ⟨rfl, rfl⟩
      · exact ⟨rfl, rfl⟩
      · exact ⟨raise_pixin .., (hfault k info).1⟩
    exact ⟨hpixin.trans hu.pixin, fun _ => hstream.trans hu.stream, fun h => absurd (hm.symm.trans h) (by decide)⟩
  · exact ⟨rfl, fun _ => rfl, fun _ => rfl⟩

/-- Settles O48: the guards of the two moves in order, and what every address holds after a write. -/
theorem hostFillsBuffersOutsideInvocations : Obligations.HostFillsBuffersOutsideInvocations := by
  intro s rest addr bytes words fillStream fillPixin
  have hstream : step fillStream = putStream addr bytes { s with host := rest } := rfl
  have hpixin : step fillPixin = putPixin addr words { s with host := rest } := rfl
  rw [hstream, hpixin]
  refine ⟨fun hm => ?_, fun henc hdec => ?_⟩
  · exact ⟨if_pos (busy_iff.mpr hm), if_pos (busy_iff.mpr hm)⟩
  · have hfree := not_busy_withHost henc hdec rest
    rw [putStream, putPixin, if_neg hfree, if_neg hfree]
    exact ⟨fun hfits => ⟨_, if_neg (Nat.not_lt.mpr hfits), Cells.get?_put s.stream addr bytes⟩,
      fun hbeyond => if_pos hbeyond, _, rfl, Cells.get?_put s.pixin addr words⟩

/-! ### The host's read view -/

theorem hostReadPixout_eq_none {last : Direction} (h : ¬ (s.mode = .done ∧ last = .decode)) (a : Nat) :
    hostReadPixout last a s = none := if_neg fun ⟨hm, hl, _⟩ => h ⟨hm, hl⟩

theorem hostReadPixel_eq_none {last : Direction} (h : ¬ (s.mode = .done ∧ last = .decode)) (i : Nat) :
    hostReadPixel last i s = none := by
  rw [hostReadPixel, hostReadPixout_eq_none h]

/-- Settles O50: byte by byte within the result; every other read fails its guard. -/
theorem hostReadsPackedPixels : Obligations.HostReadsPackedPixels := by
  refine ⟨fun s i p hm hi hbytes => ⟨?_, hostReadPixel_eq_none (by simp) i⟩,
    fun s a hm => ⟨fun ha => ?_, fun ha => ?_, ?_⟩, fun last s a hm => ⟨?_, ?_, ?_⟩⟩
  · have byte : ∀ k, k < 4 → hostReadPixout .decode (4 * i + k) s = some (channelAt p k) := fun k hk =>
      (if_pos ⟨hm, rfl, by omega⟩).trans (hbytes k hk)
    have byte0 : hostReadPixout .decode (4 * i) s = some (channelAt p 0) := byte 0 (by decide)
    rw [hostReadPixel, byte0, byte 1 (by decide), byte 2 (by decide), byte 3 (by decide)]
    rfl
  · exact if_pos ⟨hm, rfl, ha⟩
  · exact if_neg fun ⟨_, _, hlt⟩ => Nat.not_lt.mpr ha hlt
  · exact if_neg (by simp)
  · exact if_neg fun ⟨hd, _⟩ => hm hd
  · exact hostReadPixout_eq_none (fun ⟨hd, _⟩ => hm hd) a
  · exact hostReadPixel_eq_none (fun ⟨hd, _⟩ => hm hd) a

/-! ### The row-major index -/

theorem pixelIndex_mod {w : Word} {x : Nat} (hx : x < w.toNat) (y : Nat) : pixelIndex w x y % w.toNat = x := by
  rw [pixelIndex, Nat.mul_add_mod', Nat.mod_eq_of_lt hx]

theorem pixelIndex_div {w : Word} {x : Nat} (hx : x < w.toNat) (y : Nat) : pixelIndex w x y / w.toNat = y := by
  rw [pixelIndex, Nat.mul_comm, Nat.mul_add_div (by omega), Nat.div_eq_of_lt hx, Nat.add_zero]

/-- Settles O51: quotient and remainder by the width are the coordinates. -/
theorem rowMajorIndexIsOneToOne : Obligations.RowMajorIndexIsOneToOne := by
  refine fun w h => ⟨fun x y hx hy => ?_, fun x y x' y' hx hx' e => ⟨?_, ?_⟩, fun i hi => ?_⟩
  · calc pixelIndex w x y
      _ < (y + 1) * w.toNat := by rw [pixelIndex, Nat.succ_mul]; omega
      _ ≤ h.toNat * w.toNat := Nat.mul_le_mul_right _ hy
      _ = w.toNat * h.toNat := Nat.mul_comm ..
  · rw [← pixelIndex_mod hx y, e, pixelIndex_mod hx']
  · rw [← pixelIndex_div hx y, e, pixelIndex_div hx']
  · have hw : 0 < w.toNat := Nat.pos_of_mul_pos_right (Nat.zero_lt_of_lt hi)
    exact ⟨i % w.toNat, i / w.toNat, Nat.mod_lt _ hw, Nat.div_lt_of_lt_mul hi, Nat.div_add_mod' i w.toNat⟩

end Sys2Proof.Machine
end

section
/-!
PROOF. The opcode formats (R70 to R91 of spec/30_encoding.md): the first-byte map, the fields of each opcode in numbers, and that
decoding and encoding invert each other.
-/
namespace Sys2Proof

open Machine (toNat_append_eq_mul_add)

/-! ### The first-byte map (R71, R90) -/

/-- R90: the lowest first byte of a kind. -/
def Kind.first : Kind → Nat
  | .index => 0x00
  | .run8 => 0x40
  | .run16 => 0x60
  | .diff8 => 0x80
  | .diff16 => 0xC0
  | .diff24 => 0xE0
  | .color => 0xF0

/-- R90: the highest first byte of a kind. -/
def Kind.last : Kind → Nat
  | .index => 0x3F
  | .run8 => 0x5F
  | .run16 => 0x7F
  | .diff8 => 0xBF
  | .diff16 => 0xDF
  | .diff24 => 0xEF
  | .color => 0xFF

/-- R71: the bits of a first byte that tell the kind. -/
def Kind.mask : Kind → Byte
  | .index => 0xC0
  | .run8 => 0xE0
  | .run16 => 0xE0
  | .diff8 => 0xC0
  | .diff16 => 0xE0
  | .diff24 => 0xF0
  | .color => 0xF0

/-- Masking the low `n` bits away leaves the quotient by `2 ^ n`. -/
theorem and_highMask_eq_iff {m n : Nat} (b : BitVec (m + n)) (p : BitVec m) :
    b &&& (BitVec.allOnes m ++ 0#n) = p ++ 0#n ↔ b.toNat / 2 ^ n = p.toNat := by
  have hsplit : b &&& (BitVec.allOnes m ++ 0#n) = b.extractLsb' n m ++ 0#n := by
    apply BitVec.eq_of_getLsbD_eq
    intro i hi
    by_cases h : i < n
    · simp [BitVec.getLsbD_append, h]
    · simp [BitVec.getLsbD_append, h, show i - n < m by omega, Nat.add_sub_of_le (Nat.le_of_not_lt h)]
  have hquot : b.toNat / 2 ^ n < 2 ^ m := Nat.div_lt_of_lt_mul (b.isLt.trans_eq (by rw [Nat.pow_add, Nat.mul_comm]))
  rw [hsplit, ← BitVec.toNat_inj, toNat_append_eq_mul_add, toNat_append_eq_mul_add, BitVec.extractLsb'_toNat,
    Nat.shiftRight_eq_div_pow, Nat.mod_eq_of_lt hquot, Nat.add_right_cancel_iff,
    Nat.mul_left_inj (Nat.two_pow_pos n).ne']

theorem masked_iff_range (b : Byte) (k : Kind) :
    b &&& k.mask = BitVec.ofNat 8 k.first ↔ k.first ≤ b.toNat ∧ b.toNat ≤ k.last := by
  have hb := b.isLt
  cases k with
  | index => exact (and_highMask_eq_iff (n := 6) b 0b00#2).trans (by simp [Kind.first, Kind.last]; omega)
  | run8 => exact (and_highMask_eq_iff (n := 5) b 0b010#3).trans (by simp [Kind.first, Kind.last]; omega)
  | run16 => exact (and_highMask_eq_iff (n := 5) b 0b011#3).trans (by simp [Kind.first, Kind.last]; omega)
  | diff8 => exact (and_highMask_eq_iff (n := 6) b 0b10#2).trans (by simp [Kind.first, Kind.last]; omega)
  | diff16 => exact (and_highMask_eq_iff (n := 5) b 0b110#3).trans (by simp [Kind.first, Kind.last]; omega)
  | diff24 => exact (and_highMask_eq_iff (n := 4) b 0b1110#4).trans (by simp [Kind.first, Kind.last]; omega)
  | color => exact (and_highMask_eq_iff (n := 4) b 0b1111#4).trans (by simp [Kind.first, Kind.last]; omega)

/-- Every first byte lies in the range of its kind; COLOR's is what the other six leave. -/
theorem kind_range (b : Byte) : (kind b).first ≤ b.toNat ∧ b.toNat ≤ (kind b).last := by
  have hrange := masked_iff_range b
  unfold kind
  split_ifs with h1 h2 h3 h4 h5 h6
  · exact (hrange .index).mp h1
  · exact (hrange .run8).mp h2
  · exact (hrange .run16).mp h3
  · exact (hrange .diff8).mp h4
  · exact (hrange .diff16).mp h5
  · exact (hrange .diff24).mp h6
  · have hb := b.isLt
    have h1 := mt (hrange .index).mpr h1
    have h2 := mt (hrange .run8).mpr h2
    have h3 := mt (hrange .run16).mpr h3
    have h4 := mt (hrange .diff8).mpr h4
    have h5 := mt (hrange .diff16).mpr h5
    have h6 := mt (hrange .diff24).mpr h6
    simp only [Kind.first, Kind.last] at *
    omega

/-- The ranges exclude each other. -/
theorem Kind.eq_of_range {k l : Kind} {n : Nat} (hk : k.first ≤ n ∧ n ≤ k.last) (hl : l.first ≤ n ∧ n ≤ l.last) : k = l := by
  have hle : k.first ≤ l.last ∧ l.first ≤ k.last := ⟨hk.1.trans hl.2, hl.1.trans hk.2⟩
  clear hk hl
  revert hle
  cases k <;> cases l <;> decide

theorem kind_iff_range (b : Byte) (k : Kind) : kind b = k ↔ k.first ≤ b.toNat ∧ b.toNat ≤ k.last :=
  ⟨fun h => h ▸ kind_range b, Kind.eq_of_range (kind_range b)⟩

theorem kind_iff_masked (b : Byte) (k : Kind) : kind b = k ↔ b &&& k.mask = BitVec.ofNat 8 k.first :=
  (kind_iff_range b k).trans (masked_iff_range b k).symm

/-- Settles O2: each kind is its masked comparison. -/
theorem firstByteKindsPartition : Obligations.FirstByteKindsPartition := fun b =>
  ⟨kind_iff_masked b .index, kind_iff_masked b .run8, kind_iff_masked b .run16, kind_iff_masked b .diff8,
    kind_iff_masked b .diff16, kind_iff_masked b .diff24, kind_iff_masked b .color⟩

/-! ### Lengths (R72) -/

/-- A bit of a byte in numbers. -/
theorem toNat_getLsbD {w : Nat} (b : BitVec w) (i : Nat) : (b.getLsbD i).toNat = b.toNat / 2 ^ i % 2 :=
  Nat.toNat_testBit b.toNat i

theorem flagCount_eq (b : Byte) : flagCount b = b.toNat / 8 % 2 + b.toNat / 4 % 2 + b.toNat / 2 % 2 + b.toNat % 2 := by
  simp only [flagCount, toNat_getLsbD, Nat.reducePow, Nat.div_one]

theorem ncont_le_four (b : Byte) : ncont b ≤ 4 := by
  unfold ncont
  split
  case h_7 => rw [flagCount_eq]; omega
  all_goals decide

theorem instrOf_kind (b : Byte) (cs : List Byte) : (instrOf b cs).kind = kind b := by
  unfold instrOf
  split <;> exact Eq.symm ‹_›

/-- Settles O3: the length is `ncont` of the first byte, which depends on its kind and the flags alone. -/
theorem lengthFromFirstByte : Obligations.LengthFromFirstByte := by
  intro b
  refine ⟨?_, ?_, ?_, ?_, ?_, ?_, ?_, fun cs => ⟨instrOf_kind b cs, Machine.instrOf_length b cs⟩⟩
  · rintro (h | h | h) <;> simp [oplen, ncont, h]
  · rintro (h | h) <;> simp [oplen, ncont, h]
  · intro h
    simp [oplen, ncont, h]
  · intro h
    simp [oplen, ncont, h, flagCount_eq]
  · rw [oplen, Nat.add_sub_cancel_left]
  · exact Nat.le_add_right 1 _
  · exact Nat.add_le_add_left (ncont_le_four b) 1

/-! ### Bytes that decode -/

/-- The decoder takes a first byte and its continuation bytes, and leaves the rest. -/
theorem decode_eq_ok_iff {bytes rest : List Byte} {i : Instr} :
    decode bytes = .ok (i, rest) ↔ ∃ b cs, bytes = b :: (cs ++ rest) ∧ cs.length = ncont b ∧ i = instrOf b cs := by
  constructor
  · intro h
    match bytes with
    | [] => cases h
    | b :: tail =>
      rw [decode] at h
      split at h
      next => cases h
      next hlen =>
        cases h
        exact ⟨b, tail.take (ncont b), by rw [List.take_append_drop], List.length_take_of_le (Nat.le_of_not_lt hlen), rfl⟩
  · rintro ⟨b, cs, rfl, hlen, rfl⟩
    simp [decode, ← hlen]

/-- Settles O7: the first byte and its continuation bytes are what the decoder takes. -/
theorem decodeRefusesOnlyMissingBytes : Obligations.DecodeRefusesOnlyMissingBytes := by
  intro bytes
  constructor
  · rintro ⟨i, rest, h⟩
    obtain ⟨b, cs, rfl, hlen, -⟩ := decode_eq_ok_iff.mp h
    exact ⟨b, cs ++ rest, rfl, by rw [List.length_append, hlen]; exact Nat.le_add_right ..⟩
  · rintro ⟨b, tail, rfl, hlen⟩
    exact ⟨_, _, if_neg (Nat.not_lt.mpr hlen)⟩

/-! ### The decoder for each kind -/

section OneKind
variable {b : Byte} (rest : List Byte)

theorem decode_index (h : kind b = .index) : decode (b :: rest) = .ok (unpackIndex b, rest) := by
  simp [decode, ncont, instrOf, h]

theorem decode_run8 (h : kind b = .run8) : decode (b :: rest) = .ok (unpackRun8 b, rest) := by
  simp [decode, ncont, instrOf, h]

theorem decode_run16 (h : kind b = .run16) (c : Byte) : decode (b :: c :: rest) = .ok (unpackRun16 (b ++ c), rest) := by
  simp [decode, ncont, instrOf, h]

theorem decode_diff8 (h : kind b = .diff8) : decode (b :: rest) = .ok (unpackDiff8 b, rest) := by
  simp [decode, ncont, instrOf, h]

theorem decode_diff16 (h : kind b = .diff16) (c : Byte) : decode (b :: c :: rest) = .ok (unpackDiff16 (b ++ c), rest) := by
  simp [decode, ncont, instrOf, h]

theorem decode_diff24 (h : kind b = .diff24) (c d : Byte) :
    decode (b :: c :: d :: rest) = .ok (unpackDiff24 (b ++ c ++ d), rest) := by
  simp [decode, ncont, instrOf, h]

theorem decode_color (h : kind b = .color) {lits : List Byte} (hlen : lits.length = flagCount b) :
    decode (b :: (lits ++ rest)) = .ok (unpackColor b lits, rest) := by
  simp [decode, ncont, instrOf, h, ← hlen]

end OneKind

/-! ### Bytes and fields in numbers -/

theorem toNat_extractLsb'_eq {w : Nat} (x : BitVec w) (k len : Nat) :
    (x.extractLsb' k len).toNat = x.toNat / 2 ^ k % 2 ^ len := by
  rw [BitVec.extractLsb'_toNat, Nat.shiftRight_eq_div_pow]

theorem extractLsb'_eq_of_toNat {w len k : Nat} {x : BitVec w} {f : BitVec len}
    (h : x.toNat / 2 ^ k % 2 ^ len = f.toNat) : x.extractLsb' k len = f :=
  BitVec.eq_of_toNat_eq ((toNat_extractLsb'_eq x k len).trans h)

theorem be16_append (b c : Byte) : be16 (b ++ c) = [b, c] := by
  rw [be16, extract_high, extract_low]

theorem be24_append (b c d : Byte) : be24 (b ++ c ++ d) = [b, c, d] := by
  have hb : (b ++ c ++ d).extractLsb' 16 8 = b := (extract_inside (k := 8) (b ++ c) d).trans (extract_high b c)
  have hc : (b ++ c ++ d).extractLsb' 8 8 = c := (extract_inside (k := 0) (b ++ c) d).trans (extract_low b c)
  rw [be24, hb, hc, extract_low]

theorem inRange_iff {lo hi d : Int} : inRange lo hi d = true ↔ lo ≤ d ∧ d ≤ hi := by
  rw [inRange, Bool.and_eq_true, decide_eq_true_eq, decide_eq_true_eq]

/-- R80: what a field of `w` bits can hold. -/
theorem unbias_inRange {w : Nat} (bias : Nat) (f : BitVec w) :
    inRange (-bias) (((2 ^ w : Nat) : Int) - 1 - bias) (unbias bias f) = true := by
  have hf : (f.toNat : Int) < ((2 ^ w : Nat) : Int) := Int.ofNat_lt.mpr f.isLt
  rw [inRange_iff, unbias]
  omega

/-- R80: a delta in the range of its field comes back. -/
theorem unbias_biased_of_inRange {w bias : Nat} {d : Int} (h : inRange (-bias) (((2 ^ w : Nat) : Int) - 1 - bias) d = true) :
    unbias bias (biased w bias d) = d := by
  rw [inRange_iff] at h
  push_cast at h
  exact unbias_biased (by omega) (by omega)

theorem packIndex_toNat (i : Slot) : (packIndex i).toNat = i.val := by
  simp only [packIndex, toNat_append_eq_mul_add, BitVec.toNat_ofNat]
  omega

theorem packRun8_toNat (len : Nat) : (packRun8 len).toNat = 0x40 + (len - 1) % 32 := by
  simp only [packRun8, toNat_append_eq_mul_add, BitVec.toNat_ofNat]
  omega

theorem packRun16_toNat (len : Nat) : (packRun16 len).toNat = 0x6000 + (len - 33) % 8192 := by
  simp only [packRun16, toNat_append_eq_mul_add, BitVec.toNat_ofNat]
  omega

theorem packDiff8_toNat (dr dg db : Int) :
    (packDiff8 dr dg db).toNat =
      0x80 + (biased 2 2 dr).toNat * 16 + (biased 2 2 dg).toNat * 4 + (biased 2 2 db).toNat := by
  simp only [packDiff8, toNat_append_eq_mul_add, BitVec.toNat_ofNat]
  omega

theorem packDiff16_toNat (dr dg db : Int) :
    (packDiff16 dr dg db).toNat =
      0xC000 + (biased 5 16 dr).toNat * 256 + (biased 4 8 dg).toNat * 16 + (biased 4 8 db).toNat := by
  simp only [packDiff16, toNat_append_eq_mul_add, BitVec.toNat_ofNat]
  omega

theorem packDiff24_toNat (dr dg db da : Int) :
    (packDiff24 dr dg db da).toNat =
      0xE00000 + (biased 5 16 dr).toNat * 32768 + (biased 5 16 dg).toNat * 1024 + (biased 5 16 db).toNat * 32 +
        (biased 5 16 da).toNat := by
  simp only [packDiff24, toNat_append_eq_mul_add, BitVec.toNat_ofNat]
  omega

theorem packColorTag_toNat (hr hg hb ha : Bool) :
    (packColorTag hr hg hb ha).toNat = 0xF0 + hr.toNat * 8 + hg.toNat * 4 + hb.toNat * 2 + ha.toNat := by
  simp only [packColorTag, toNat_append_eq_mul_add, BitVec.toNat_ofNat, BitVec.toNat_ofBool]
  omega

/-! ### Decoding an encoded opcode -/

theorem unpackIndex_packIndex (i : Slot) : unpackIndex (packIndex i) = .index i := by
  refine congrArg Instr.index (Fin.ext ?_)
  rw [BitVec.val_toFin, toNat_extractLsb'_eq, packIndex_toNat]
  omega

theorem unpackRun8_packRun8 {len : Nat} (h : (Instr.run8 len).wf = true) : unpackRun8 (packRun8 len) = .run8 len := by
  simp only [Instr.wf, Bool.and_eq_true, decide_eq_true_eq] at h
  refine congrArg Instr.run8 ?_
  rw [toNat_extractLsb'_eq, packRun8_toNat]
  omega

theorem unpackRun16_packRun16 {len : Nat} (h : (Instr.run16 len).wf = true) : unpackRun16 (packRun16 len) = .run16 len := by
  simp only [Instr.wf, Bool.and_eq_true, decide_eq_true_eq] at h
  refine congrArg Instr.run16 ?_
  rw [toNat_extractLsb'_eq, packRun16_toNat]
  omega

theorem unpackDiff8_packDiff8 {dr dg db : Int} (h : (Instr.diff8 dr dg db).wf = true) :
    unpackDiff8 (packDiff8 dr dg db) = .diff8 dr dg db := by
  simp only [Instr.wf, Bool.and_eq_true] at h
  obtain ⟨⟨hr, hg⟩, hb⟩ := h
  have hpack := packDiff8_toNat dr dg db
  rw [unpackDiff8, extractLsb'_eq_of_toNat (f := biased 2 2 dr) (by omega),
    extractLsb'_eq_of_toNat (f := biased 2 2 dg) (by omega), extractLsb'_eq_of_toNat (f := biased 2 2 db) (by omega),
    unbias_biased_of_inRange hr, unbias_biased_of_inRange hg, unbias_biased_of_inRange hb]

theorem unpackDiff16_packDiff16 {dr dg db : Int} (h : (Instr.diff16 dr dg db).wf = true) :
    unpackDiff16 (packDiff16 dr dg db) = .diff16 dr dg db := by
  simp only [Instr.wf, Bool.and_eq_true] at h
  obtain ⟨⟨hr, hg⟩, hb⟩ := h
  have hpack := packDiff16_toNat dr dg db
  rw [unpackDiff16, extractLsb'_eq_of_toNat (f := biased 5 16 dr) (by omega),
    extractLsb'_eq_of_toNat (f := biased 4 8 dg) (by omega), extractLsb'_eq_of_toNat (f := biased 4 8 db) (by omega),
    unbias_biased_of_inRange hr, unbias_biased_of_inRange hg, unbias_biased_of_inRange hb]

theorem unpackDiff24_packDiff24 {dr dg db da : Int} (h : (Instr.diff24 dr dg db da).wf = true) :
    unpackDiff24 (packDiff24 dr dg db da) = .diff24 dr dg db da := by
  simp only [Instr.wf, Bool.and_eq_true] at h
  obtain ⟨⟨⟨hr, hg⟩, hb⟩, ha⟩ := h
  have hpack := packDiff24_toNat dr dg db da
  rw [unpackDiff24, extractLsb'_eq_of_toNat (f := biased 5 16 dr) (by omega),
    extractLsb'_eq_of_toNat (f := biased 5 16 dg) (by omega), extractLsb'_eq_of_toNat (f := biased 5 16 db) (by omega),
    extractLsb'_eq_of_toNat (f := biased 5 16 da) (by omega),
    unbias_biased_of_inRange hr, unbias_biased_of_inRange hg, unbias_biased_of_inRange hb, unbias_biased_of_inRange ha]

theorem packColorTag_flags (hr hg hb ha : Bool) :
    (packColorTag hr hg hb ha).getLsbD 3 = hr ∧ (packColorTag hr hg hb ha).getLsbD 2 = hg ∧
    (packColorTag hr hg hb ha).getLsbD 1 = hb ∧ (packColorTag hr hg hb ha).getLsbD 0 = ha := by
  decide +revert

theorem takeLiteral_toList (c : Option Byte) (lits : List Byte) : takeLiteral c.isSome (c.toList ++ lits) = (c, lits) := by
  cases c <;> rfl

theorem unpackColor_packColorTag (r g b a : Option Byte) :
    unpackColor (packColorTag r.isSome g.isSome b.isSome a.isSome) (r.toList ++ g.toList ++ b.toList ++ a.toList) =
      .color r g b a := by
  obtain ⟨hr, hg, hb, ha⟩ := packColorTag_flags r.isSome g.isSome b.isSome a.isSome
  rw [← List.append_nil (_ ++ a.toList)]
  simp only [unpackColor, hr, hg, hb, ha, List.append_assoc, takeLiteral_toList]

theorem kind_packIndex (i : Slot) : kind (packIndex i) = .index := by
  rw [kind_iff_range, packIndex_toNat]
  exact ⟨Nat.zero_le _, Nat.le_of_lt_succ i.isLt⟩

theorem kind_packRun8 (len : Nat) : kind (packRun8 len) = .run8 := by
  simp only [kind_iff_range, packRun8_toNat, Kind.first, Kind.last]
  omega

theorem kind_packRun16 (len : Nat) : kind ((packRun16 len).extractLsb' 8 8) = .run16 := by
  simp only [kind_iff_range, toNat_extractLsb'_eq, packRun16_toNat, Kind.first, Kind.last]
  omega

theorem kind_packDiff8 (dr dg db : Int) : kind (packDiff8 dr dg db) = .diff8 := by
  simp only [kind_iff_range, packDiff8_toNat, Kind.first, Kind.last]
  omega

theorem kind_packDiff16 (dr dg db : Int) : kind ((packDiff16 dr dg db).extractLsb' 8 8) = .diff16 := by
  simp only [kind_iff_range, toNat_extractLsb'_eq, packDiff16_toNat, Kind.first, Kind.last]
  omega

theorem kind_packDiff24 (dr dg db da : Int) : kind ((packDiff24 dr dg db da).extractLsb' 16 8) = .diff24 := by
  simp only [kind_iff_range, toNat_extractLsb'_eq, packDiff24_toNat, Kind.first, Kind.last]
  omega

theorem kind_packColorTag (hr hg hb ha : Bool) : kind (packColorTag hr hg hb ha) = .color := by
  have hr := hr.toNat_lt
  have hg := hg.toNat_lt
  have hb := hb.toNat_lt
  have ha := ha.toNat_lt
  simp only [kind_iff_range, packColorTag_toNat, Kind.first, Kind.last]
  omega

theorem flagCount_packColorTag (hr hg hb ha : Bool) :
    flagCount (packColorTag hr hg hb ha) = hr.toNat + hg.toNat + hb.toNat + ha.toNat := by
  obtain ⟨h3, h2, h1, h0⟩ := packColorTag_flags hr hg hb ha
  rw [flagCount, h3, h2, h1, h0]

theorem length_toList_eq_toNat (c : Option Byte) : c.toList.length = c.isSome.toNat := by
  cases c <;> rfl

/-- Settles O5: the first byte of the encoding has the opcode's kind, and each field comes back. -/
theorem encodeThenDecode : Obligations.EncodeThenDecode := by
  intro i rest h
  cases i with
  | index i => exact (decode_index rest (kind_packIndex i)).trans (by rw [unpackIndex_packIndex])
  | run8 len => exact (decode_run8 rest (kind_packRun8 len)).trans (by rw [unpackRun8_packRun8 h])
  | run16 len => exact (decode_run16 rest (kind_packRun16 len) _).trans (by rw [join16, unpackRun16_packRun16 h])
  | diff8 dr dg db => exact (decode_diff8 rest (kind_packDiff8 dr dg db)).trans (by rw [unpackDiff8_packDiff8 h])
  | diff16 dr dg db =>
    exact (decode_diff16 rest (kind_packDiff16 dr dg db) _).trans (by rw [join16, unpackDiff16_packDiff16 h])
  | diff24 dr dg db da =>
    exact (decode_diff24 rest (kind_packDiff24 dr dg db da) _ _).trans (by rw [join24, unpackDiff24_packDiff24 h])
  | color r g b a =>
    refine (decode_color rest (kind_packColorTag ..) ?_).trans (by rw [unpackColor_packColorTag])
    simp only [flagCount_packColorTag, List.length_append, length_toList_eq_toNat]

/-! ### Encoding a decoded opcode -/

section Reencode
variable {b c d : Byte}

theorem encode_unpackIndex (h : kind b = .index) : encode (unpackIndex b) = [b] := by
  have hb : b.toNat ≤ 0x3F := ((kind_iff_range b .index).mp h).2
  refine congrArg (fun x => [x]) (BitVec.eq_of_toNat_eq ?_)
  rw [packIndex_toNat, BitVec.val_toFin, toNat_extractLsb'_eq]
  omega

theorem encode_unpackRun8 (h : kind b = .run8) : encode (unpackRun8 b) = [b] := by
  have hb : 0x40 ≤ b.toNat ∧ b.toNat ≤ 0x5F := (kind_iff_range b .run8).mp h
  refine congrArg (fun x => [x]) (BitVec.eq_of_toNat_eq ?_)
  rw [packRun8_toNat, toNat_extractLsb'_eq]
  omega

theorem encode_unpackRun16 (h : kind b = .run16) : encode (unpackRun16 (b ++ c)) = [b, c] := by
  have hb : 0x60 ≤ b.toNat ∧ b.toNat ≤ 0x7F := (kind_iff_range b .run16).mp h
  refine (congrArg be16 (BitVec.eq_of_toNat_eq ?_)).trans (be16_append b c)
  rw [packRun16_toNat, toNat_extractLsb'_eq, toNat_append_eq_mul_add]
  omega

theorem encode_unpackDiff8 (h : kind b = .diff8) : encode (unpackDiff8 b) = [b] := by
  have hb : 0x80 ≤ b.toNat ∧ b.toNat ≤ 0xBF := (kind_iff_range b .diff8).mp h
  refine congrArg (fun x => [x]) (BitVec.eq_of_toNat_eq ?_)
  simp only [packDiff8_toNat, biased_unbias, toNat_extractLsb'_eq]
  omega

theorem encode_unpackDiff16 (h : kind b = .diff16) : encode (unpackDiff16 (b ++ c)) = [b, c] := by
  have hb : 0xC0 ≤ b.toNat ∧ b.toNat ≤ 0xDF := (kind_iff_range b .diff16).mp h
  refine (congrArg be16 (BitVec.eq_of_toNat_eq ?_)).trans (be16_append b c)
  simp only [packDiff16_toNat, biased_unbias, toNat_extractLsb'_eq, toNat_append_eq_mul_add]
  omega

theorem encode_unpackDiff24 (h : kind b = .diff24) : encode (unpackDiff24 (b ++ c ++ d)) = [b, c, d] := by
  have hb : 0xE0 ≤ b.toNat ∧ b.toNat ≤ 0xEF := (kind_iff_range b .diff24).mp h
  refine (congrArg be24 (BitVec.eq_of_toNat_eq ?_)).trans (be24_append b c d)
  simp only [packDiff24_toNat, biased_unbias, toNat_extractLsb'_eq, toNat_append_eq_mul_add]
  omega

theorem packColorTag_of_flags (h : kind b = .color) :
    packColorTag (b.getLsbD 3) (b.getLsbD 2) (b.getLsbD 1) (b.getLsbD 0) = b := by
  have hb : 0xF0 ≤ b.toNat ∧ b.toNat ≤ 0xFF := (kind_iff_range b .color).mp h
  refine BitVec.eq_of_toNat_eq ?_
  simp only [packColorTag_toNat, toNat_getLsbD]
  omega

end Reencode

/-- R79: a channel takes a literal exactly when it is flagged, and what it takes comes before what it leaves. -/
theorem takeLiteral_spec {flag : Bool} {lits : List Byte} {n : Nat} (h : lits.length = flag.toNat + n) :
    ∃ c rest, takeLiteral flag lits = (c, rest) ∧ c.isSome = flag ∧ c.toList ++ rest = lits ∧ rest.length = n := by
  cases flag with
  | false => exact ⟨none, lits, rfl, rfl, rfl, h.trans (Nat.zero_add n)⟩
  | true =>
    obtain ⟨v, rest, rfl⟩ := List.exists_cons_of_length_eq_add_one (h.trans (Nat.add_comm 1 n))
    exact ⟨some v, rest, rfl, rfl, rfl, Nat.succ.inj (h.trans (Nat.add_comm 1 n))⟩

/-- R79: the literals go to the flagged channels in r, g, b, a order. -/
theorem unpackColor_spec {b : Byte} {lits : List Byte} (hlen : lits.length = flagCount b) :
    ∃ r g bl a, unpackColor b lits = .color r g bl a ∧
      r.isSome = b.getLsbD 3 ∧ g.isSome = b.getLsbD 2 ∧ bl.isSome = b.getLsbD 1 ∧ a.isSome = b.getLsbD 0 ∧
      r.toList ++ g.toList ++ bl.toList ++ a.toList = lits := by
  simp only [flagCount, Nat.add_assoc] at hlen
  obtain ⟨r, lits1, er, hr, rfl, hlen1⟩ := takeLiteral_spec hlen
  obtain ⟨g, lits2, eg, hg, rfl, hlen2⟩ := takeLiteral_spec hlen1
  obtain ⟨bl, lits3, ebl, hbl, rfl, hlen3⟩ := takeLiteral_spec hlen2
  obtain ⟨a, lits4, ea, ha, rfl, hlen4⟩ := takeLiteral_spec (n := 0) hlen3
  refine ⟨r, g, bl, a, by simp only [unpackColor, er, eg, ebl, ea], hr, hg, hbl, ha, ?_⟩
  simp only [List.eq_nil_of_length_eq_zero hlen4, List.append_assoc, List.append_nil]

theorem encode_unpackColor {b : Byte} {lits : List Byte} (h : kind b = .color) (hlen : lits.length = flagCount b) :
    encode (unpackColor b lits) = b :: lits := by
  obtain ⟨r, g, bl, a, e, hr, hg, hb, ha, hlits⟩ := unpackColor_spec hlen
  rw [e, encode, hr, hg, hb, ha, packColorTag_of_flags h, hlits]

/-- R84: every bit of the bytes comes back. -/
theorem encode_instrOf {b : Byte} {cs : List Byte} (hlen : cs.length = ncont b) : encode (instrOf b cs) = b :: cs := by
  unfold ncont at hlen
  unfold instrOf
  split at hlen
  next h =>
    obtain rfl := List.eq_nil_of_length_eq_zero hlen
    exact encode_unpackIndex h
  next h =>
    obtain rfl := List.eq_nil_of_length_eq_zero hlen
    exact encode_unpackRun8 h
  next h =>
    obtain ⟨c, rfl⟩ := List.length_eq_one_iff.mp hlen
    exact encode_unpackRun16 h
  next h =>
    obtain rfl := List.eq_nil_of_length_eq_zero hlen
    exact encode_unpackDiff8 h
  next h =>
    obtain ⟨c, rfl⟩ := List.length_eq_one_iff.mp hlen
    exact encode_unpackDiff16 h
  next h =>
    obtain ⟨c, d, rfl⟩ := List.length_eq_two.mp hlen
    exact encode_unpackDiff24 h
  next h => exact encode_unpackColor h hlen

theorem instrOf_wf (b : Byte) (cs : List Byte) : (instrOf b cs).wf = true := by
  unfold instrOf
  split
  · rfl
  · have hlen := (b.extractLsb' 0 5).isLt
    simp only [unpackRun8, Instr.wf, Bool.and_eq_true, decide_eq_true_eq]
    omega
  · have hlen := ((b ++ cs.headD 0).extractLsb' 0 13).isLt
    simp only [unpackRun16, Instr.wf, Bool.and_eq_true, decide_eq_true_eq]
    omega
  · simp only [unpackDiff8, Instr.wf, Bool.and_eq_true]
    exact ⟨⟨unbias_inRange 2 _, unbias_inRange 2 _⟩, unbias_inRange 2 _⟩
  · simp only [unpackDiff16, Instr.wf, Bool.and_eq_true]
    exact ⟨⟨unbias_inRange 16 _, unbias_inRange 8 _⟩, unbias_inRange 8 _⟩
  · simp only [unpackDiff24, Instr.wf, Bool.and_eq_true]
    exact ⟨⟨⟨unbias_inRange 16 _, unbias_inRange 16 _⟩, unbias_inRange 16 _⟩, unbias_inRange 16 _⟩
  · rfl

/-- Settles O6: the bytes read are the first byte and its continuation bytes, and both come back. -/
theorem decodeThenEncode : Obligations.DecodeThenEncode := by
  intro bytes rest i h
  obtain ⟨b, cs, rfl, hlen, rfl⟩ := decode_eq_ok_iff.mp h
  exact ⟨instrOf_wf b cs, by rw [encode_instrOf hlen, List.cons_append]⟩

/-! ### The first-byte map in numbers (R90, R147) -/

theorem unpackIndex_eq {b : Byte} (hb : b.toNat < 64) : unpackIndex b = .index ⟨b.toNat, hb⟩ := by
  refine congrArg Instr.index (Fin.ext ?_)
  rw [BitVec.val_toFin, toNat_extractLsb'_eq]
  change b.toNat / 2 ^ 0 % 2 ^ 6 = b.toNat
  omega

theorem unpackRun8_eq {b : Byte} (h : kind b = .run8) : unpackRun8 b = .run8 (b.toNat - 0x40 + 1) := by
  have hb : 0x40 ≤ b.toNat ∧ b.toNat ≤ 0x5F := (kind_iff_range b .run8).mp h
  refine congrArg (fun n => Instr.run8 (n + 1)) ?_
  rw [toNat_extractLsb'_eq]
  omega

theorem unpackRun16_eq {b : Byte} (h : kind b = .run16) (c : Byte) :
    unpackRun16 (b ++ c) = .run16 ((b.toNat - 0x60) * 256 + c.toNat + 33) := by
  have hb : 0x60 ≤ b.toNat ∧ b.toNat ≤ 0x7F := (kind_iff_range b .run16).mp h
  refine congrArg (fun n => Instr.run16 (n + 33)) ?_
  rw [toNat_extractLsb'_eq, toNat_append_eq_mul_add]
  omega

theorem unpackDiff8_eq (b : Byte) :
    unpackDiff8 b = .diff8 ((b.toNat / 16 % 4 : Nat) - 2) ((b.toNat / 4 % 4 : Nat) - 2) ((b.toNat % 4 : Nat) - 2) := by
  simp only [unpackDiff8, unbias, toNat_extractLsb'_eq, Nat.reducePow, Nat.div_one, Nat.cast_ofNat]

theorem unpackDiff16_eq (b c : Byte) :
    unpackDiff16 (b ++ c) =
      .diff16 ((b.toNat % 32 : Nat) - 16) ((c.toNat / 16 : Nat) - 8) ((c.toNat % 16 : Nat) - 8) := by
  have hr : ((b ++ c).extractLsb' 8 5).toNat = b.toNat % 32 := by
    rw [toNat_extractLsb'_eq, toNat_append_eq_mul_add]
    omega
  have hg : ((b ++ c).extractLsb' 4 4).toNat = c.toNat / 16 := by
    rw [toNat_extractLsb'_eq, toNat_append_eq_mul_add]
    omega
  have hb : ((b ++ c).extractLsb' 0 4).toNat = c.toNat % 16 := by
    rw [toNat_extractLsb'_eq, toNat_append_eq_mul_add]
    omega
  simp only [unpackDiff16, unbias, hr, hg, hb, Nat.cast_ofNat]

theorem unpackDiff24_eq (v : U24) :
    unpackDiff24 v = .diff24 ((v.toNat / 32768 % 32 : Nat) - 16) ((v.toNat / 1024 % 32 : Nat) - 16)
      ((v.toNat / 32 % 32 : Nat) - 16) ((v.toNat % 32 : Nat) - 16) := by
  simp only [unpackDiff24, unbias, toNat_extractLsb'_eq, Nat.reducePow, Nat.div_one, Nat.cast_ofNat]

/-- Settles O4: the range gives the kind, and the fields in numbers are the map's. -/
theorem firstByteMapGivesFields : Obligations.FirstByteMapGivesFields := by
  intro b b1 b2
  refine ⟨fun hb => ?_, fun hb => ?_, fun hb => ?_, fun hb => ?_, fun hb => ?_, fun hb => ?_, fun hb lits hlen => ?_⟩
  · have hk := (kind_iff_range b .index).mpr ⟨Nat.zero_le _, hb⟩
    exact ⟨⟨b.toNat, Nat.lt_succ_of_le hb⟩, rfl, by rw [decode_index [] hk, unpackIndex_eq]⟩
  · have hk := (kind_iff_range b .run8).mpr hb
    rw [decode_run8 [] hk, unpackRun8_eq hk]
  · have hk := (kind_iff_range b .run16).mpr hb
    rw [decode_run16 [] hk, unpackRun16_eq hk]
  · rw [decode_diff8 [] ((kind_iff_range b .diff8).mpr hb), unpackDiff8_eq]
  · rw [decode_diff16 [] ((kind_iff_range b .diff16).mpr hb), unpackDiff16_eq]
  · have hw : (b ++ b1 ++ b2).toNat = b.toNat * 65536 + b1.toNat * 256 + b2.toNat := by
      simp only [toNat_append_eq_mul_add]
      omega
    rw [decode_diff24 [] ((kind_iff_range b .diff24).mpr hb), unpackDiff24_eq, hw]
  · have hk := (kind_iff_range b .color).mpr ⟨hb, Nat.le_of_lt_succ b.isLt⟩
    have hflags : lits.length = flagCount b := by rw [hlen, ncont, hk]
    obtain ⟨r, g, bl, a, e, hspec⟩ := unpackColor_spec hflags
    refine ⟨r, g, bl, a, ?_, hspec⟩
    rw [← e, ← decode_color [] hk hflags, List.append_nil]

/-- Settles O1: the seven words. -/
theorem sampleWordsDecode : Obligations.SampleWordsDecode := ⟨rfl, rfl, rfl, rfl, rfl, rfl, rfl⟩

end Sys2Proof
end

section
/-!
PROOF. The opcode the encoder selects for a pixel is canonical (R85).
-/
namespace Sys2Proof.Machine

/-- R155: an exact delta does not wrap. -/
theorem noWrap_channelDelta (new old : Byte) : NoWrap old (channelDelta new old) := by
  have hnew := new.isLt
  unfold NoWrap channelDelta
  omega

/-- R82: no literal repeats the old value. -/
theorem literalOf_ne_old (new old : Byte) : literalOf (channelDelta new old) new ≠ some old := by
  unfold literalOf
  split
  next => exact nofun
  next h => exact fun e => h (channelDelta_eq_zero.mpr (Option.some.inj e))

theorem withLiterals_literalOf (v p : Pixel) :
    withLiterals p (literalOf (deltas v p).r v.r) (literalOf (deltas v p).g v.g) (literalOf (deltas v p).b v.b)
      (literalOf (deltas v p).a v.a) = v := by
  simp only [withLiterals, deltas, literalOf_getD]

theorem Deltas.fits8_eq (d : Deltas) : d.fits8 = (decide (d.a = 0) && (Instr.diff8 d.r d.g d.b).wf) := by
  simp only [Deltas.fits8, Instr.wf, Bool.and_assoc]

theorem Deltas.fits16_eq (d : Deltas) : d.fits16 = (decide (d.a = 0) && (Instr.diff16 d.r d.g d.b).wf) := by
  simp only [Deltas.fits16, Instr.wf, Bool.and_assoc]

/-- R139: which delta opcode is chosen, with the narrower ones that do not fit. -/
theorem deltaOpcode_cases (d : Deltas) (v : Pixel) :
    (d.a = 0 ∧ deltaOpcode d v = .diff8 d.r d.g d.b) ∨
    (d.a = 0 ∧ (Instr.diff8 d.r d.g d.b).wf = false ∧ deltaOpcode d v = .diff16 d.r d.g d.b) ∨
    ((d.a = 0 → (Instr.diff16 d.r d.g d.b).wf = false) ∧ deltaOpcode d v = .diff24 d.r d.g d.b d.a) ∨
    ((Instr.diff24 d.r d.g d.b d.a).wf = false ∧
      deltaOpcode d v = .color (literalOf d.r v.r) (literalOf d.g v.g) (literalOf d.b v.b) (literalOf d.a v.a)) := by
  unfold deltaOpcode
  split_ifs with h8 h16 h24
  · exact .inl ⟨d.a_eq_zero_of_fits8 h8, rfl⟩
  · have ha := d.a_eq_zero_of_fits16 h16
    exact .inr (.inl ⟨ha, by simpa [Deltas.fits8_eq, ha] using h8, rfl⟩)
  · exact .inr (.inr (.inl ⟨fun ha => by simpa [Deltas.fits16_eq, ha] using h16, rfl⟩))
  · exact .inr (.inr (.inr ⟨Bool.eq_false_iff.mpr h24, rfl⟩))

/-- R167: INDEX on a hit, else the delta opcode. -/
theorem pixelOpcode_cases (s : State) (v : Pixel) :
    (s.cache[pixelHash v] = v ∧ pixelOpcode s v = .index (pixelHash v)) ∨
    (s.cache[pixelHash v] ≠ v ∧ pixelOpcode s v = deltaOpcode (deltas v s.prev) v) := by
  unfold pixelOpcode
  split_ifs with h
  · exact .inl ⟨h, rfl⟩
  · exact .inr ⟨h, rfl⟩

/-- Settles O32: by the opcode selected. -/
theorem encoderOpcodesAreCanonical : Obligations.EncoderOpcodesAreCanonical := by
  intro s v hne
  have hr := noWrap_channelDelta v.r s.prev.r
  have hg := noWrap_channelDelta v.g s.prev.g
  have hb := noWrap_channelDelta v.b s.prev.b
  have hadd := addDeltas_deltas v s.prev
  rcases pixelOpcode_cases s v with ⟨hhit, e⟩ | ⟨hmiss, e⟩
  · rw [e]
    refine ⟨iff_of_true rfl hhit, nofun, nofun, fun i hi => ?_, nofun, nofun, nofun, nofun⟩
    cases hi
    exact ⟨rfl, hhit, fun hv => hv ▸ pixelHash_slotInit⟩
  rcases deltaOpcode_cases (deltas v s.prev) v with ⟨ha, ed⟩ | ⟨ha, h8, ed⟩ | ⟨h16, ed⟩ | ⟨h24, ed⟩ <;> rw [e, ed]
  · refine ⟨iff_of_false nofun hmiss, nofun, nofun, nofun, fun dr dg db h => ?_, nofun, nofun, nofun⟩
    rcases h with h | h <;> cases h
    exact ⟨hr, hg, hb, channelDelta_eq_zero.mp ha, ha ▸ hadd⟩
  · refine ⟨iff_of_false nofun hmiss, nofun, nofun, nofun, fun dr dg db h => ?_, fun dr dg db h => ?_, nofun, nofun⟩
    · rcases h with h | h <;> cases h
      exact ⟨hr, hg, hb, channelDelta_eq_zero.mp ha, ha ▸ hadd⟩
    · cases h
      exact h8
  · refine ⟨iff_of_false nofun hmiss, nofun, nofun, nofun, nofun, nofun, fun dr dg db da h => ?_, nofun⟩
    cases h
    exact ⟨hr, hg, hb, noWrap_channelDelta v.a s.prev.a, hadd, h16⟩
  · refine ⟨iff_of_false nofun hmiss, nofun, nofun, nofun, nofun, nofun, nofun, fun r g b a h => ?_⟩
    have hv := withLiterals_literalOf v s.prev
    cases h
    refine ⟨fun ⟨er, eg, eb, ea⟩ => ?_, literalOf_ne_old v.r s.prev.r, literalOf_ne_old v.g s.prev.g,
      literalOf_ne_old v.b s.prev.b, literalOf_ne_old v.a s.prev.a, hv, h24⟩
    rw [er, eg, eb, ea] at hv
    exact hne hv.symm

end Sys2Proof.Machine
end

section
/-!
PROOF. The cursor at the end of its buffer (spec/40_bytecursor.md): an access of which any byte would pass `lim` has no effect but the
fault (R103, R104, R106).
-/
namespace Sys2Proof.Machine

variable {s : State}

@[simp] theorem raiseCursor_lim (s : State) : (raiseCursor s).lim = s.lim := raise_lim ..

theorem cursorRead_of_full {α : Type} {n : Nat} (value : (Nat → Byte) → α) (h : s.lim < s.pos + n) :
    cursorRead n value s = .raised (raiseCursor s) := if_pos h

theorem cursorWrite_of_full {bs : List Byte} (h : s.lim < s.pos + bs.length) :
    cursorWrite bs s = .raised (raiseCursor s) := if_pos h

/-- R106 (a). -/
theorem faulted_raiseCursor_enc (h : s.mode = .enc) : Faulted .bufferOverflow s.pos (raiseCursor s) :=
  raiseCursor_enc h ▸ faulted_raise ..

/-- R106 (b). -/
theorem faulted_raiseCursor_dec (h : s.mode = .dec) : Faulted .outOfBounds s.pos (raiseCursor s) :=
  raiseCursor_not_enc (s := s) (by simp [h]) ▸ faulted_raise ..

/-- Settles O54: each of the nine operations is one access of `n` bytes, and every full access ends in the same state. -/
theorem cursorFailsWhole : Obligations.CursorFailsWhole := by
  intro n s hfull
  refine ⟨raiseCursor s, raiseCursor_pos s, raiseCursor_lim s, faulted_raiseCursor_enc, faulted_raiseCursor_dec, ?_, ?_, ?_, ?_⟩
  all_goals rintro rfl
  · exact ⟨cursorRead_of_full _ hfull, fun _ => cursorWrite_of_full hfull, fun _ => cursorWrite_of_full hfull⟩
  · exact ⟨cursorRead_of_full _ hfull, fun _ => cursorWrite_of_full hfull⟩
  · exact ⟨cursorRead_of_full _ hfull, fun _ => cursorWrite_of_full hfull⟩
  · exact ⟨cursorRead_of_full _ hfull, fun _ => cursorWrite_of_full hfull⟩

end Sys2Proof.Machine
end

section
/-!
PROOF. The colour cache (spec/41_color_cache.md): the hash (R110, R111), two pixels that share a slot (R118), and what INDEX outputs
(R117).
-/
namespace Sys2Proof.Machine

variable {s : State}

/-! ### The hash -/

/-- R110, in numbers. -/
theorem pixelHash_val (p : Pixel) : (pixelHash p).val = (p.r ^^^ p.g ^^^ p.b ^^^ p.a).toNat % 64 := by
  simp [pixelHash]

/-- The hash reads its pixel through the xor of the channels only. -/
theorem pixelHash_eq_of_xor_eq {r g b a r' g' b' a' : Byte} (h : r ^^^ g ^^^ b ^^^ a = r' ^^^ g' ^^^ b' ^^^ a') :
    pixelHash ⟨r, g, b, a⟩ = pixelHash ⟨r', g', b', a'⟩ := congrArg (fun x : Byte => (x.extractLsb' 0 6).toFin) h

/-- A xor with a multiple of 64 leaves the six bits that name a slot. -/
theorem low_six_xor_of_mod_eq_zero {x : Byte} (hx : x.toNat % 64 = 0) (y : Byte) :
    (y ^^^ x).extractLsb' 0 6 = y.extractLsb' 0 6 := by
  have hlow : x.extractLsb' 0 6 = 0#6 := BitVec.eq_of_toNat_eq (by simpa [BitVec.extractLsb'_toNat] using hx)
  rw [BitVec.extractLsb'_xor, hlow, BitVec.xor_zero]

/-- R111: bits 7 and 6 of a channel do not count. -/
theorem pixelHash_xor_high_bits {x : Byte} (hx : x.toNat % 64 = 0) (r g b a : Byte) :
    pixelHash ⟨r ^^^ x, g, b, a⟩ = pixelHash ⟨r, g, b, a⟩ := by
  have hmove : r ^^^ x ^^^ g ^^^ b ^^^ a = (r ^^^ g ^^^ b ^^^ a) ^^^ x := by ac_rfl
  simp only [pixelHash, hmove, low_six_xor_of_mod_eq_zero hx]

/-- Settles O56: the hash sees the xor of the channels alone, and every initial slot holds a pixel of hash 0. -/
theorem hashIsLowSixBitsOfXor : Obligations.HashIsLowSixBitsOfXor := by
  refine ⟨pixelHash_val, fun r g b a => ?_, fun r g b a x hx => pixelHash_xor_high_bits hx r g b a,
    pixelHash_prevInit, fun i => ?_⟩
  · exact ⟨pixelHash_eq_of_xor_eq (by ac_rfl), pixelHash_eq_of_xor_eq (by ac_rfl), pixelHash_eq_of_xor_eq (by ac_rfl)⟩
  · rw [cacheInit_get, pixelHash_slotInit, eq_comm]

/-! ### Two pixels of one slot -/

/-- Settles O55: the second update writes the slot the first wrote, and that slot is all that either writes. -/
theorem laterUpdateWins : Obligations.LaterUpdateWins := by
  intro s p q hhash hne t
  refine ⟨Bool.eq_false_iff.mpr fun hhit => ?_, cacheUpdate_hit _ q, fun i hi => ?_⟩
  · have hslot : t.cache[pixelHash p] = q := (cacheUpdate_get _ q _).trans (if_pos hhash)
    exact hne (((hit_iff t p).mp hhit).symm.trans hslot)
  · rw [cacheUpdate_get, if_neg hi, cacheUpdate_get, if_neg (hhash ▸ hi)]

/-! ### INDEX -/

theorem emitPixel_of_room (p : Pixel) (h : s.out < s.pixelCount) :
    emitPixel p s = .ok () { s with pixout := Cells.put s.pixout (4 * s.out) (pixelBytes p), out := s.out + 1 } :=
  if_neg (Nat.not_le.mpr h)

theorem emitPixel_of_full (p : Pixel) (h : s.pixelCount ≤ s.out) :
    emitPixel p s = .raised (raise .outOfBounds s.out s) := if_pos h

/-- A fault raised behind the bytes of an opcode leaves what every fault leaves (R203). -/
theorem faultFrame_raise_advance (k : FaultKind) (info n : Nat) (s : State) :
    FaultFrame s (raise k info (s.advance n)) := by
  constructor <;> simp

/-- A fault raised behind the bytes of an opcode leaves `prev` and the cache. -/
theorem keepsPixel_raise_advance (k : FaultKind) (info n : Nat) (s : State) :
    KeepsPixel s (raise k info (s.advance n)) := ⟨raise_prev .., raise_cache ..⟩

/-- R117 where the pixel buffer has room. -/
theorem execIndex_of_room (i : Slot) (h : s.out < s.pixelCount) :
    execIndex i s = .next { s.advance 1 with
      pixout := Cells.put s.pixout (4 * s.out) (pixelBytes s.cache[i]), out := s.out + 1, prev := s.cache[i] } := by
  rw [execIndex, emitPixel_of_room (s := s.advance 1) _ h]
  rfl

/-- R117, R182 where it has none. -/
theorem execIndex_of_full (i : Slot) (h : s.pixelCount ≤ s.out) :
    execIndex i s = .next (raise .outOfBounds s.out (s.advance 1)) := by
  rw [execIndex, emitPixel_of_full (s := s.advance 1) _ h]
  rfl

/-- Settles O8: the field is the decoder's own, and INDEX is one pixel output with `prev` assigned behind it. -/
theorem indexOutputsCacheSlot : Obligations.IndexOutputsCacheSlot := by
  refine ⟨fun b hb => by rw [instrOf, hb]; rfl, fun i s => ⟨fun hroom => ?_, fun hfull => ?_⟩⟩
  · exact ⟨_, execIndex_of_room i hroom, rfl, outputsPixels_put s.cache[i] 1 s, rfl, rfl, by constructor <;> rfl⟩
  · exact ⟨_, execIndex_of_full i hfull, faulted_raise .., keepsPixel_raise_advance .., faultFrame_raise_advance ..⟩

end Sys2Proof.Machine
end

section
/-!
PROOF. Run lengths: the decoder's RUN8 and RUN16 (R129, R130, R135 of spec/42_run_length.md), and the encode step at a pixel that
extends the run (R122, R124) or ends it (R123, R165 to R167).
-/
namespace Sys2Proof.Machine

variable {s : State} {v : Pixel}

/-! ### RUN8 and RUN16 -/

section ExecRun

variable {p : Pixel} {len : Nat}

theorem emitRun_of_room (h : s.out + len ≤ s.pixelCount) :
    emitRun p len s = .ok ()
      { s with pixout := Cells.put s.pixout (4 * s.out) (pixelRunBytes p len), out := s.out + len } :=
  if_neg (by omega)

theorem emitRun_of_overrun (hlen : 1 ≤ len) (h : s.pixelCount < s.out + len) :
    emitRun p len s = .raised (raise .outOfBounds (max s.out s.pixelCount) s) := if_pos (by omega)

variable {n : Nat} {x : Host.Outcome State Fault Refusal}
  (hx : x = .next (emitRun s.prev len (s.advance n)).final)
include hx

/-- R129, R130: a run opcode of `n` bytes that fits. -/
theorem execRun_of_room (h : s.out + len ≤ s.pixelCount) :
    ∃ t, x = .next t ∧ t.pos = s.pos + n ∧ OutputsPixels s.prev len s t ∧ KeepsPixel s t ∧ OpcodeFrame s t := by
  rw [emitRun_of_room (s := s.advance n) h] at hx
  exact ⟨_, hx, rfl, outputsPixels_put s.prev len s, ⟨rfl, rfl⟩, by constructor <;> rfl⟩

/-- R135: a run opcode of `n` bytes that is longer than the room left. -/
theorem execRun_of_overrun (hlen : 1 ≤ len) (h : s.pixelCount < s.out + len) :
    ∃ t, x = .next t ∧ Faulted .outOfBounds (max s.out s.pixelCount) t ∧ KeepsPixel s t ∧ FaultFrame s t := by
  rw [emitRun_of_overrun (s := s.advance n) hlen h] at hx
  exact ⟨_, hx, faulted_raise .., keepsPixel_raise_advance .., faultFrame_raise_advance ..⟩

end ExecRun

/-- Settles O9: the field is the decoder's own, and RUN8 is a run behind one byte. -/
theorem run8RepeatsPrev : Obligations.Run8RepeatsPrev :=
  ⟨fun b hb => by rw [instrOf, hb]; rfl, fun _ _ hlen => ⟨execRun_of_room rfl, execRun_of_overrun rfl hlen⟩⟩

/-- R130: the five high bits of the run come from the first byte. -/
theorem unpackRun16_append (b c : Byte) :
    unpackRun16 (b ++ c) = .run16 ((b.extractLsb' 0 5).toNat * 256 + c.toNat + 33) := by
  refine congrArg (fun k => Instr.run16 (k + 33)) ?_
  simp only [toNat_extractLsb'_eq, toNat_append_eq_mul_add]
  omega

/-- Settles O10: the 13-bit field is split over the two bytes, and RUN16 is a run behind them. -/
theorem run16RepeatsPrev : Obligations.Run16RepeatsPrev := by
  refine ⟨fun b b1 hb => ?_, fun _ _ hlen => ⟨execRun_of_room rfl, execRun_of_overrun rfl hlen⟩⟩
  rw [instrOf, hb]
  exact unpackRun16_append b b1

/-! ### One pixel of an encode -/

/-- R165: while pixels are left, a step of an encode consumes the pixel at `idx`. -/
theorem step_of_pixel (hhost : s.host = []) (hm : s.mode = .enc) (hidx : s.idx < s.npix)
    (hv : Cells.get? s.pixin s.idx = some (pack v)) :
    step s = .next (consumePixel v { s with idx := s.idx + 1 }).final := by
  simp only [step_of_idle_host hhost, seqStep_of_pixels_left hm hidx, encodeStep, hv, unpack_pack]

theorem consumePixel_of_eq_prev (h : v = s.prev) : consumePixel v s = extendRun s := if_pos (decide_eq_true h)

/-- R122: a step at a pixel equal to `prev` extends the run. -/
theorem step_of_run_pixel (hhost : s.host = []) (hm : s.mode = .enc) (hidx : s.idx < s.npix)
    (hv : Cells.get? s.pixin s.idx = some (pack s.prev)) :
    step s = .next (extendRun { s with idx := s.idx + 1 }).final := by
  rw [step_of_pixel hhost hm hidx hv, consumePixel_of_eq_prev (s := { s with idx := s.idx + 1 }) rfl]

/-- R122: below the forced split the run only grows. -/
theorem extendRun_of_counting (h : s.run + 1 ≠ 8224) : extendRun s = .ok () { s with run := s.run + 1 } := if_neg h

/-- R124: the run of 8224 is one write of a RUN16 with its field full. -/
theorem extendRun_of_split (h : s.run + 1 = 8224) :
    extendRun s =
      (cursorWrite [0x7F, 0xFF] { s with run := 8224 }).andThen fun _ t => .ok () { t with run := 0 } := by
  have hbytes : encode (runOpcode 8224) = [0x7F, 0xFF] := by decide
  refine (if_pos h).trans ?_
  rw [flushRun_eq, h, hbytes]

theorem extendRun_of_split_room (h : s.run + 1 = 8224) (hroom : s.pos + 2 ≤ s.lim) :
    extendRun s =
      .ok () { s with stream := Cells.put s.stream s.pos [0x7F, 0xFF], pos := s.pos + 2, run := 0 } := by
  rw [extendRun_of_split h, cursorWrite_of_room (bs := [0x7F, 0xFF]) (s := { s with run := 8224 }) hroom]
  rfl

theorem extendRun_of_split_full (h : s.run + 1 = 8224) (hfull : s.lim < s.pos + 2) :
    extendRun s = .raised (raiseCursor { s with run := 8224 }) := by
  rw [extendRun_of_split h, cursorWrite_of_full (bs := [0x7F, 0xFF]) (s := { s with run := 8224 }) hfull]
  rfl

theorem keepsPixel_raiseCursor (s : State) : KeepsPixel s (raiseCursor s) := ⟨raise_prev .., raise_cache ..⟩

/-- Settles O25: nothing is flushed, so the run's counter and the step's own `idx` are all that is assigned. -/
theorem runPixelOnlyCounts : Obligations.RunPixelOnlyCounts := by
  intro s hhost hm hidx hv hcount
  rw [step_of_run_pixel hhost hm hidx hv, extendRun_of_counting (s := { s with idx := s.idx + 1 }) hcount]
  rfl

/-- Settles O26: the flush is one write of two bytes, which fits or raises at `pos`. -/
theorem forcedSplitAt8224 : Obligations.ForcedSplitAt8224 := by
  intro s hhost hm hidx hv hsplit
  rw [step_of_run_pixel hhost hm hidx hv]
  refine ⟨fun hroom => ?_, fun hfull => ?_⟩
  · rw [extendRun_of_split_room (s := { s with idx := s.idx + 1 }) hsplit hroom]
    exact ⟨_, rfl, appendsBytes_put [0x7F, 0xFF] s, rfl, rfl, ⟨rfl, rfl⟩, by constructor <;> rfl⟩
  · rw [extendRun_of_split_full (s := { s with idx := s.idx + 1 }) hsplit hfull]
    exact ⟨_, rfl, faulted_raiseCursor_enc hm, keepsPixel_raiseCursor _⟩

/-! ### A pixel that ends the run -/

/-- Bytes that fit are appended. -/
theorem Writes.of_room {bs : List Byte} {x : Res Unit} (h : Writes bs s x) (hroom : s.pos + bs.length ≤ s.lim) :
    ∃ t, x = .ok () t ∧ Appended bs s t := h.resolve_right fun ⟨hfull, _⟩ => Nat.not_lt.mpr hroom hfull

theorem pixelCode_of_ne (h : v ≠ s.prev) : s.pixelCode v = pendingBytes s.run ++ encode (pixelOpcode s v) := if_neg h

theorem afterPixel_run_of_ne (h : v ≠ s.prev) : (s.afterPixel v).run = 0 := if_neg fun hrun => h hrun.1

/-- R166: only on a miss is a slot of the cache written, the pixel's own. -/
theorem afterPixel_cache_get_of_ne (h : v ≠ s.prev) (i : Slot) :
    (s.afterPixel v).cache[i] =
      if s.cache[pixelHash v] ≠ v ∧ i = pixelHash v then v else s.cache[i] := by
  change (if v = s.prev ∨ s.cache[pixelHash v] = v then s.cache else (s.cacheUpdate v).cache)[i] = _
  by_cases hhit : s.cache[pixelHash v] = v
  · rw [if_pos (.inr hhit), if_neg fun hmiss => hmiss.1 hhit]
  · rw [if_neg (not_or.mpr ⟨h, hhit⟩), cacheUpdate_get]
    exact if_congr (and_iff_right hhit).symm rfl rfl

/-- Settles O27: where its bytes fit, the pixel appends them and leaves the registers `afterPixel` says. -/
theorem pixelWritesFlushThenOpcode : Obligations.PixelWritesFlushThenOpcode := by
  intro s v hhost hm hidx hv hne hroom
  rw [← pixelCode_of_ne hne] at hroom ⊢
  have hwrites := consumePixel_writes v { s with idx := s.idx + 1 }
  obtain ⟨t, e, ht⟩ := hwrites.of_room hroom
  have hcache := congrArg State.cache ht.only
  refine ⟨t, by rw [step_of_pixel hhost hm hidx hv, e, Res.final_ok], ht.bytes, ?_, congrArg State.idx ht.only,
    congrArg State.prev ht.only, fun i => ?_, { (State.afterPixel_frame _ v).trans ht.frame with }⟩
  · exact (congrArg State.run ht.only).trans (afterPixel_run_of_ne hne)
  · rw [hcache]
    exact afterPixel_cache_get_of_ne (s := { s with idx := s.idx + 1 }) hne i

end Sys2Proof.Machine
end

section
/-!
PROOF. The pixel deltas (spec/43_pixel_delta.md): the channel add (R148), what DIFF8, DIFF16, DIFF24 and COLOR output (R150 to R154),
and the delta opcode the encoder chooses (R138, R139, R141, R155).
-/
namespace Sys2Proof.Machine

variable {s : State} {p : Pixel}

/-! ### The channel add -/

/-- Settles O15: `wrap8` is the remainder modulo 256. -/
theorem channelAddWraps : Obligations.ChannelAddWraps := by
  intro c d
  rw [add8, wrap8, BitVec.toNat_ofInt]
  exact Int.toNat_of_nonneg (Int.emod_nonneg _ (by decide))

@[simp] theorem add8_zero (c : Byte) : add8 c 0 = c := by
  rw [add8, wrap8, add_zero, BitVec.ofInt_natCast, BitVec.ofNat_toNat, BitVec.setWidth_eq]

/-- R150, R151: without a delta alpha stays. -/
theorem addDeltas_alpha_zero (p : Pixel) (dr dg db : Int) :
    addDeltas p dr dg db 0 = ⟨add8 p.r dr, add8 p.g dg, add8 p.b db, p.a⟩ := by
  rw [addDeltas, add8_zero]

theorem addDeltas_zero (p : Pixel) : addDeltas p 0 0 0 0 = p := by
  simp only [addDeltas, add8_zero]

/-! ### DIFF8, DIFF16, DIFF24 and COLOR -/

section ExecFinish

variable {n : Nat} {x : Host.Outcome State Fault Refusal}
  (hx : x = .next (finishPixel p (s.advance n)).final)
include hx

/-- R154: an opcode of `n` bytes that ends in `finish_pixel`, where the pixel buffer has room. -/
theorem execFinish_of_room (h : s.out < s.pixelCount) :
    ∃ t, x = .next t ∧ t.pos = s.pos + n ∧ OutputsPixels p 1 s t ∧ TakesPixel p s t ∧ OpcodeFrame s t := by
  rw [finishPixel, emitPixel_of_room (s := s.advance n) p h] at hx
  exact ⟨_, hx, rfl, outputsPixels_put p 1 s, ⟨rfl, cacheUpdate_get _ p⟩, by constructor <;> rfl⟩

/-- R154, R182 where it has none. -/
theorem execFinish_of_full (h : s.pixelCount ≤ s.out) :
    ∃ t, x = .next t ∧ Faulted .outOfBounds s.out t ∧ FaultFrame s t := by
  rw [finishPixel, emitPixel_of_full (s := s.advance n) p h] at hx
  exact ⟨_, hx, faulted_raise .., faultFrame_raise_advance ..⟩

end ExecFinish

/-- Settles O11: DIFF8 finishes the sum behind one byte. -/
theorem diff8AddsDeltas : Obligations.Diff8AddsDeltas := fun _ _ _ _ =>
  ⟨execFinish_of_room (by rw [← addDeltas_alpha_zero]; rfl), execFinish_of_full rfl⟩

/-- Settles O12: DIFF16 finishes the sum behind two bytes. -/
theorem diff16AddsDeltas : Obligations.Diff16AddsDeltas := fun _ _ _ _ =>
  ⟨execFinish_of_room (by rw [← addDeltas_alpha_zero]; rfl), execFinish_of_full rfl⟩

/-- Settles O13: DIFF24 finishes the sum behind three bytes. -/
theorem diff24AddsDeltas : Obligations.Diff24AddsDeltas :=
  fun _ _ _ _ _ => ⟨execFinish_of_room rfl, execFinish_of_full rfl⟩

/-- R153: a flagged channel has its literal, and an unflagged one its old value. -/
theorem getD_literal (c : Option Byte) (old : Byte) :
    (∀ v, c = some v → c.getD old = v) ∧ (c = none → c.getD old = old) :=
  ⟨fun _ h => h ▸ rfl, fun h => h ▸ rfl⟩

/-- Settles O14: COLOR finishes `withLiterals` of `prev` behind its own length. -/
theorem colorTakesLiterals : Obligations.ColorTakesLiterals := by
  refine fun r g b a s => ⟨fun hroom => ?_, execFinish_of_full rfl⟩
  obtain ⟨t, hexec, hpos, hout, htakes, hframe⟩ :=
    execFinish_of_room (x := exec (.color r g b a) s) (p := withLiterals s.prev r g b a) rfl hroom
  obtain ⟨hr, hr'⟩ := getD_literal r s.prev.r
  obtain ⟨hg, hg'⟩ := getD_literal g s.prev.g
  obtain ⟨hb, hb'⟩ := getD_literal b s.prev.b
  obtain ⟨ha, ha'⟩ := getD_literal a s.prev.a
  exact ⟨_, t, hexec, hr, hr', hg, hg', hb, hb', ha, ha', hpos, hout, htakes, hframe⟩

/-! ### The delta opcode the encoder chooses -/

theorem Deltas.fits8_iff {d : Deltas} :
    d.fits8 = true ↔ d.a = 0 ∧ (-2 ≤ d.r ∧ d.r ≤ 1) ∧ (-2 ≤ d.g ∧ d.g ≤ 1) ∧ (-2 ≤ d.b ∧ d.b ≤ 1) := by
  simp only [Deltas.fits8, Bool.and_eq_true, decide_eq_true_eq, inRange_iff, and_assoc]

theorem Deltas.fits16_iff {d : Deltas} :
    d.fits16 = true ↔ d.a = 0 ∧ (-16 ≤ d.r ∧ d.r ≤ 15) ∧ (-8 ≤ d.g ∧ d.g ≤ 7) ∧ (-8 ≤ d.b ∧ d.b ≤ 7) := by
  simp only [Deltas.fits16, Bool.and_eq_true, decide_eq_true_eq, inRange_iff, and_assoc]

theorem Deltas.fits24_iff {d : Deltas} :
    d.fits24 = true ↔
      (-16 ≤ d.r ∧ d.r ≤ 15) ∧ (-16 ≤ d.g ∧ d.g ≤ 15) ∧ (-16 ≤ d.b ∧ d.b ≤ 15) ∧ (-16 ≤ d.a ∧ d.a ≤ 15) := by
  simp only [Deltas.fits24, Bool.and_eq_true, inRange_iff, and_assoc]

/-- Settles O29: the three tests in order, each in numbers. -/
theorem deltaOpcodeByPriority : Obligations.DeltaOpcodeByPriority := by
  intro d v
  simp only [← Deltas.fits8_iff, ← Deltas.fits16_iff, ← Deltas.fits24_iff]
  unfold deltaOpcode
  split_ifs <;> rfl

/-- Settles O30: either opcode would give `prev` back, and a delta opcode gives its own pixel. -/
theorem deltaOpcodeChangesSomething : Obligations.DeltaOpcodeChangesSomething := by
  intro v prev hne
  have hadd := addDeltas_deltas v prev
  have hlit := withLiterals_literalOf v prev
  rcases deltaOpcode_cases (deltas v prev) v with ⟨ha, e⟩ | ⟨-, -, e⟩ | ⟨-, e⟩ | ⟨-, e⟩ <;> rw [e]
  · refine ⟨fun h => hne ?_, nofun⟩
    obtain ⟨hr, hg, hb⟩ := Instr.diff8.inj h
    rw [← hadd, hr, hg, hb, ha, addDeltas_zero]
  · exact ⟨nofun, nofun⟩
  · exact ⟨nofun, nofun⟩
  · refine ⟨nofun, fun h => hne ?_⟩
    obtain ⟨hr, hg, hb, ha⟩ := Instr.color.inj h
    rw [← hlit, hr, hg, hb, ha]
    rfl

/-- R138, R80: the opcode chosen has its deltas in the ranges of its fields. -/
theorem deltaOpcode_wf (d : Deltas) (v : Pixel) : (deltaOpcode d v).wf = true := by
  unfold deltaOpcode
  split_ifs with h8 h16 h24
  · exact (Bool.and_eq_true_iff.mp (d.fits8_eq ▸ h8)).2
  · exact (Bool.and_eq_true_iff.mp (d.fits16_eq ▸ h16)).2
  · exact h24
  · rfl

/-- Settles O31: whichever opcode is chosen, its meaning is to finish `v`. -/
theorem deltaOpcodeGivesPixelBack : Obligations.DeltaOpcodeGivesPixelBack := by
  intro v s hroom
  obtain ⟨n, hexec⟩ := exec_deltaOpcode v s
  obtain ⟨t, ht, -, hout, htakes, hframe⟩ := execFinish_of_room hexec hroom
  exact ⟨deltaOpcode_wf .., t, ht, hout, htakes, hframe⟩

end Sys2Proof.Machine
end

section
/-!
SUPPORT. What `START_ENC` and a step of an encode do where nothing refuses them, with the reason of each fault (R162, R165, R169,
R175), and what a run of steps does in a state that waits for the host (R206).
-/
namespace Sys2Proof.Machine

variable {s t u : State} {v : Pixel} {bs cs : List Byte}

/-! ### What an append leaves unchanged -/

theorem Appended.prev (h : Appended bs s t) : t.prev = s.prev := by rw [h.only]

theorem Appended.run (h : Appended bs s t) : t.run = s.run := by rw [h.only]

theorem Appended.cache (h : Appended bs s t) : t.cache = s.cache := by rw [h.only]

theorem Appended.idx (h : Appended bs s t) : t.idx = s.idx := by rw [h.only]

/-- Exactly the bytes `bs` are written in `STREAM`, from address 0 to the cursor (R33). -/
def HoldsBytes (bs : List Byte) (s : State) : Prop := s.pos = bs.length ∧ ∀ a : Nat, Cells.get? s.stream a = bs[a]?

theorem HoldsBytes.appended (h : HoldsBytes cs s) (ha : Appended bs s t) : HoldsBytes (cs ++ bs) t := by
  obtain ⟨hpos, hbytes⟩ := h
  refine ⟨by rw [ha.bytes.1, hpos, List.length_append], fun a => ?_⟩
  rw [ha.bytes.2, hbytes, hpos, List.getElem?_append]
  rcases Nat.lt_or_ge a cs.length with hlow | hhigh
  · rw [if_neg (by omega), if_pos hlow]
  · rw [if_neg (c := a < cs.length) (by omega), List.getElem?_eq_none hhigh]
    split
    next => rfl
    next hout => rw [List.getElem?_eq_none (by omega)]

theorem holdsBytes_initEncode (w h : Word) (c cs : Byte) (n : Nat) (s : State) : HoldsBytes [] (initEncode w h c cs n s) :=
  ⟨rfl, fun _ => rfl⟩

/-! ### START_ENC (R162) -/

theorem channels_iff {c : Byte} : ¬ (c ≠ 3 ∧ c ≠ 4) ↔ c = 3 ∨ c = 4 := by rw [not_and_or, not_not, not_not]

section StartEnc

variable {w h : Word} {c cs : Byte} {n : Nat} (hfree : ¬ s.busy = true)
include hfree

theorem startEnc_other_channels (hc : c ≠ 3 ∧ c ≠ 4) : startEnc w h c cs n s = .refused .channelsNotThreeOrFour := by
  rw [startEnc, if_neg (mt busy_iff.mpr hfree), if_pos hc]

variable (hc : c = 3 ∨ c = 4)
include hc

theorem startEnc_mismatch (hn : n ≠ w.toNat * h.toNat) :
    startEnc w h c cs n s = .next (raise .dimensionMismatch n s) := by
  rw [startEnc, if_neg (mt busy_iff.mpr hfree), if_neg (channels_iff.mpr hc), if_pos hn]

variable (hn : n = w.toNat * h.toNat)
include hn

theorem startEnc_too_large (hcap : s.params.streamMax < encodeCap w h c) :
    startEnc w h c cs n s = .refused .streamTooLarge := by
  rw [startEnc, if_neg (mt busy_iff.mpr hfree), if_neg (channels_iff.mpr hc), if_neg (not_not.mpr hn), if_pos hcap]

/-- The header always fits: the capacity is at least 18 (R164). -/
theorem startEnc_opens (hcap : encodeCap w h c ≤ s.params.streamMax) :
    ∃ t, startEnc w h c cs n s = .next t ∧
      Appended (initEncode w h c cs n s).headerBytes (initEncode w h c cs n s) t := by
  have hroom : 14 ≤ encodeCap w h c := Nat.le_trans (by decide : 14 ≤ 18) (encodeCap_ge w h c)
  obtain ⟨t, e, ht⟩ := (writeHeader_writes (initEncode w h c cs n s)).of_room
    (show 0 + 14 ≤ encodeCap w h c by rwa [Nat.zero_add])
  refine ⟨t, ?_, ht⟩
  rw [startEnc, if_neg (mt busy_iff.mpr hfree), if_neg (channels_iff.mpr hc), if_neg (not_not.mpr hn),
    if_neg (Nat.not_lt.mpr hcap), e, Res.final_ok]

end StartEnc

/-! ### A step of an encode -/

/-- `t` is `s` after the bytes of the pixel `v` at `idx` are appended and the registers assigned (R165). -/
def TakesNext (v : Pixel) (s t : State) : Prop :=
  Appended (s.pixelCode v) (State.afterPixel { s with idx := s.idx + 1 } v) t

theorem TakesNext.frame (h : TakesNext v s t) : EncodeFrame s t :=
  { (State.afterPixel_frame { s with idx := s.idx + 1 } v).trans (Appended.frame h) with }

theorem TakesNext.idx (h : TakesNext v s t) : t.idx = s.idx + 1 := Appended.idx h

theorem TakesNext.run (h : TakesNext v s t) : t.run = (s.afterPixel v).run :=
  Appended.run (s := State.afterPixel { s with idx := s.idx + 1 } v) h

theorem TakesNext.fits (h : TakesNext v s t) (hpos : s.pos ≤ s.lim) : t.pos ≤ s.lim :=
  Appended.fits (s := State.afterPixel { s with idx := s.idx + 1 } v) h hpos

/-- `t` is `s` after the pending run, the trailer and the assignments of the finish (R169). -/
def Finishes (s t : State) : Prop :=
  ∃ u, Appended (pendingBytes s.run ++ [0, 0, 0, 0]) (s.withRegs s.prev 0 s.cache) u ∧
    t = { u with outLen := u.pos, mode := .done }

/-- `t` is a state after BufferOverflow in an encode of `s` (R175). -/
def Overflows (s t : State) : Prop := t.host = s.host ∧ ∃ p, Faulted .bufferOverflow p t

theorem overflows_raiseCursor (hm : s.mode = .enc) (hu : EncodeFrame s u) : Overflows s (raiseCursor u) :=
  ⟨(raise_host ..).trans hu.host, u.pos, faulted_raiseCursor_enc (hu.mode.trans hm)⟩

section EncodeSteps

variable (hhost : s.host = []) (hm : s.mode = .enc)
include hhost hm

/-- A step at a pixel that is there appends its bytes, or takes BufferOverflow because they do not fit. -/
theorem step_pixel_cases (hidx : s.idx < s.npix) (hv : Cells.get? s.pixin s.idx = some (pack v)) :
    ∃ t, step s = .next t ∧
      (TakesNext v s t ∨ (s.lim < s.pos + (s.pixelCode v).length ∧ Overflows s t)) := by
  rw [step_of_pixel hhost hm hidx hv]
  refine ⟨_, rfl, ?_⟩
  rcases consumePixel_writes v { s with idx := s.idx + 1 } with ⟨t, e, ht⟩ | ⟨hfull, u, e, hu⟩ <;> rw [e]
  · exact .inl ht
  · exact .inr ⟨hfull, overflows_raiseCursor hm { (State.afterPixel_frame _ v).trans hu with }⟩

theorem step_of_no_pixels_left (hidx : s.npix ≤ s.idx) : step s = .next (encodeFinish s) := by
  simp only [step_of_idle_host hhost, seqStep, hm, if_neg (Nat.not_lt.mpr hidx)]

/-- The step behind the last pixel appends the pending run and the trailer, or takes BufferOverflow because they do not
fit. -/
theorem step_finish_cases (hidx : s.npix ≤ s.idx) :
    ∃ t, step s = .next t ∧
      (Finishes s t ∨ (s.lim < s.pos + (pendingBytes s.run ++ [0, 0, 0, 0]).length ∧ Overflows s t)) := by
  have h : Writes (pendingBytes s.run ++ [0, 0, 0, 0]) (s.withRegs s.prev 0 s.cache)
      ((flushPending s).andThen fun _ t => writeU32 0 t) :=
    (flushPending_writes s).andThen fun t _ => cursorWrite_writes (be32 0) t
  refine ⟨_, step_of_no_pixels_left hhost hm hidx, ?_⟩
  rw [encodeFinish, ← Res.andThen_assoc]
  rcases h with ⟨u, e, hu⟩ | ⟨hfull, u, e, hu⟩ <;> rw [e]
  · exact .inl ⟨u, hu, rfl⟩
  · exact .inr ⟨hfull, overflows_raiseCursor hm { hu with }⟩

end EncodeSteps

/-! ### Runs of steps -/

theorem runSteps_of_step (e : step s = .next t) (k : Nat) : runSteps (k + 1) s = runSteps k t := by
  rw [runSteps, e]

theorem step_of_waiting (hhost : s.host = []) (henc : s.mode ≠ .enc) (hdec : s.mode ≠ .dec) : step s = .next s := by
  rw [step_of_idle_host hhost, seqStep]
  split
  next hm => exact absurd hm henc
  next hm => exact absurd hm hdec
  all_goals rfl

theorem runSteps_of_waiting (hhost : s.host = []) (henc : s.mode ≠ .enc) (hdec : s.mode ≠ .dec) (k : Nat) :
    runSteps k s = .next s := by
  induction k with
  | zero => rfl
  | succ k ih => rw [runSteps_of_step (step_of_waiting hhost henc hdec), ih]

end Sys2Proof.Machine
end

section
/-!
PROOF. The moves of the encode sequence (spec/44_encoder_sequence.md): `START_ENC` with its checks (R162), where a write that does
not fit takes its fault (R194, R198), and the finish with the length of the result (R169, R170, R174).
-/
namespace Sys2Proof.Machine

variable {s t : State} {v : Pixel} {bs : List Byte}

/-! ### START_ENC (R162) -/

/-- Settles O23: in the order of the checks; the fault is taken at the state before the command. -/
theorem startEncChecksInOrder : Obligations.StartEncChecksInOrder := by
  intro w h c cs n s rest henc hdec start
  have hstep : step start = startEnc w h c cs n { s with host := rest } := step_hostMove s (.startEnc w h c cs n) rest
  have hfree := not_busy_withHost henc hdec rest
  rw [hstep]
  refine ⟨startEnc_other_channels hfree, fun hc hn => ?_, fun hc hn hcap => startEnc_too_large hfree hc hn hcap⟩
  exact ⟨_, startEnc_mismatch hfree hc hn, faulted_raise .., ⟨raise_prev .., raise_cache ..⟩, by constructor <;> simp⟩

/-- Settles O24: the header is appended to the empty `STREAM` of `initEncode`, which sets every register. -/
theorem startEncOpensEncode : Obligations.StartEncOpensEncode := by
  intro w h c cs n s rest henc hdec hc hn hcap
  obtain ⟨t, e, ht⟩ := startEnc_opens (cs := cs) (not_busy_withHost henc hdec rest) hc hn hcap
  obtain ⟨hpos, hbytes⟩ := (holdsBytes_initEncode ..).appended ht
  have hframe := ht.frame
  exact ⟨t, (step_hostMove ..).trans e, hframe.mode, congrArg FaultRecord.code hframe.fault, hframe.width, hframe.height,
    hframe.channels, hframe.cspace, hframe.npix, hframe.lim, hpos, ht.idx, ht.run, ht.prev,
    fun i => by rw [ht.cache]; exact cacheInit_get i, hbytes, hframe.pixin, hframe.pixout, hframe.params, hframe.host⟩

/-! ### Where a write does not fit (R194, R198) -/

/-- An operation of an encode that takes its cursor fault at `p`, with `prev` as it was. -/
def OverflowsAt (p : Nat) (s : State) (x : Res Unit) : Prop :=
  ∃ u, x = .raised (raiseCursor u) ∧ u.pos = p ∧ u.prev = s.prev ∧ EncodeFrame s u

theorem OverflowsAt.andThen {p : Nat} {x : Res Unit} (h : OverflowsAt p s x) (f : Unit → State → Res Unit) :
    OverflowsAt p s (x.andThen f) := by
  obtain ⟨u, rfl, hu⟩ := h
  exact ⟨u, rfl, hu⟩

/-- A fault taken from a state with the same `prev` and the same frame. -/
theorem OverflowsAt.of_frame {p : Nat} {x : Res Unit} (h : OverflowsAt p t x) (hprev : t.prev = s.prev)
    (hf : EncodeFrame s t) : OverflowsAt p s x := by
  obtain ⟨u, e, hpos, hu, hfu⟩ := h
  exact ⟨u, e, hpos, hu.trans hprev, hf.trans hfu⟩

theorem cursorWrite_overflowsAt (h : s.lim < s.pos + bs.length) : OverflowsAt s.pos s (cursorWrite bs s) :=
  ⟨s, cursorWrite_of_full h, rfl, rfl, .refl s⟩

/-- R108: an operation that writes byte by byte reaches `lim` before it takes its fault. -/
def FillsBytewise (s : State) (x : Res Unit) : Prop :=
  (∃ t bs, x = .ok () t ∧ Appended bs s t) ∨ OverflowsAt s.lim s x

theorem writeU8_fillsBytewise (b : Byte) (h : s.pos ≤ s.lim) : FillsBytewise s (writeU8 b s) := by
  rcases cursorWrite_writes [b] s with ⟨t, e, ht⟩ | ⟨hfull, -⟩
  · exact .inl ⟨t, [b], e, ht⟩
  · have hpos : s.pos = s.lim := Nat.le_antisymm h (Nat.lt_succ_iff.mp hfull)
    exact .inr (hpos ▸ cursorWrite_overflowsAt hfull)

theorem emitLiteral_fillsBytewise (flag : Bool) (b : Byte) (h : s.pos ≤ s.lim) : FillsBytewise s (emitLiteral flag b s) := by
  cases flag with
  | false => exact .inl ⟨s, [], rfl, .refl s⟩
  | true => exact writeU8_fillsBytewise b h

theorem FillsBytewise.andThen {x : Res Unit} {f : Unit → State → Res Unit} (h : s.pos ≤ s.lim) (hx : FillsBytewise s x)
    (hf : ∀ t, t.pos ≤ t.lim → FillsBytewise t (f () t)) : FillsBytewise s (x.andThen f) := by
  rcases hx with ⟨t, bs, e, ht⟩ | hx
  · rw [e, Res.andThen_ok]
    have hlim := ht.frame.lim
    rcases hf t (hlim ▸ ht.fits h) with ⟨u, cs, e', hu⟩ | hover
    · exact .inl ⟨u, bs ++ cs, e', ht.trans hu⟩
    · exact .inr (hlim ▸ hover.of_frame ht.prev ht.frame)
  · exact .inr (hx.andThen f)

theorem emitColor_fillsBytewise (d : Deltas) (v : Pixel) (h : s.pos ≤ s.lim) : FillsBytewise s (emitColor d v s) :=
  (writeU8_fillsBytewise _ h).andThen h fun _ h => (emitLiteral_fillsBytewise _ _ h).andThen h fun _ h =>
    (emitLiteral_fillsBytewise _ _ h).andThen h fun _ h => (emitLiteral_fillsBytewise _ _ h).andThen h fun _ h =>
    emitLiteral_fillsBytewise _ _ h

/-- What does not fit is not appended. -/
theorem Writes.ne_ok_of_full {x : Res Unit} (h : Writes bs s x) (hpos : s.pos ≤ s.lim) (hfull : s.lim < s.pos + bs.length) :
    x ≠ .ok () t := by
  rintro rfl
  rcases h with ⟨t, e, ht⟩ | ⟨-, u, e, -⟩
  · have := ht.fits hpos
    have := ht.bytes.1
    omega
  · cases e

/-- R145, R198: COLOR takes its fault at `lim`, every other delta opcode where it begins. -/
theorem emitDelta_overflowsAt {d : Deltas} (hpos : s.pos ≤ s.lim)
    (hfull : s.lim < s.pos + (encode (deltaOpcode d v)).length) :
    OverflowsAt (if (deltaOpcode d v).kind = .color then s.lim else s.pos) s (emitDelta d v s) := by
  unfold emitDelta
  by_cases h8 : d.fits8 = true
  · rw [deltaOpcode, if_pos h8] at hfull ⊢
    rw [if_pos h8]
    exact cursorWrite_overflowsAt hfull
  by_cases h16 : d.fits16 = true
  · rw [deltaOpcode, if_neg h8, if_pos h16] at hfull ⊢
    rw [if_neg h8, if_pos h16]
    exact cursorWrite_overflowsAt hfull
  by_cases h24 : d.fits24 = true
  · rw [deltaOpcode, if_neg h8, if_neg h16, if_pos h24] at hfull ⊢
    rw [if_neg h8, if_neg h16, if_pos h24]
    exact cursorWrite_overflowsAt hfull
  · rw [deltaOpcode, if_neg h8, if_neg h16, if_neg h24] at hfull ⊢
    rw [if_neg h8, if_neg h16, if_neg h24]
    rcases emitColor_fillsBytewise d v hpos with ⟨t, _, e, -⟩ | hover
    · exact absurd e ((emitColor_writes d v s).ne_ok_of_full hpos hfull)
    · exact hover

/-- R166, R198: where the pixel's own opcode does not fit. -/
theorem encodePixel_overflowsAt (hpos : s.pos ≤ s.lim) (hfull : s.lim < s.pos + (encode (pixelOpcode s v)).length) :
    OverflowsAt (if (pixelOpcode s v).kind = .color then s.lim else s.pos) s (encodePixel v s) := by
  unfold encodePixel State.hit
  refine OverflowsAt.andThen ?_ _
  by_cases hhit : s.cache[pixelHash v] = v
  · rw [pixelOpcode, if_pos hhit] at hfull ⊢
    rw [decide_eq_true hhit]
    exact cursorWrite_overflowsAt hfull
  · rw [pixelOpcode, if_neg hhit] at hfull ⊢
    rw [decide_eq_false hhit]
    exact (emitDelta_overflowsAt (s := s.cacheUpdate v) hpos hfull).of_frame rfl (by constructor <;> rfl)

/-- What the flush of the pending run can do (R123, R125): one write that fits, or the fault at `pos`; without a run nothing. -/
theorem flushPending_cases (s : State) :
    (∃ t, (s.run = 0 ∨ s.pos + (pendingBytes s.run).length ≤ s.lim) ∧ flushPending s = .ok () t ∧
      Appended (pendingBytes s.run) (s.withRegs s.prev 0 s.cache) t) ∨
    (s.lim < s.pos + (pendingBytes s.run).length ∧ flushPending s = .raised (raiseCursor s)) := by
  by_cases hfull : s.run ≠ 0 ∧ s.lim < s.pos + (pendingBytes s.run).length
  · exact .inr ⟨hfull.2, by rw [flushPending_eq, if_neg hfull.1, cursorWrite_of_full hfull.2, Res.andThen_raised]⟩
  · have hfits : s.run = 0 ∨ s.pos + (pendingBytes s.run).length ≤ s.lim := by omega
    rcases flushPending_writes s with ⟨t, e, ht⟩ | ⟨hlim, u, e, -⟩
    · exact .inl ⟨t, hfits, e, ht⟩
    · have hrun : s.run = 0 := hfits.resolve_right (Nat.not_le.mpr hlim)
      rw [flushPending_eq, if_pos hrun] at e
      cases e

/-- R198: where the bytes of a pixel that ends the run do not fit. -/
theorem consumePixel_overflowsAt (hpos : s.pos ≤ s.lim) (hne : v ≠ s.prev)
    (hfull : s.lim < s.pos + (pendingBytes s.run ++ encode (pixelOpcode s v)).length) :
    OverflowsAt
      (if s.lim < s.pos + (pendingBytes s.run).length then s.pos
        else if (pixelOpcode s v).kind = .color then s.lim
        else s.pos + (pendingBytes s.run).length) s (consumePixel v s) := by
  have hbreak : ¬ s.extendsRun v = true := mt of_decide_eq_true hne
  rw [consumePixel, if_neg hbreak]
  rcases flushPending_cases s with ⟨t, -, e, ht⟩ | ⟨hflush, e⟩ <;> rw [e]
  · have hcode : pixelOpcode t v = pixelOpcode s v := pixelOpcode_congr ht.prev ht.cache v
    have htpos : t.pos = s.pos + (pendingBytes s.run).length := ht.bytes.1
    have htlim : t.lim = s.lim := ht.frame.lim
    have hroom : t.pos ≤ t.lim := htlim ▸ ht.fits hpos
    rw [List.length_append, ← Nat.add_assoc, ← htpos, ← htlim, ← hcode] at hfull
    rw [Res.andThen_ok, ← htpos, ← htlim, ← hcode, if_neg (Nat.not_lt.mpr hroom)]
    exact (encodePixel_overflowsAt hroom hfull).of_frame ht.prev { ht.frame with }
  · rw [if_pos hflush]
    exact ⟨s, rfl, rfl, rfl, .refl s⟩

/-- Settles O28: the fault is taken at the pending run's write, else at the pixel's own behind it. -/
theorem encodeStepOverflows : Obligations.EncodeStepOverflows := by
  intro s v hhost hm hidx hpos hv hne hfull
  obtain ⟨u, e, hp, hprev, hu⟩ := consumePixel_overflowsAt (s := { s with idx := s.idx + 1 }) hpos hne hfull
  refine ⟨raiseCursor u, by rw [step_of_pixel hhost hm hidx hv, e, Res.final_raised], (raise_prev ..).trans hprev,
    (raise_params ..).trans hu.params, (raise_host ..).trans hu.host, (raise_pixin ..).trans hu.pixin, ?_⟩
  exact hp ▸ faulted_raiseCursor_enc (hu.mode.trans hm)

/-! ### The finish -/

/-- R169, R198: where the pending run or the trailer does not fit. -/
theorem encodeFinish_of_full (hfull : s.lim < s.pos + (pendingBytes s.run).length + 4) :
    ∃ u, encodeFinish s = raiseCursor u ∧ KeepsPixel s u ∧ EncodeFrame s u ∧
      u.pos = if s.lim < s.pos + (pendingBytes s.run).length then s.pos else s.pos + (pendingBytes s.run).length := by
  unfold encodeFinish
  rcases flushPending_cases s with ⟨t, hfits, e, ht⟩ | ⟨hflush, e⟩ <;> rw [e]
  · have htpos : t.pos = s.pos + (pendingBytes s.run).length := ht.bytes.1
    have htrailer : writeU32 0 t = .raised (raiseCursor t) :=
      cursorWrite_of_full (by rw [be32_length, htpos, ht.frame.lim]; exact hfull)
    refine ⟨t, by rw [Res.andThen_ok, htrailer]; rfl, ⟨ht.prev, ht.cache⟩, { ht.frame with }, ?_⟩
    rcases hfits with hrun | hroom
    · simp [htpos, hrun, pendingBytes]
    · rw [if_neg (Nat.not_lt.mpr hroom), htpos]
  · exact ⟨s, rfl, ⟨rfl, rfl⟩, .refl s, (if_pos hflush).symm⟩

/-- Settles O34: two writes, each of which fits or raises where it stands. -/
theorem encodeFinishWritesTrailer : Obligations.EncodeFinishWritesTrailer := by
  intro s hhost hm hidx
  refine ⟨fun hroom => ?_, fun hfull => ?_⟩
  · obtain ⟨t, e, ⟨u, hu, rfl⟩ | ⟨hfull, -⟩⟩ := step_finish_cases hhost hm hidx.ge
    · have hf := hu.frame
      exact ⟨_, e, rfl, hu.bytes, rfl, hu.run, ⟨hu.prev, hu.cache⟩, hu.idx, hf.fault, hf.width, hf.height, hf.channels,
        hf.cspace, hf.lim, hf.npix, hf.out, hf.pixin, hf.pixout, hf.params, hf.host, hf.draws⟩
    · rw [List.length_append, ← Nat.add_assoc] at hfull
      exact absurd hfull (Nat.not_lt.mpr hroom)
  · obtain ⟨u, e, ⟨hprev, hcache⟩, hu, hpos⟩ := encodeFinish_of_full hfull
    refine ⟨raiseCursor u, (step_of_no_pixels_left hhost hm hidx.ge).trans (congrArg _ e),
      ⟨(raise_prev ..).trans hprev, (raise_cache ..).trans hcache⟩, ?_⟩
    exact hpos ▸ faulted_raiseCursor_enc (hu.mode.trans hm)

/-- Settles O35: only the finish completes, and `out_len` is `pos` behind the trailer. -/
theorem completedEncodeLength : Obligations.CompletedEncodeLength := by
  intro s t hinv hhost hm e hdone
  have henc := hinv.encode hm
  rw [step_of_idle_host hhost] at e
  rcases seqStep_cases e with ⟨-, ⟨-, e⟩ | ⟨-, rfl⟩⟩ | ⟨hm', -⟩ | ⟨hm', -⟩
  · obtain ⟨v, -, ht | ⟨u, hu, rfl⟩⟩ := encodeStep_cases e
    · rw [TakesNext.frame ht |>.mode, hm] at hdone
      cases hdone
    · rw [raiseCursor_mode] at hdone
      cases hdone
  · rcases encodeFinish_cases s with ⟨u, hu, e⟩ | ⟨u, -, e⟩
    · have hf := hu.frame
      have hpos : u.pos = s.pos + ((pendingBytes s.run).length + 4) := by rw [hu.bytes.1, List.length_append]; rfl
      have hlim : u.pos ≤ encodeCap u.width u.height u.channels := by
        rw [hf.width, hf.height, hf.channels]
        exact henc.lim ▸ hu.fits henc.posHigh
      have hlow := henc.posLow
      have hwritten := hu.written henc.written
      rw [e]
      exact ⟨show 18 ≤ u.pos by omega, hlim, hwritten⟩
    · rw [e, raiseCursor_mode] at hdone
      cases hdone
  · rw [hm] at hm'
    cases hm'
  · exact absurd hm hm'

end Sys2Proof.Machine
end

section
/-!
PROOF. Bounds of an encode: five bytes a pixel are enough (R163, R175), and one step a pixel and the finish end it (R173, R235).
-/
namespace Sys2Proof.Machine

variable {s t : State} {v : Pixel}

/-! ### Five bytes a pixel (R163) -/

theorem encode_length (i : Instr) : (encode i).length = i.length := by
  cases i with
  | index i => exact Laws.EncodedLength.index i
  | run8 len => exact Laws.EncodedLength.run8 len
  | run16 len => exact Laws.EncodedLength.run16 len
  | diff8 dr dg db => exact Laws.EncodedLength.diff8 dr dg db
  | diff16 dr dg db => exact Laws.EncodedLength.diff16 dr dg db
  | diff24 dr dg db da => exact Laws.EncodedLength.diff24 dr dg db da
  | color r g b a => exact Laws.EncodedLength.color r g b a

/-- R72: no opcode is longer than five bytes. -/
theorem encode_length_le (i : Instr) : (encode i).length ≤ 5 := by
  rw [encode_length]
  cases i with
  | color r g b a =>
    have hr := r.isSome.toNat_le
    have hg := g.isSome.toNat_le
    have hb := b.isSome.toNat_le
    have ha := a.isSome.toNat_le
    simp only [Instr.length, literalCount]
    omega
  | _ => simp only [Instr.length]; omega

theorem flushCost_le (run : Nat) : flushCost run ≤ 2 := by
  unfold flushCost
  split_ifs <;> decide

/-- The opcode bytes of a pixel and the run left pending cost at most the run pending before and five bytes. -/
theorem pixelCode_cost (s : State) (v : Pixel) :
    (s.pixelCode v).length + flushCost (s.afterPixel v).run ≤ flushCost s.run + 5 := by
  by_cases hprev : v = s.prev
  · have hrun := flushCost_le (s.afterPixel v).run
    have hcode : (s.pixelCode v).length ≤ 2 := by
      rw [State.pixelCode, if_pos hprev]
      split_ifs <;> decide
    omega
  · have hopcode := encode_length_le (pixelOpcode s v)
    have hrun : flushCost 0 = 0 := rfl
    rw [afterPixel_run_of_ne hprev, pixelCode_of_ne hprev, List.length_append, pendingBytes_length, hrun]
    omega

/-- R163: the capacity of an encode of four channels. -/
theorem EncodeInv.lim_of_four (h : EncodeInv s) (hc : s.channels = 4) : s.lim = s.npix * 5 + 18 := by
  rw [h.lim, h.npix, hc]
  rfl

/-- The bound holds when an encode opens: fourteen bytes are written, and no pixel is consumed. -/
theorem withinFiveBytes_startEnc {w h : Word} {c cs : Byte} {n : Nat} (e : startEnc w h c cs n s = .next t) :
    WithinFiveBytes t := by
  intro hm _
  rcases startEnc_cases e with rfl | ⟨-, -, -, ht⟩
  · rw [raise_mode] at hm
    cases hm
  · have hpos : t.pos = 14 := ht.bytes.1
    have hrun : t.run = 0 := ht.run
    rw [hpos, hrun]
    exact Nat.le_add_right 14 _

/-- A consumed pixel keeps the bound. -/
theorem TakesNext.withinFiveBytes (h : TakesNext v s t) (hm : s.mode = .enc) (hc : s.channels = 4)
    (hs : WithinFiveBytes s) : WithinFiveBytes t := by
  intro _ _
  have hbound := hs hm hc
  have hpos : t.pos = s.pos + (s.pixelCode v).length := h.bytes.1
  have hcost := pixelCode_cost s v
  rw [hpos, h.run, h.idx]
  omega

/-- Settles O37: what a pixel costs keeps the bound, and below it every write of an encode of four channels fits. -/
theorem fourChannelsNeverOverflow : Obligations.FourChannelsNeverOverflow := by
  refine ⟨fun w h c cs n s t rest e => withinFiveBytes_startEnc e, ?_⟩
  intro s t hinv hs hhost hm hc e
  have henc := hinv.encode hm
  have hlim := henc.lim_of_four hc
  have hbound := hs hm hc
  rcases Nat.lt_or_ge s.idx s.npix with hidx | hidx
  · have e' : encodeStep s = .next t := by rw [← seqStep_of_pixels_left hm hidx, ← step_of_idle_host hhost, e]
    obtain ⟨v, hv, -⟩ := encodeStep_cases e'
    obtain ⟨t', e', ht | ⟨hfull, -⟩⟩ := step_pixel_cases hhost hm hidx hv
    · cases e.symm.trans e'
      exact ⟨by rw [ht.frame.mode, hm]; decide, ht.withinFiveBytes hm hc hs⟩
    · have hcost := pixelCode_cost s v
      omega
  · obtain ⟨t', e', ⟨u, -, rfl⟩ | ⟨hfull, -⟩⟩ := step_finish_cases hhost hm hidx
    · cases e.symm.trans e'
      exact ⟨Mode.noConfusion, Mode.noConfusion⟩
    · have := henc.idx
      rw [List.length_append, pendingBytes_length] at hfull
      change s.lim < s.pos + (flushCost s.run + 4) at hfull
      omega

/-! ### One step a pixel (R173) -/

theorem TakesNext.pixinLoaded (h : TakesNext v s t) (hm : s.mode = .enc) (hs : PixinLoaded s) : PixinLoaded t := by
  intro _
  rw [h.frame.npix, h.frame.pixin]
  exact hs hm

theorem Finishes.mode (h : Finishes s t) : t.mode = .done := by
  obtain ⟨u, -, rfl⟩ := h
  rfl

/-- R173: an encode with `n` pixels left ends within `n + 1` steps. -/
theorem encode_ends (n : Nat) (hinv : Inv s) (hpixin : PixinLoaded s) (hhost : s.host = []) (hm : s.mode = .enc)
    (hleft : s.npix - s.idx = n) :
    ∃ k t, k ≤ n + 1 ∧ runSteps k s = .next t ∧ (t.mode = .done ∨ ∃ p, Faulted .bufferOverflow p t) := by
  induction n generalizing s with
  | zero =>
    obtain ⟨t, e, hends⟩ := step_finish_cases hhost hm (Nat.sub_eq_zero_iff_le.mp hleft)
    refine ⟨1, t, le_refl 1, runSteps_of_step e 0, ?_⟩
    exact hends.imp Finishes.mode fun ⟨_, _, hfault⟩ => hfault
  | succ n ih =>
    have hidx : s.idx < s.npix := by omega
    obtain ⟨w, hw⟩ := Option.isSome_iff_exists.mp (hpixin hm s.idx hidx)
    obtain ⟨t, e, ht | ⟨-, -, hfault⟩⟩ := step_pixel_cases hhost hm hidx (v := unpack w) (by rw [hw, pack_unpack])
    · have hleft' : t.npix - t.idx = n := by rw [ht.frame.npix, ht.idx]; omega
      obtain ⟨k, u, hk, erun, hu⟩ := ih (stepKeepsInvariant s t hinv e) (ht.pixinLoaded hm hpixin)
        (ht.frame.host.trans hhost) (ht.frame.mode.trans hm) hleft'
      exact ⟨k + 1, u, Nat.succ_le_succ hk, (runSteps_of_step e k).trans erun, hu⟩
    · exact ⟨1, t, Nat.le_add_left 1 _, runSteps_of_step e 0, .inr hfault⟩

/-- Settles O36: by induction on the pixels left. -/
theorem encodeAlwaysEnds : Obligations.EncodeAlwaysEnds := fun _ hinv hpixin hhost hm =>
  encode_ends _ hinv hpixin hhost hm rfl

end Sys2Proof.Machine
end

section
/-!
PROOF. The steps of an encode give what the one-function encode gives (R172).
-/
namespace Sys2Proof.Machine

variable {s t : State} {v : Pixel} {bs bytes : List Byte} {cap : Nat}

/-! ### The loop in terms of the machine's registers -/

/-- The variables of R172's loop in a state that has the bytes `bytes` written. -/
def State.vars (s : State) (bytes : List Byte) : EncodeVars :=
  { bytes := bytes, prev := s.prev, run := s.run, cache := s.cache }

/-- Those variables, or BufferOverflow where the bytes are more than the capacity. -/
def State.varsWithin (cap : Nat) (s : State) (bytes : List Byte) : Except FaultKind EncodeVars :=
  if cap < bytes.length then .error .bufferOverflow else .ok (s.vars bytes)

theorem State.varsWithin_of_room (h : bytes.length ≤ cap) : s.varsWithin cap bytes = .ok (s.vars bytes) :=
  if_neg (Nat.not_lt.mpr h)

theorem State.varsWithin_of_full (h : cap < bytes.length) : s.varsWithin cap bytes = .error .bufferOverflow := if_pos h

/-- Two appends in a row fail exactly where one append of both byte strings does. -/
theorem State.varsWithin_bind {f : EncodeVars → Except FaultKind EncodeVars}
    (h : bytes.length ≤ cap → f (s.vars bytes) = t.varsWithin cap (bytes ++ bs)) :
    (s.varsWithin cap bytes).bind f = t.varsWithin cap (bytes ++ bs) := by
  rcases Nat.lt_or_ge cap bytes.length with hfull | hroom
  · rw [varsWithin_of_full hfull, varsWithin_of_full (by rw [List.length_append]; omega)]
    rfl
  · rw [varsWithin_of_room hroom]
    exact h hroom

theorem append_vars (s : State) (cap : Nat) (bytes bs : List Byte) :
    (s.vars bytes).append cap bs = s.varsWithin cap (bytes ++ bs) := by
  rw [State.varsWithin, List.length_append]
  rfl

/-- Registers assigned behind an append. -/
theorem map_varsWithin {g : EncodeVars → EncodeVars} (hg : ∀ bytes, g (s.vars bytes) = t.vars bytes) :
    (s.varsWithin cap bytes).map g = t.varsWithin cap bytes := by
  unfold State.varsWithin
  split
  · rfl
  · exact congrArg Except.ok (hg bytes)

theorem flush_vars (hbytes : bytes.length ≤ cap) :
    (s.vars bytes).flush cap = (s.withRegs s.prev 0 s.cache).varsWithin cap (bytes ++ pendingBytes s.run) := by
  unfold EncodeVars.flush
  by_cases hrun : s.run = 0
  · have hs : s.withRegs s.prev 0 s.cache = s := hrun ▸ rfl
    rw [hs, pendingBytes, if_pos hrun, List.append_nil, State.varsWithin_of_room hbytes]
    exact if_neg (Nat.not_lt.mpr hrun.le)
  · rw [pendingBytes, if_neg hrun]
    refine (if_pos (Nat.pos_of_ne_zero hrun)).trans ?_
    rw [append_vars]
    exact map_varsWithin fun _ => rfl

theorem afterPixel_of_eq (h : v = s.prev) :
    s.afterPixel v = s.withRegs s.prev (if s.run + 1 = Config.runMax then 0 else s.run + 1) s.cache := by
  subst h
  simp only [State.afterPixel, true_and, true_or, if_true, ite_not]

theorem afterPixel_of_ne (h : v ≠ s.prev) :
    s.afterPixel v = s.withRegs v 0 (if s.cache[pixelHash v] = v then s.cache else s.cache.set (pixelHash v) v) := by
  simp only [State.afterPixel, h, false_and, false_or, if_false]

/-- R172's loop at a pixel equal to `prev`. -/
theorem encodeOne_vars_of_eq (h : v = s.prev) (hbytes : bytes.length ≤ cap) :
    encodeOne cap v (s.vars bytes) = (s.afterPixel v).varsWithin cap (bytes ++ s.pixelCode v) := by
  rw [afterPixel_of_eq h, State.pixelCode, if_pos h]
  refine (if_pos h).trans ?_
  by_cases hsplit : s.run + 1 = Config.runMax
  · have hcode : pendingBytes (s.run + 1) = encode (runOpcode Config.runMax) := by rw [hsplit]; rfl
    refine (if_pos hsplit).trans ?_
    rw [if_pos hsplit, if_pos hsplit, ← hcode]
    exact flush_vars (s := s.withRegs s.prev (s.run + 1) s.cache) hbytes
  · rw [if_neg hsplit, if_neg hsplit, List.append_nil, State.varsWithin_of_room hbytes]
    exact if_neg hsplit

/-- R172's loop at a pixel that ends the run: on a hit and on a miss, one append behind the flush. -/
theorem encodeOne_vars_of_ne (h : v ≠ s.prev) (hbytes : bytes.length ≤ cap) :
    encodeOne cap v (s.vars bytes) = (s.afterPixel v).varsWithin cap (bytes ++ s.pixelCode v) := by
  rw [afterPixel_of_ne h, pixelCode_of_ne h, ← List.append_assoc]
  refine (if_neg h).trans ?_
  rw [flush_vars hbytes]
  refine State.varsWithin_bind fun _ => ?_
  by_cases hhit : s.cache[pixelHash v] = v
  · rw [pixelOpcode, if_pos hhit, if_pos hhit]
    refine (if_pos hhit).trans ?_
    rw [append_vars]
    exact map_varsWithin fun _ => rfl
  · rw [pixelOpcode, if_neg hhit, if_neg hhit]
    refine (if_neg hhit).trans ?_
    exact (congrArg (Except.map _) (append_vars (s.withRegs s.prev 0 (s.cache.set (pixelHash v) v)) ..)).trans
      (map_varsWithin fun _ => rfl)

/-- One pixel of R172's loop appends the bytes of the encode step and leaves the same registers. -/
theorem encodeOne_vars (v : Pixel) (hbytes : bytes.length ≤ cap) :
    encodeOne cap v (s.vars bytes) = (s.afterPixel v).varsWithin cap (bytes ++ s.pixelCode v) :=
  if h : v = s.prev then encodeOne_vars_of_eq h hbytes else encodeOne_vars_of_ne h hbytes

/-- R172 below its loop: the pending run and the trailer. -/
def EncodeVars.finish (cap : Nat) (x : EncodeVars) : Except FaultKind (List Byte) :=
  (x.flush cap).bind fun y => (y.append cap [0, 0, 0, 0]).map EncodeVars.bytes

theorem EncodeVars.finish_eq (cap : Nat) (x : EncodeVars) :
    x.finish cap = ((x.flush cap).bind fun y => y.append cap [0, 0, 0, 0]).map EncodeVars.bytes := by
  unfold EncodeVars.finish
  cases x.flush cap <;> rfl

/-- The finish appends the bytes of the machine's own finish. -/
theorem finish_vars (hbytes : bytes.length ≤ cap) :
    (s.vars bytes).finish cap =
      (s.varsWithin cap (bytes ++ (pendingBytes s.run ++ [0, 0, 0, 0]))).map EncodeVars.bytes := by
  rw [EncodeVars.finish_eq, flush_vars hbytes, ← List.append_assoc, State.varsWithin_bind fun _ => append_vars ..]
  unfold State.varsWithin
  split <;> rfl

/-! ### The machine's steps against the loop -/

/-- The outcome of a run of steps is the result of R172's function: DONE with exactly its bytes, or its kind of fault. -/
def EndsAs (r : Except FaultKind (List Byte)) (o : Host.Outcome State Fault Refusal) : Prop :=
  match r with
  | .ok bytes => ∃ t, o = .next t ∧ t.mode = .done ∧ t.outLen = bytes.length ∧ ∀ k : Nat, Cells.get? t.stream k = bytes[k]?
  | .error f => ∃ t n, o = .next t ∧ Faulted f n t

/-- A state in FAULT stays there. -/
theorem Faulted.endsAs {f : FaultKind} {n : Nat} (h : Faulted f n t) (hhost : t.host = []) (k : Nat) :
    EndsAs (.error f) (runSteps k t) :=
  ⟨t, n, runSteps_of_waiting hhost (by simp [h.1]) (by simp [h.1]) k, h⟩

theorem Overflows.endsAs (h : Overflows s t) (hhost : s.host = []) (k : Nat) :
    EndsAs (.error .bufferOverflow) (runSteps k t) := by
  obtain ⟨hthost, p, hfault⟩ := h
  exact hfault.endsAs (hthost.trans hhost) k

theorem Finishes.endsAs (h : Finishes s t) (hbytes : HoldsBytes bytes s) :
    EndsAs (.ok (bytes ++ (pendingBytes s.run ++ [0, 0, 0, 0]))) (.next t) := by
  obtain ⟨u, hu, rfl⟩ := h
  obtain ⟨hpos, hstream⟩ := HoldsBytes.appended (s := s.withRegs s.prev 0 s.cache) hbytes hu
  exact ⟨_, rfl, rfl, hpos, hstream⟩

theorem Finishes.fits (h : Finishes s t) (hpos : s.pos ≤ s.lim) :
    s.pos + (pendingBytes s.run ++ [0, 0, 0, 0]).length ≤ s.lim := by
  obtain ⟨u, hu, -⟩ := h
  have hupos : u.pos = s.pos + (pendingBytes s.run ++ [0, 0, 0, 0]).length := hu.bytes.1
  exact hupos ▸ hu.fits hpos

theorem TakesNext.vars (h : TakesNext v s t) (bytes : List Byte) : t.vars bytes = (s.afterPixel v).vars bytes := by
  rw [State.vars, Appended.prev h, h.run, Appended.cache h]
  rfl

theorem TakesNext.holdsBytes (h : TakesNext v s t) (hbytes : HoldsBytes bytes s) :
    HoldsBytes (bytes ++ s.pixelCode v) t :=
  HoldsBytes.appended (s := State.afterPixel { s with idx := s.idx + 1 } v) hbytes h

/-- The steps from a state in ENC give what R172's function gives for the pixels left. -/
theorem runSteps_encodes (pixels : List Pixel) (hhost : s.host = []) (hm : s.mode = .enc)
    (hleft : s.npix = s.idx + pixels.length)
    (hpixin : ∀ (i : Nat) (p : Pixel), pixels[i]? = some p → Cells.get? s.pixin (s.idx + i) = some (pack p))
    (hbytes : HoldsBytes bytes s) (hpos : s.pos ≤ s.lim) :
    EndsAs ((encodeList s.lim pixels (s.vars bytes)).bind (EncodeVars.finish s.lim)) (runSteps (pixels.length + 1) s) := by
  induction pixels generalizing s bytes with
  | nil =>
    obtain ⟨t, e, hends⟩ := step_finish_cases hhost hm (le_of_eq hleft)
    rw [List.length_nil, runSteps_of_step e 0]
    show EndsAs ((s.vars bytes).finish s.lim) _
    rw [finish_vars (hbytes.1 ▸ hpos)]
    rcases hends with ht | ⟨hfull, hover⟩
    · rw [State.varsWithin_of_room (by rw [List.length_append, ← hbytes.1]; exact ht.fits hpos)]
      exact ht.endsAs hbytes
    · rw [State.varsWithin_of_full (by rwa [List.length_append, ← hbytes.1])]
      exact hover.endsAs hhost 0
  | cons v pixels ih =>
    have hidx : s.idx < s.npix := by rw [hleft, List.length_cons]; omega
    obtain ⟨t, e, hends⟩ := step_pixel_cases hhost hm hidx (hpixin 0 v rfl)
    rw [List.length_cons, runSteps_of_step e, encodeList, encodeOne_vars v (hbytes.1 ▸ hpos)]
    rcases hends with ht | ⟨hfull, hover⟩
    · have hlim := ht.frame.lim
      have htbytes := ht.holdsBytes hbytes
      have htpos : t.pos ≤ s.lim := ht.fits hpos
      rw [State.varsWithin_of_room (htbytes.1 ▸ htpos), ← ht.vars, ← hlim]
      refine ih (ht.frame.host.trans hhost) (ht.frame.mode.trans hm) ?_ (fun i p hp => ?_) htbytes (hlim ▸ htpos)
      · rw [ht.frame.npix, ht.idx, hleft, List.length_cons]
        omega
      · rw [ht.frame.pixin, ht.idx, Nat.add_assoc, Nat.add_comm 1]
        exact hpixin (i + 1) p hp
    · rw [State.varsWithin_of_full (by rwa [List.length_append, ← hbytes.1])]
      exact hover.endsAs hhost _

/-! ### The header and START_ENC -/

/-- The magic's word holds its characters in order, as a packed pixel holds its channels (R12, R68). -/
theorem be32_word (m : Magic) : be32 m.word = [m.c0.setWidth 8, m.c1.setWidth 8, m.c2.setWidth 8, m.c3.setWidth 8] :=
  congrArg pixelBytes (unpack_pack ⟨m.c0.setWidth 8, m.c1.setWidth 8, m.c2.setWidth 8, m.c3.setWidth 8⟩)

theorem headerBytes_eq (s : State) : s.headerBytes = headerOf s.params.magic s.width s.height s.channels s.cspace := by
  rw [headerOf, be32_word, State.headerBytes]

section WholeEncode

variable {w h : Word} {c cs : Byte} {pixels : List Pixel}

theorem encodeAll_of_channels (m : Magic) (hc : c = 3 ∨ c = 4) :
    encodeAll m w h c cs pixels = (encodeImage m w h c cs pixels).mapError .fault :=
  if_neg (channels_iff.mpr hc)

theorem encodeImage_of_count (m : Magic) (hn : pixels.length = w.toNat * h.toNat) :
    encodeImage m w h c cs pixels =
      (encodeList (encodeCap w h c) pixels ⟨headerOf m w h c cs, Config.prevInit, 0, cacheInit⟩).bind
        (EncodeVars.finish (encodeCap w h c)) :=
  if_neg (not_not.mpr hn)

/-- `START_ENC` and the steps behind it, for an accepted channel count. -/
theorem runSteps_startEnc (hhost : s.host = []) (hfree : ¬ s.busy = true) (hc : c = 3 ∨ c = 4)
    (hcap : encodeCap w h c ≤ s.params.streamMax)
    (hpixin : ∀ (i : Nat) (p : Pixel), pixels[i]? = some p → Cells.get? s.pixin i = some (pack p)) :
    ∃ t, startEnc w h c cs pixels.length s = .next t ∧
      EndsAs (encodeImage s.params.magic w h c cs pixels) (runSteps (pixels.length + 1) t) := by
  by_cases hn : pixels.length = w.toNat * h.toNat
  · obtain ⟨t, e, ht⟩ := startEnc_opens (cs := cs) hfree hc hn hcap
    have hf := ht.frame
    have hlim : t.lim = encodeCap w h c := hf.lim
    have hidx : t.idx = 0 := ht.idx
    have hvars : t.vars (headerOf s.params.magic w h c cs) =
        ⟨headerOf s.params.magic w h c cs, Config.prevInit, 0, cacheInit⟩ := by
      rw [State.vars, ht.prev, ht.run, ht.cache]
      rfl
    have hbytes : HoldsBytes (headerOf s.params.magic w h c cs) t := by
      rw [headerBytes_eq] at ht
      exact (holdsBytes_initEncode ..).appended ht
    refine ⟨t, e, ?_⟩
    rw [encodeImage_of_count _ hn, ← hvars, ← hlim]
    refine runSteps_encodes pixels (hf.host.trans hhost) hf.mode ?_ (fun i p hp => ?_) hbytes ?_
    · rw [hf.npix, hidx, Nat.zero_add]
      rfl
    · rw [hf.pixin, hidx, Nat.zero_add]
      exact hpixin i p hp
    · exact hlim.symm ▸ ht.fits (Nat.zero_le _)
  · refine ⟨_, startEnc_mismatch hfree hc hn, ?_⟩
    rw [encodeImage, if_pos hn]
    exact (faulted_raise ..).endsAs ((raise_host ..).trans hhost) _

end WholeEncode

/-- Settles O58: step by step the machine makes the same appends as R172's function. -/
theorem encodeStepsGiveWholeEncode : Obligations.EncodeStepsGiveWholeEncode := by
  intro s w h c cs pixels henc hdec hcap hpixin result
  have hstep : step { s with host := [some (.startEnc w h c cs pixels.length)] } =
      startEnc w h c cs pixels.length { s with host := [] } := step_hostMove s (.startEnc w h c cs pixels.length) []
  have hfree := not_busy_withHost henc hdec []
  by_cases hc : c ≠ 3 ∧ c ≠ 4
  · have hrefused : encodeAll s.params.magic w h c cs pixels = .error .channelsNotThreeOrFour := if_pos hc
    rw [hrefused]
    show runSteps (pixels.length + 1 + 1) _ = _
    rw [runSteps, hstep, startEnc_other_channels hfree hc]
  · have hc := channels_iff.mp hc
    obtain ⟨t, e, hends⟩ := runSteps_startEnc (cs := cs) rfl hfree hc hcap hpixin
    have hresult : result = runSteps (pixels.length + 1) t := runSteps_of_step (hstep.trans e) _
    rw [encodeAll_of_channels _ hc, hresult]
    revert hends
    show EndsAs (encodeImage s.params.magic w h c cs pixels) _ → _
    cases encodeImage s.params.magic w h c cs pixels with
    | ok bytes => exact id
    | error f => exact id

end Sys2Proof.Machine
end

section
/-!
SUPPORT. A decode as the machine's steps: what an opcode outputs and leaves in the registers, as one state update (R183, R184);
the opcode that stands at `pos` (R181); and what a step of a decode does, with the reason of each fault (R186, R189, R197).
-/
namespace Sys2Proof

open Machine (addDeltas withLiterals pixelHash)

/-! ### What an opcode outputs -/

/-- The pixel an opcode outputs, from `prev` and the cache (R117, R129, R130, R150 to R153). -/
def Instr.pixel (i : Instr) (prev : Pixel) (cache : Vector Pixel 64) : Pixel :=
  match i with
  | .index k => cache[k]
  | .run8 _ => prev
  | .run16 _ => prev
  | .diff8 dr dg db => addDeltas prev dr dg db 0
  | .diff16 dr dg db => addDeltas prev dr dg db 0
  | .diff24 dr dg db da => addDeltas prev dr dg db da
  | .color r g b a => withLiterals prev r g b a

/-- How often it outputs that pixel. -/
def Instr.count : Instr → Nat
  | .run8 len => len
  | .run16 len => len
  | _ => 1

/-- Whether it puts the pixel into the cache (R154). -/
def Instr.entersCache : Instr → Bool
  | .index _ => false
  | .run8 _ => false
  | .run16 _ => false
  | _ => true

/-- The cache an opcode leaves. -/
def Instr.cacheAfter (i : Instr) (prev : Pixel) (cache : Vector Pixel 64) : Vector Pixel 64 :=
  if i.entersCache then cache.set (pixelHash (i.pixel prev cache)) (i.pixel prev cache) else cache

/-- R80, R81: no opcode outputs nothing. -/
theorem Instr.count_pos {i : Instr} (h : i.wf = true) : 0 < i.count := by
  cases i with
  | run8 len | run16 len =>
    simp only [Instr.wf, Bool.and_eq_true, decide_eq_true_eq] at h
    simp only [Instr.count]
    omega
  | _ => exact Nat.one_pos

/-- R72: every opcode takes at least its first byte. -/
theorem Instr.length_pos (i : Instr) : 0 < i.length := by
  cases i <;> simp only [Instr.length] <;> omega

end Sys2Proof

namespace Sys2Proof.Machine

variable {s t : State} {i : Instr}

/-! ### What an opcode leaves (R183) -/

/-- R188's arms in these terms: whatever the opcode, the pixel it outputs becomes `prev`. -/
theorem decodeOne_eq (i : Instr) (x : DecodeVars) :
    decodeOne i x =
      { pixels := x.pixels ++ List.replicate i.count (i.pixel x.prev x.cache)
        prev := i.pixel x.prev x.cache, cache := i.cacheAfter x.prev x.cache } := by
  cases i <;> rfl

/-- The state an opcode leaves when it completes. -/
def State.afterOpcode (s : State) (i : Instr) : State :=
  { s.advance i.length with
    pixout := Cells.put s.pixout (4 * s.out) (pixelRunBytes (i.pixel s.prev s.cache) i.count)
    out := s.out + i.count, prev := i.pixel s.prev s.cache, cache := i.cacheAfter s.prev s.cache }

theorem afterOpcode_frame (s : State) (i : Instr) : OpcodeFrame s (s.afterOpcode i) := by constructor <;> rfl

theorem afterOpcode_outputs (s : State) (i : Instr) :
    OutputsPixels (i.pixel s.prev s.cache) i.count s (s.afterOpcode i) := outputsPixels_put _ _ s

theorem finishPixel_of_room (p : Pixel) (h : s.out < s.pixelCount) :
    finishPixel p s = .ok () { s with pixout := Cells.put s.pixout (4 * s.out) (pixelBytes p), out := s.out + 1, prev := p
                                      cache := s.cache.set (pixelHash p) p } := by
  rw [finishPixel, emitPixel_of_room p h]
  rfl

theorem next_final_of_ok {x : Res Unit} (h : x = .ok () t) :
    (.next x.final : Host.Outcome State Fault Refusal) = .next t := by
  rw [h, Res.final_ok]

/-- R183 where the pixel buffer has room for all the opcode outputs. -/
theorem exec_of_room (i : Instr) (h : s.out + i.count ≤ s.pixelCount) : exec i s = .next (s.afterOpcode i) := by
  cases i with
  | index k => exact execIndex_of_room k h
  | run8 len => exact next_final_of_ok (emitRun_of_room (s := s.advance 1) h)
  | run16 len => exact next_final_of_ok (emitRun_of_room (s := s.advance 2) h)
  | diff8 dr dg db => exact next_final_of_ok (finishPixel_of_room (s := s.advance 1) _ h)
  | diff16 dr dg db => exact next_final_of_ok (finishPixel_of_room (s := s.advance 2) _ h)
  | diff24 dr dg db da => exact next_final_of_ok (finishPixel_of_room (s := s.advance 3) _ h)
  | color r g b a => exact next_final_of_ok (finishPixel_of_room (s := s.advance _) _ h)

/-- R182, R189: an opcode that outputs more than there is room for takes OutOfBounds. -/
theorem exec_of_overrun (hwf : i.wf = true) (h : s.pixelCount < s.out + i.count) :
    ∃ t n, exec i s = .next t ∧ Faulted .outOfBounds n t ∧ FaultFrame s t := by
  have hcount := Instr.count_pos hwf
  cases i with
  | index k =>
    exact ⟨_, _, execIndex_of_full k (Nat.le_of_lt_succ h), faulted_raise .., faultFrame_raise_advance ..⟩
  | run8 | run16 =>
    exact (execRun_of_overrun rfl hcount h).imp fun t ⟨e, hfault, _, hframe⟩ => ⟨_, e, hfault, hframe⟩
  | diff8 | diff16 | diff24 | color =>
    exact (execFinish_of_full rfl (Nat.le_of_lt_succ h)).imp fun t ht => ⟨_, ht⟩

/-! ### The opcode at `pos` (R181) -/

/-- `n` bytes of `STREAM` from an address on. -/
def State.streamBytes (s : State) (a n : Nat) : List Byte := (List.range n).map fun k => s.streamByte (a + k)

@[simp] theorem streamBytes_length (s : State) (a n : Nat) : (s.streamBytes a n).length = n := by
  simp [State.streamBytes]

theorem streamBytes_add (s : State) (a m n : Nat) :
    s.streamBytes a (m + n) = s.streamBytes a m ++ s.streamBytes (a + m) n := by
  simp [State.streamBytes, List.range_add, Function.comp_def, Nat.add_assoc]

/-- The opcode whose first byte is at `pos`. -/
def State.opcode (s : State) : Instr :=
  instrOf (s.streamByte s.pos) (s.streamBytes (s.pos + 1) (ncont (s.streamByte s.pos)))

theorem opcode_length (s : State) : s.opcode.length = oplen (s.streamByte s.pos) := instrOf_length ..

theorem opcode_wf (s : State) : s.opcode.wf = true := instrOf_wf ..

theorem fetch_of_room (h : s.pos + s.opcode.length + 4 ≤ s.lim) : fetch s = .instr s.opcode := by
  rw [opcode_length, oplen] at h
  rw [fetch, readU8_of_room (by omega)]
  dsimp only
  rw [if_neg (by omega), readBytes_of_room (by simp only; omega)]
  rfl

/-- R197: the opcode would reach into the trailer. -/
theorem fetch_of_cut (hleft : s.pos + 4 < s.lim) (h : s.lim < s.pos + s.opcode.length + 4) :
    fetch s = .raised (raise .truncatedStream s.pos (s.advance 1)) := by
  rw [opcode_length, oplen] at h
  rw [fetch, readU8_of_room (by omega)]
  exact if_pos (by simp only; omega)

/-! ### A step of a decode -/

section DecodeSteps

variable (hhost : s.host = []) (hm : s.mode = .dec)
include hhost hm

theorem step_of_opcodes_left (hleft : s.pos + 4 < s.lim) : step s = decodeStep s := by
  simp only [step_of_idle_host hhost, seqStep, hm, if_pos hleft]

theorem step_of_no_opcodes_left (hend : s.lim ≤ s.pos + 4) : step s = .next (decodeFinish s) := by
  simp only [step_of_idle_host hhost, seqStep, hm, if_neg (Nat.not_lt.mpr hend)]

theorem step_of_whole_opcode (h : s.pos + s.opcode.length + 4 ≤ s.lim) : step s = exec s.opcode s := by
  have hleft := s.opcode.length_pos
  rw [step_of_opcodes_left hhost hm (by omega), decodeStep, fetch_of_room h]

/-- What a step of a decode does while opcodes are left: complete the opcode at `pos`, find too little room for its pixels, or
find it cut by the trailer. -/
theorem step_opcode_cases (hleft : s.pos + 4 < s.lim) :
    (s.pos + s.opcode.length + 4 ≤ s.lim ∧ s.out + s.opcode.count ≤ s.pixelCount ∧
      step s = .next (s.afterOpcode s.opcode)) ∨
    (s.pos + s.opcode.length + 4 ≤ s.lim ∧ s.pixelCount < s.out + s.opcode.count ∧
      ∃ t n, step s = .next t ∧ Faulted .outOfBounds n t ∧ t.host = []) ∨
    (s.lim < s.pos + s.opcode.length + 4 ∧
      ∃ t, step s = .next t ∧ Faulted .truncatedStream s.pos t ∧ t.host = []) := by
  rcases Nat.lt_or_ge s.lim (s.pos + s.opcode.length + 4) with hcut | hwhole
  · refine .inr (.inr ⟨hcut, _, ?_, faulted_raise _ _ (s.advance 1), (raise_host ..).trans hhost⟩)
    rw [step_of_opcodes_left hhost hm hleft, decodeStep, fetch_of_cut hleft hcut]
  rw [step_of_whole_opcode hhost hm hwhole]
  rcases Nat.lt_or_ge s.pixelCount (s.out + s.opcode.count) with hover | hroom
  · obtain ⟨t, n, e, hfault, hframe⟩ := exec_of_overrun (opcode_wf s) hover
    exact .inr (.inl ⟨hwhole, hover, t, n, e, hfault, hframe.host.trans hhost⟩)
  · exact .inl ⟨hwhole, hroom, exec_of_room s.opcode hroom⟩

end DecodeSteps

end Sys2Proof.Machine
end

section
/-!
PROOF. The moves of the decode sequence (spec/45_decoder_sequence.md): `START_DEC` on a good header (R177, R178), the step (R181,
R183, R184), the finish (R186), and that every decode ends (R189, R190, R235).
-/
namespace Sys2Proof.Machine

variable {s t : State}

/-! ### START_DEC -/

/-- `START_DEC` on a header that passes every check (R177 to R179). -/
theorem startDec_opens {len : Nat} (hfree : ¬ s.busy = true) (hmax : len ≤ s.params.streamMax) (hlen : 14 ≤ len)
    (hmagic : (openDecode len s).streamWord 0 = s.params.magic.word)
    (hsize : 4 * (openDecode len s).loadHeader.pixelCount ≤ s.params.pixbufMax) :
    startDec len s = .next (initDecode (openDecode len s).loadHeader) := by
  have hcheck : checkHeader ((openDecode len s).streamWord 0) (openDecode len s).loadHeader =
      .ok () (openDecode len s).loadHeader := (if_neg (not_not.mpr hmagic)).trans (if_neg (Nat.not_lt.mpr hsize))
  rw [startDec_header hfree hmax hlen, hcheck, Res.andThen_ok, Res.final_ok]

/-- Settles O22: the checks pass, and the registers loaded are the header's words and bytes that the host placed. -/
theorem startDecOpensDecode : Obligations.StartDecOpensDecode := by
  intro len s rest hdr henc hdec hmax hlen hplaced hmagic width height hsize
  have word : ∀ a, a + 4 ≤ 14 → (openDecode len { s with host := rest }).streamWord a =
      hdr a ++ hdr (a + 1) ++ hdr (a + 2) ++ hdr (a + 3) := fun a ha =>
    streamWord_eq_of_get? fun k hk => hplaced (a + k) (by omega)
  have hwidth := word 4 (by decide)
  have hheight := word 8 (by decide)
  have hcount : (openDecode len { s with host := rest }).loadHeader.pixelCount = width.toNat * height.toNat :=
    congrArg₂ (fun w h : Word => w.toNat * h.toNat) hwidth hheight
  refine ⟨_, (step_hostMove ..).trans (startDec_opens (not_busy_withHost henc hdec rest) hmax hlen
    ((word 0 (by decide)).trans hmagic) (hcount ▸ hsize)), rfl, rfl, hwidth, hheight,
    streamByte_eq_of_get? (hplaced 12 (by decide)), streamByte_eq_of_get? (hplaced 13 (by decide)), rfl, rfl, rfl, rfl,
    cacheInit_get, fun _ => rfl, rfl, rfl, rfl, rfl⟩

/-! ### The step and the finish -/

/-- Settles O16: the opcode decoded from the bytes at `pos` is the one the fetch gives. -/
theorem stepRunsDecodedInstruction : Obligations.StepRunsDecodedInstruction := by
  intro s cs i hhost hm _ hroom hcs hdecode
  obtain ⟨b, ds, hbytes, -, rfl⟩ := decode_eq_ok_iff.mp hdecode
  obtain ⟨rfl, hds⟩ := List.cons.inj hbytes
  have hopcode : s.opcode = instrOf (s.streamByte s.pos) ds := by
    rw [State.opcode, State.streamBytes, ← hcs, hds, List.append_nil]
  rw [← opcode_length] at hroom
  rw [step_of_whole_opcode hhost hm hroom, hopcode]

/-- Settles O18: of the three ends of a step only the completed opcode leaves the mode DEC. -/
theorem decodeStepAdvances : Obligations.DecodeStepAdvances := by
  intro s t hhost hm hleft e hmode
  rcases step_opcode_cases hhost hm hleft with
    ⟨hwhole, -, e'⟩ | ⟨-, -, u, n, e', hfault, -⟩ | ⟨-, u, e', hfault, -⟩ <;> cases e.symm.trans e'
  · exact ⟨congrArg (s.pos + ·) (opcode_length s), hwhole, Nat.lt_add_of_pos_right (Instr.count_pos (opcode_wf s)),
      afterOpcode_frame ..⟩
  · cases hfault.1.symm.trans hmode
  · cases hfault.1.symm.trans hmode

/-- Settles O19: by the finish's one test. -/
theorem decodeFinishChecksPixelCount : Obligations.DecodeFinishChecksPixelCount := by
  intro s hhost hm hend
  rw [step_of_no_opcodes_left hhost hm hend]
  rcases decodeFinish_cases s with ⟨hout, e⟩ | ⟨hout, e⟩ <;> rw [e]
  · exact ⟨fun _ => rfl, fun h => absurd hout h⟩
  · exact ⟨fun h => absurd h hout, fun _ => ⟨_, rfl, faulted_raise .., ⟨raise_prev .., raise_cache ..⟩,
      by constructor <;> simp⟩⟩

/-! ### Every decode ends -/

/-- The four ways a decode ends (R189). -/
def DecodeEnded (t : State) : Prop :=
  t.mode = .done ∨ ∃ n, Faulted .outOfBounds n t ∨ Faulted .truncatedStream n t ∨ Faulted .dimensionMismatch n t

theorem decodeFinish_ended (s : State) : DecodeEnded (decodeFinish s) := by
  rcases decodeFinish_cases s with ⟨-, e⟩ | ⟨-, e⟩ <;> rw [e]
  · exact .inl rfl
  · exact .inr ⟨_, .inr (.inr (faulted_raise ..))⟩

/-- R190: a decode with at most `n` bytes left before the trailer ends within `n + 1` steps, for every opcode takes one. -/
theorem decode_ends (n : Nat) (hhost : s.host = []) (hm : s.mode = .dec) (hleft : s.lim - 4 - s.pos ≤ n) :
    ∃ k t, k ≤ n + 1 ∧ runSteps k s = .next t ∧ DecodeEnded t := by
  induction n generalizing s with
  | zero =>
    exact ⟨1, _, le_refl 1, runSteps_of_step (step_of_no_opcodes_left hhost hm (by omega)) 0, decodeFinish_ended s⟩
  | succ n ih =>
    rcases Nat.lt_or_ge (s.pos + 4) s.lim with hmore | hend
    · rcases step_opcode_cases hhost hm hmore with
        ⟨-, -, e⟩ | ⟨-, -, t, info, e, hfault, -⟩ | ⟨-, t, e, hfault, -⟩
      · have hpos : (s.afterOpcode s.opcode).pos = s.pos + s.opcode.length := rfl
        have hlim : (s.afterOpcode s.opcode).lim = s.lim := rfl
        have hlength := s.opcode.length_pos
        obtain ⟨k, t, hk, erun, ht⟩ := ih (s := s.afterOpcode s.opcode) hhost hm (by omega)
        exact ⟨k + 1, t, Nat.succ_le_succ hk, (runSteps_of_step e k).trans erun, ht⟩
      · exact ⟨1, t, Nat.le_add_left 1 _, runSteps_of_step e 0, .inr ⟨info, .inl hfault⟩⟩
      · exact ⟨1, t, Nat.le_add_left 1 _, runSteps_of_step e 0, .inr ⟨s.pos, .inr (.inl hfault)⟩⟩
    · exact ⟨1, _, Nat.le_add_left 1 _, runSteps_of_step (step_of_no_opcodes_left hhost hm hend) 0,
        decodeFinish_ended s⟩

/-- Settles O20: by induction on the bytes left. -/
theorem decodeAlwaysEnds : Obligations.DecodeAlwaysEnds := fun _ hhost hm => decode_ends _ hhost hm le_rfl

end Sys2Proof.Machine
end

section
/-!
PROOF. The steps of a decode give what the one-function decode gives (R188).
-/
namespace Sys2Proof.Machine

variable {s t : State} {bytes : List Byte} {pixels : List Pixel}

/-! ### The loop in terms of the machine's registers -/

/-- The variables of R188's loop in a state that has the pixels `pixels` output. -/
def State.decodeVars (s : State) (pixels : List Pixel) : DecodeVars :=
  { pixels := pixels, prev := s.prev, cache := s.cache }

/-- An arm of R188's `case` leaves the registers the machine's opcode leaves. -/
theorem decodeOne_decodeVars (i : Instr) (s : State) (pixels : List Pixel) :
    decodeOne i (s.decodeVars pixels) =
      (s.afterOpcode i).decodeVars (pixels ++ List.replicate i.count (i.pixel s.prev s.cache)) := decodeOne_eq ..

theorem decodeLoop_nil (n fuel : Nat) (x : DecodeVars) : decodeLoop n fuel [] x = .ok x := by
  cases fuel <;> rfl

theorem decodeLoop_of_opcode {code rest : List Byte} {i : Instr} (h : decode code = .ok (i, rest)) (n fuel : Nat)
    (x : DecodeVars) :
    decodeLoop n (fuel + 1) code x =
      if n < (decodeOne i x).pixels.length then .error .outOfBounds else decodeLoop n fuel rest (decodeOne i x) := by
  obtain ⟨b, cs, rfl, -, -⟩ := decode_eq_ok_iff.mp h
  rw [decodeLoop, h]

theorem decodeLoop_of_cut {b : Byte} {rest : List Byte} (h : rest.length < ncont b) (n fuel : Nat) (x : DecodeVars) :
    decodeLoop n (fuel + 1) (b :: rest) x = .error .truncatedStream := by
  rw [decodeLoop, decode, if_pos h]

/-- R188 below its loop: the count of pixels is checked against the header, and the image is complete. -/
def imageOf (width height : Word) (channels cspace : Byte) (x : DecodeVars) : Except FaultKind Image :=
  if x.pixels.length ≠ width.toNat * height.toNat then .error .dimensionMismatch
  else .ok { width := width, height := height, channels := channels, cspace := cspace, pixels := x.pixels }

/-- The same with the header registers of a state. -/
def State.image (s : State) (x : DecodeVars) : Except FaultKind Image := imageOf s.width s.height s.channels s.cspace x

theorem image_of_count {x : DecodeVars} (h : x.pixels.length = s.pixelCount) :
    s.image x = .ok ⟨s.width, s.height, s.channels, s.cspace, x.pixels⟩ := if_neg (not_not.mpr h)

theorem image_of_mismatch {x : DecodeVars} (h : x.pixels.length ≠ s.pixelCount) :
    s.image x = .error .dimensionMismatch := if_pos h

/-- The bytes of a stream between its header and its trailer (R188). -/
def opcodeSection (stream : List Byte) : List Byte := (stream.take (stream.length - 4)).drop 14

/-- R188 on a header that passes every check. -/
theorem decodeAll_of_header {magic : Magic} {pixbufMax : Nat} {w h : Word} {c cs : Byte} (hlen : 14 ≤ bytes.length)
    (hmagic : wordAt bytes 0 = magic.word) (hw : wordAt bytes 4 = w) (hh : wordAt bytes 8 = h)
    (hc : bytes.getD 12 0 = c) (hcs : bytes.getD 13 0 = cs) (hsize : 4 * (w.toNat * h.toNat) ≤ pixbufMax) :
    decodeAll magic pixbufMax bytes =
      (decodeLoop (w.toNat * h.toNat) (opcodeSection bytes).length (opcodeSection bytes)
        ⟨[], Config.prevInit, cacheInit⟩).bind (imageOf w h c cs) := by
  subst hw hh hc hcs
  exact (if_neg (Nat.not_lt.mpr hlen)).trans ((if_neg (not_not.mpr hmagic)).trans (if_neg (Nat.not_lt.mpr hsize)))

/-! ### The opcode section -/

/-- The bytes from `pos` to the trailer. -/
def State.code (s : State) : List Byte := s.streamBytes s.pos (s.lim - (s.pos + 4))

theorem code_of_no_opcodes_left (h : s.lim ≤ s.pos + 4) : s.code = [] := by
  rw [State.code, Nat.sub_eq_zero_of_le h]
  rfl

theorem code_eq_cons (h : s.pos + 4 < s.lim) :
    s.code = s.streamByte s.pos :: s.streamBytes (s.pos + 1) (s.lim - (s.pos + 5)) := by
  rw [State.code, show s.lim - (s.pos + 4) = 1 + (s.lim - (s.pos + 5)) by omega, streamBytes_add]
  rfl

/-- R181: the fetch takes from the opcode section what R188's `case` takes. -/
theorem decode_code (h : s.pos + s.opcode.length + 4 ≤ s.lim) :
    decode s.code = .ok (s.opcode, (s.afterOpcode s.opcode).code) := by
  have hlength : s.opcode.length = 1 + ncont (s.streamByte s.pos) := opcode_length s
  have hrest : s.lim - (s.pos + 5) = ncont (s.streamByte s.pos) + (s.lim - (s.pos + s.opcode.length + 4)) := by omega
  have hpos : s.pos + 1 + ncont (s.streamByte s.pos) = s.pos + s.opcode.length := by omega
  rw [code_eq_cons (by omega), hrest, streamBytes_add, hpos]
  exact decode_eq_ok_iff.mpr ⟨_, _, rfl, streamBytes_length .., rfl⟩

/-! ### The pixels in PIXOUT -/

/-- `out` counts the pixels, and each stands at its place in `PIXOUT` (R47). -/
def HoldsPixels (pixels : List Pixel) (s : State) : Prop :=
  s.out = pixels.length ∧
  ∀ (i k : Nat) (p : Pixel), pixels[i]? = some p → k < 4 → Cells.get? s.pixout (4 * i + k) = some (channelAt p k)

theorem HoldsPixels.outputs {p : Pixel} {n : Nat} (h : HoldsPixels pixels s) (ho : OutputsPixels p n s t) :
    HoldsPixels (pixels ++ List.replicate n p) t := by
  obtain ⟨hout, hpixels⟩ := h
  obtain ⟨hout', hbytes⟩ := ho
  refine ⟨by rw [hout', hout, List.length_append, List.length_replicate], fun i k q hq hk => ?_⟩
  rw [hbytes]
  rw [List.getElem?_append] at hq
  split at hq
  next hi =>
    rw [if_neg (by omega)]
    exact hpixels i k q hq hk
  next hi =>
    obtain ⟨hlt, rfl⟩ := List.getElem?_eq_some_iff.mp hq
    rw [List.length_replicate] at hlt
    rw [if_pos (by omega), List.getElem_replicate, Nat.mul_add_mod, Nat.mod_eq_of_lt hk]

/-! ### The machine's steps against the loop -/

/-- A state is the end of a decode with the result `r`: DONE with the image in the registers and `PIXOUT`, or the kind of
fault. -/
def ShowsResult (r : Except FaultKind Image) (t : State) : Prop :=
  match r with
  | .ok im => t.mode = .done ∧ t.width = im.width ∧ t.height = im.height ∧ t.channels = im.channels ∧
      t.cspace = im.cspace ∧ HoldsPixels im.pixels t
  | .error f => ∃ n, Faulted f n t

theorem Faulted.showsResult {f : FaultKind} {n : Nat} (h : Faulted f n t) : ShowsResult (.error f) t := ⟨n, h⟩

theorem ShowsResult.over {r : Except FaultKind Image} (h : ShowsResult r t) : Over t := by
  cases r with
  | ok im => exact .inl h.1
  | error f =>
    obtain ⟨n, hfault⟩ := h
    exact .inr hfault.1

/-- An invocation that is over stays as it is (R205, R206). -/
theorem runSteps_of_over (hhost : t.host = []) (h : Over t) (k : Nat) : runSteps k t = .next t := by
  refine runSteps_of_waiting hhost ?_ ?_ k <;> rcases h with hm | hm <;> simp [hm]

/-- A decode that has ended stays so, however many steps follow. -/
theorem runSteps_of_ended {r : Except FaultKind Image} (e : step s = .next t) (hhost : t.host = []) (h : ShowsResult r t)
    (k : Nat) : ∃ u, runSteps (k + 1) s = .next u ∧ ShowsResult r u :=
  ⟨t, (runSteps_of_step e k).trans (runSteps_of_over hhost h.over k), h⟩

theorem decodeFinish_showsResult (h : HoldsPixels pixels s) :
    ShowsResult (s.image (s.decodeVars pixels)) (decodeFinish s) := by
  rcases decodeFinish_cases s with ⟨hout, e⟩ | ⟨hout, e⟩ <;> rw [e]
  · rw [image_of_count (x := s.decodeVars pixels) (h.1.symm.trans hout)]
    exact ⟨rfl, rfl, rfl, rfl, rfl, h⟩
  · rw [image_of_mismatch (x := s.decodeVars pixels) (h.1 ▸ hout)]
    exact (faulted_raise ..).showsResult

theorem decodeFinish_host (s : State) : (decodeFinish s).host = s.host := by
  rcases decodeFinish_cases s with ⟨-, e⟩ | ⟨-, e⟩ <;> rw [e]
  exact raise_host ..

/-- Behind the last opcode, the finish gives what R188 gives behind its loop. -/
theorem runSteps_finishes (fuel k : Nat) (hend : s.lim ≤ s.pos + 4) (hhost : s.host = []) (hm : s.mode = .dec)
    (hpixels : HoldsPixels pixels s) :
    ∃ t, runSteps (k + 1) s = .next t ∧
      ShowsResult ((decodeLoop s.pixelCount fuel s.code (s.decodeVars pixels)).bind s.image) t := by
  rw [code_of_no_opcodes_left hend, decodeLoop_nil]
  exact runSteps_of_ended (step_of_no_opcodes_left hhost hm hend) ((decodeFinish_host s).trans hhost)
    (decodeFinish_showsResult hpixels) k

/-- The steps from a state in DEC give what R188's function gives for the opcodes left: each opcode takes a step and at
least one byte of the section, and the finish takes one more. -/
theorem runSteps_decodes (fuel k : Nat) (hfuel : s.lim - (s.pos + 4) ≤ fuel) (hk : fuel ≤ k) (hhost : s.host = [])
    (hm : s.mode = .dec) (hpixels : HoldsPixels pixels s) :
    ∃ t, runSteps (k + 1) s = .next t ∧
      ShowsResult ((decodeLoop s.pixelCount fuel s.code (s.decodeVars pixels)).bind s.image) t := by
  induction fuel generalizing s k pixels with
  | zero => exact runSteps_finishes 0 k (by omega) hhost hm hpixels
  | succ fuel ih =>
    rcases Nat.lt_or_ge (s.pos + 4) s.lim with hleft | hend
    · have hcount : (decodeOne s.opcode (s.decodeVars pixels)).pixels.length = s.out + s.opcode.count := by
        rw [decodeOne_decodeVars, State.decodeVars, List.length_append, List.length_replicate, hpixels.1]
      rcases step_opcode_cases hhost hm hleft with
        ⟨hwhole, hroom, e⟩ | ⟨hwhole, hover, t, n, e, hfault, hthost⟩ | ⟨hcut, t, e, hfault, hthost⟩
      · have hlength := s.opcode.length_pos
        have hpos : (s.afterOpcode s.opcode).pos = s.pos + s.opcode.length := rfl
        have hlim : (s.afterOpcode s.opcode).lim = s.lim := rfl
        obtain ⟨k, rfl⟩ := Nat.exists_eq_add_one.mpr (show 0 < k by omega)
        rw [runSteps_of_step e, decodeLoop_of_opcode (decode_code hwhole), hcount, if_neg (Nat.not_lt.mpr hroom),
          decodeOne_decodeVars]
        exact ih (s := s.afterOpcode s.opcode) k (by omega) (Nat.le_of_succ_le_succ hk) hhost hm
          (hpixels.outputs (afterOpcode_outputs ..))
      · rw [decodeLoop_of_opcode (decode_code hwhole), hcount, if_pos hover]
        exact runSteps_of_ended e hthost hfault.showsResult k
      · rw [code_eq_cons hleft, decodeLoop_of_cut]
        · exact runSteps_of_ended e hthost hfault.showsResult k
        · rw [opcode_length, oplen] at hcut
          rw [streamBytes_length]
          omega
    · exact runSteps_finishes _ k hend hhost hm hpixels

/-! ### START_DEC on a whole stream -/

section WholeDecode

variable (hplaced : ∀ (k : Nat) (b : Byte), bytes[k]? = some b → Cells.get? s.stream k = some b)
include hplaced

theorem get?_stream_of_placed {k : Nat} (hk : k < bytes.length) : Cells.get? s.stream k = some (bytes.getD k 0) :=
  hplaced k _ (by rw [List.getD_eq_getElem?_getD, List.getElem?_eq_getElem hk, Option.getD_some])

theorem streamWord_of_placed {k : Nat} (hk : k + 4 ≤ bytes.length) : s.streamWord k = wordAt bytes k :=
  streamWord_eq_of_get? (bytes := (bytes.getD · 0)) fun j hj => get?_stream_of_placed hplaced (by omega)

theorem streamBytes_of_placed {a n : Nat} (h : a + n ≤ bytes.length) :
    s.streamBytes a n = (bytes.drop a).take n := by
  refine List.ext_getElem (by simp; omega) fun k hk _ => ?_
  rw [streamBytes_length] at hk
  have hbyte : a + k < bytes.length := by omega
  simp only [State.streamBytes, List.getElem_map, List.getElem_range, List.getElem_take, List.getElem_drop]
  exact streamByte_eq_of_get? (hplaced _ _ (List.getElem?_eq_getElem hbyte))

/-- Behind the header a decode has the stream's opcode section left. -/
theorem code_of_placed (hpos : s.pos = 14) (hlim : s.lim = bytes.length) :
    s.code = opcodeSection bytes := by
  unfold opcodeSection
  rcases Nat.lt_or_ge bytes.length 18 with hshort | hlong
  · rw [code_of_no_opcodes_left (by omega), List.drop_eq_nil_of_le (by rw [List.length_take]; omega)]
  · rw [State.code, streamBytes_of_placed hplaced (by omega), List.drop_take, hpos, hlim, Nat.sub_sub, Nat.add_comm 4]

/-- The steps behind a `START_DEC` that opened a decode of the whole stream. -/
theorem runSteps_initDecode (hhost : s.host = []) (hm : s.mode = .dec) (hpos : s.pos = 14) (hlim : s.lim = bytes.length) :
    ∃ u, runSteps (bytes.length + 1) (initDecode s) = .next u ∧
      ShowsResult ((decodeLoop s.pixelCount (opcodeSection bytes).length (opcodeSection bytes)
        ⟨[], Config.prevInit, cacheInit⟩).bind s.image) u := by
  have hcode : (initDecode s).code = opcodeSection bytes := code_of_placed (s := initDecode s) hplaced hpos hlim
  have hlength : s.lim - (s.pos + 4) = (opcodeSection bytes).length :=
    (streamBytes_length ..).symm.trans (congrArg List.length hcode)
  have hfuel : (opcodeSection bytes).length ≤ bytes.length := by omega
  rw [← hcode] at hlength hfuel ⊢
  exact runSteps_decodes (s := initDecode s) (pixels := []) _ _ hlength.le hfuel hhost hm ⟨rfl, by simp⟩

/-- `START_DEC` and the steps behind it, by the checks in their order. -/
theorem runSteps_startDec (hhost : s.host = []) (hfree : ¬ s.busy = true) (hmax : bytes.length ≤ s.params.streamMax) :
    ∃ t u, startDec bytes.length s = .next t ∧ runSteps (bytes.length + 1) t = .next u ∧
      ShowsResult (decodeAll s.params.magic s.params.pixbufMax bytes) u := by
  have stays : ∀ (f : FaultKind) (n : Nat) (o : State), o.host = [] →
      runSteps (bytes.length + 1) (raise f n o) = .next (raise f n o) := fun f n o ho =>
    runSteps_of_over ((raise_host ..).trans ho) (.inr (raise_mode ..)) _
  rcases Nat.lt_or_ge bytes.length 14 with hshort | hlen
  · have hall : decodeAll s.params.magic s.params.pixbufMax bytes = .error .outOfBounds := if_pos hshort
    rw [hall]
    exact ⟨_, _, startDec_short hfree hmax hshort, stays _ _ _ hhost, (faulted_raise ..).showsResult⟩
  have word : ∀ k, k + 4 ≤ 14 → wordAt bytes k = (openDecode bytes.length s).streamWord k := fun k hk =>
    (streamWord_of_placed (s := openDecode bytes.length s) hplaced (by omega)).symm
  have byte : ∀ k, k < 14 → bytes.getD k 0 = (openDecode bytes.length s).streamByte k := fun k hk =>
    (streamByte_eq_of_get? (s := openDecode bytes.length s) (get?_stream_of_placed hplaced (by omega))).symm
  by_cases hmagic : (openDecode bytes.length s).streamWord 0 = s.params.magic.word
  case neg =>
    have hall : decodeAll s.params.magic s.params.pixbufMax bytes = .error .malformedHeader :=
      (if_neg (Nat.not_lt.mpr hlen)).trans (if_pos (word 0 (by decide) ▸ hmagic))
    rw [hall]
    exact ⟨_, _, startDec_wrong_magic hfree hmax hlen hmagic, stays _ _ _ hhost, (faulted_raise ..).showsResult⟩
  rcases Nat.lt_or_ge s.params.pixbufMax (4 * (openDecode bytes.length s).loadHeader.pixelCount) with hover | hsize
  · have hall : decodeAll s.params.magic s.params.pixbufMax bytes = .error .dimensionMismatch := by
      rw [decodeAll, word 0 (by decide), word 4 (by decide), word 8 (by decide)]
      exact (if_neg (Nat.not_lt.mpr hlen)).trans ((if_neg (not_not.mpr hmagic)).trans (if_pos hover))
    rw [hall]
    exact ⟨_, _, startDec_too_many_pixels hfree hmax hlen hmagic hover, stays _ _ _ hhost,
      (faulted_raise ..).showsResult⟩
  · rw [decodeAll_of_header hlen ((word 0 (by decide)).trans hmagic) (word 4 (by decide)) (word 8 (by decide))
      (byte 12 (by decide)) (byte 13 (by decide)) hsize]
    obtain ⟨u, erun, hu⟩ := runSteps_initDecode (s := (openDecode bytes.length s).loadHeader) hplaced hhost rfl rfl rfl
    exact ⟨_, u, startDec_opens hfree hmax hlen hmagic hsize, erun, hu⟩

end WholeDecode

/-- Settles O59: step by step the machine takes the same opcodes from the same bytes as R188's function. -/
theorem decodeStepsGiveWholeDecode : Obligations.DecodeStepsGiveWholeDecode := by
  intro s bytes henc hdec hmax hplaced
  have hstep : step { s with host := [some (.startDec bytes.length)] } = startDec bytes.length { s with host := [] } :=
    step_hostMove s (.startDec bytes.length) []
  obtain ⟨t, u, e, erun, hu⟩ := runSteps_startDec (s := { s with host := [] }) hplaced rfl
    (not_busy_withHost henc hdec []) hmax
  refine ⟨u, (runSteps_of_step (hstep.trans e) _).trans erun, ?_⟩
  replace hu : ShowsResult (decodeAll s.params.magic s.params.pixbufMax bytes) u := hu
  revert hu
  cases decodeAll s.params.magic s.params.pixbufMax bytes with
  | ok im => exact id
  | error f => exact id

end Sys2Proof.Machine
end

section
/-!
PROOF. The round trip (R191): the decode of an encoded image gives the image back. A decoder that has taken the bytes written so
far has the encoder's `prev` and cache, and lacks just the pixels of the pending run (R43).
-/
namespace Sys2Proof.Machine

variable {s : State} {v : Pixel} {code code' bytes : List Byte} {x y z : DecodeVars} {pixels vs : List Pixel} {cap : Nat}

/-! ### Opcodes in a row -/

/-- `code` is the encoding of well-formed opcodes whose meanings lead from `x` to `y`. -/
inductive Decodes : List Byte → DecodeVars → DecodeVars → Prop where
  | nil (x : DecodeVars) : Decodes [] x x
  | opcode {i : Instr} {code : List Byte} {x y : DecodeVars} (hwf : i.wf = true) (h : Decodes code (decodeOne i x) y) :
      Decodes (encode i ++ code) x y

theorem Decodes.single {i : Instr} (hwf : i.wf = true) (h : decodeOne i x = y) : Decodes (encode i) x y := by
  subst h
  exact List.append_nil (encode i) ▸ Decodes.opcode hwf (.nil _)

theorem Decodes.trans (h : Decodes code x y) (k : Decodes code' y z) : Decodes (code ++ code') x z := by
  induction h with
  | nil x => exact k
  | opcode hwf _ ih => exact List.append_assoc .. ▸ Decodes.opcode hwf (ih k)

/-- No opcode takes a pixel back. -/
theorem Decodes.length_le (h : Decodes code x y) : x.pixels.length ≤ y.pixels.length := by
  induction h with
  | nil x => exact le_rfl
  | opcode _ _ ih =>
    refine le_trans ?_ ih
    rw [decodeOne_eq, List.length_append]
    exact Nat.le_add_right ..

/-- R188's loop takes the opcodes one by one, where they output no more than `n` pixels. -/
theorem Decodes.decodeLoop_eq (h : Decodes code x y) {n fuel : Nat} (hn : y.pixels.length ≤ n)
    (hfuel : code.length ≤ fuel) : decodeLoop n fuel code x = .ok y := by
  induction h generalizing fuel with
  | nil x => exact decodeLoop_nil ..
  | @opcode i code x y hwf h ih =>
    have hpos := i.length_pos
    rw [List.length_append, encode_length] at hfuel
    obtain ⟨fuel, rfl⟩ := Nat.exists_eq_add_one.mpr (show 0 < fuel by omega)
    rw [decodeLoop_of_opcode (encodeThenDecode i code hwf), if_neg (Nat.not_lt.mpr (h.length_le.trans hn))]
    exact ih hn (by omega)

/-! ### The encoder's bytes as opcodes -/

theorem runOpcode_wf {run : Nat} (hpos : run ≠ 0) (hmax : run ≤ Config.runMax) : (runOpcode run).wf = true := by
  have hmax : run ≤ 8224 := hmax
  unfold runOpcode
  split <;> simp only [Instr.wf, Bool.and_eq_true, decide_eq_true_eq] <;> omega

theorem decodeOne_runOpcode (run : Nat) (x : DecodeVars) :
    decodeOne (runOpcode run) x = { x with pixels := x.pixels ++ List.replicate run x.prev } := by
  unfold runOpcode
  split <;> rfl

/-- R92, R124 to R130: a flushed run outputs what was pending. -/
theorem decodes_pendingBytes (hmax : s.run ≤ Config.runMax) (pixels : List Pixel) :
    Decodes (pendingBytes s.run) (s.decodeVars pixels) (s.decodeVars (pixels ++ List.replicate s.run s.prev)) := by
  unfold pendingBytes
  split
  next hrun =>
    rw [hrun, List.replicate_zero, List.append_nil]
    exact .nil _
  next hrun => exact .single (runOpcode_wf hrun hmax) (decodeOne_runOpcode s.run (s.decodeVars pixels))

/-- R155: the delta opcode for `v` gives `v` back. -/
theorem decodeOne_deltaOpcode (v : Pixel) (x : DecodeVars) :
    decodeOne (deltaOpcode (deltas v x.prev) v) x = x.newPixel v := by
  have hadd := addDeltas_deltas v x.prev
  rcases deltaOpcode_cases (deltas v x.prev) v with ⟨ha, e⟩ | ⟨ha, -, e⟩ | ⟨-, e⟩ | ⟨-, e⟩ <;> rw [e]
  · exact congrArg x.newPixel (ha ▸ hadd)
  · exact congrArg x.newPixel (ha ▸ hadd)
  · exact congrArg x.newPixel hadd
  · exact congrArg x.newPixel (withLiterals_literalOf v x.prev)

/-- R114, R167: the opcode for `v` outputs `v`, and the decoder's cache stays the encoder's. -/
theorem decodes_pixelOpcode (v : Pixel) (s : State) (pixels : List Pixel) :
    Decodes (encode (pixelOpcode s v)) (s.decodeVars pixels)
      ⟨pixels ++ [v], v, if s.cache[pixelHash v] = v then s.cache else s.cache.set (pixelHash v) v⟩ := by
  rcases pixelOpcode_cases s v with ⟨hhit, e⟩ | ⟨hmiss, e⟩ <;> rw [e]
  · rw [if_pos hhit]
    have hone : decodeOne (.index (pixelHash v)) (s.decodeVars pixels) = ⟨pixels ++ [v], v, s.cache⟩ :=
      congrArg (fun p => (⟨pixels ++ [p], p, s.cache⟩ : DecodeVars)) hhit
    exact .single rfl hone
  · rw [if_neg hmiss]
    exact .single (deltaOpcode_wf ..) (decodeOne_deltaOpcode v (s.decodeVars pixels))

/-- What a decoder lacks that has taken all bytes written so far (R123). -/
def State.pending (s : State) : List Pixel := List.replicate s.run s.prev

/-- One pixel of an encode: its bytes take the decoder to the encoder's next registers, and what it has output and what is pending
are one pixel more. -/
theorem decodes_pixelCode (v : Pixel) (hrun : s.run < Config.runMax) (pixels : List Pixel) :
    ∃ pixels', Decodes (s.pixelCode v) (s.decodeVars pixels) ((s.afterPixel v).decodeVars pixels') ∧
      pixels' ++ (s.afterPixel v).pending = pixels ++ s.pending ++ [v] ∧ (s.afterPixel v).run < Config.runMax := by
  by_cases hprev : v = s.prev
  · subst hprev
    have hgrown : s.pending ++ [s.prev] = List.replicate (s.run + 1) s.prev := List.replicate_succ'.symm
    rw [afterPixel_of_eq rfl, State.pixelCode, if_pos rfl, List.append_assoc, hgrown]
    by_cases hsplit : s.run + 1 = Config.runMax
    · rw [if_pos hsplit, if_pos hsplit, hsplit]
      exact ⟨_, .single (runOpcode_wf (by decide) le_rfl) (decodeOne_runOpcode Config.runMax (s.decodeVars pixels)),
        List.append_nil _, Nat.zero_lt_succ _⟩
    · rw [if_neg hsplit, if_neg hsplit]
      exact ⟨pixels, .nil _, rfl, Nat.lt_of_le_of_ne hrun hsplit⟩
  · rw [afterPixel_of_ne hprev, pixelCode_of_ne hprev]
    exact ⟨_, (decodes_pendingBytes hrun.le pixels).trans (decodes_pixelOpcode v s _), List.append_nil _, Nat.zero_lt_succ _⟩

/-! ### The whole encode -/

/-- What follows an append completes only where the append fits. -/
theorem fits_of_varsWithin {α : Type} {f : Except FaultKind EncodeVars → Except FaultKind α} {r : α}
    (hf : ∀ e, f (.error e) = .error e) (h : f (s.varsWithin cap bytes) = .ok r) :
    bytes.length ≤ cap ∧ f (.ok (s.vars bytes)) = .ok r := by
  rcases Nat.lt_or_ge cap bytes.length with hfull | hroom
  · rw [State.varsWithin_of_full hfull, hf] at h
    cases h
  · rw [State.varsWithin_of_room hroom] at h
    exact ⟨hroom, h⟩

/-- The bytes of an encode from any of its states on are opcodes that output the pending run and the pixels left, and the
trailer. -/
theorem encodeList_decodes (hrun : s.run < Config.runMax) (hbytes : bytes.length ≤ cap) {result : List Byte}
    (h : (encodeList cap vs (s.vars bytes)).bind (EncodeVars.finish cap) = .ok result) (pixels : List Pixel) :
    ∃ code y, result = bytes ++ code ++ [0, 0, 0, 0] ∧ Decodes code (s.decodeVars pixels) y ∧
      y.pixels = pixels ++ s.pending ++ vs := by
  induction vs generalizing s bytes pixels with
  | nil =>
    have hfinish : (s.varsWithin cap (bytes ++ (pendingBytes s.run ++ [0, 0, 0, 0]))).map EncodeVars.bytes = .ok result :=
      (finish_vars hbytes).symm.trans h
    obtain ⟨-, hresult⟩ := fits_of_varsWithin (f := Except.map EncodeVars.bytes) (fun _ => rfl) hfinish
    obtain rfl := Except.ok.inj hresult
    exact ⟨_, _, (List.append_assoc ..).symm, decodes_pendingBytes hrun.le pixels, (List.append_nil _).symm⟩
  | cons v vs ih =>
    rw [encodeList, encodeOne_vars v hbytes] at h
    obtain ⟨hroom, hrest⟩ := fits_of_varsWithin
      (f := fun x => (x.bind (encodeList cap vs)).bind (EncodeVars.finish cap)) (fun _ => rfl) h
    obtain ⟨pixels', hcode, hpending, hrun'⟩ := decodes_pixelCode v hrun pixels
    obtain ⟨code, y, rfl, hcode', hy⟩ := ih hrun' hroom hrest pixels'
    refine ⟨_, y, by rw [List.append_assoc bytes], hcode.trans hcode', ?_⟩
    rw [hy, hpending, List.append_assoc _ [v], List.singleton_append]

/-- The bytes of a completed encode: the header, opcodes that output the image, and the trailer (R68, R172). -/
theorem encodeImage_decodes {m : Magic} {w h : Word} {c cs : Byte} {result : List Byte}
    (hresult : encodeImage m w h c cs vs = .ok result) :
    vs.length = w.toNat * h.toNat ∧ ∃ code y, result = headerOf m w h c cs ++ code ++ [0, 0, 0, 0] ∧
      Decodes code ⟨[], Config.prevInit, cacheInit⟩ y ∧ y.pixels = vs := by
  by_cases hn : vs.length = w.toNat * h.toNat
  · rw [encodeImage_of_count m hn] at hresult
    refine ⟨hn, ?_⟩
    exact encodeList_decodes (s := State.reset.withRegs Config.prevInit 0 cacheInit) (by decide)
      (Nat.le_trans (by decide : 14 ≤ 18) (encodeCap_ge w h c)) hresult []
  · rw [encodeImage, if_pos hn] at hresult
    cases hresult

/-! ### The round trip -/

section Header

variable (m : Magic) (w h : Word) (c cs : Byte) (rest : List Byte)

theorem headerOf_length : (headerOf m w h c cs).length = 14 := rfl

/-- R68, R178: the header's words read back from their offsets. -/
theorem wordAt_headerOf :
    wordAt (headerOf m w h c cs ++ rest) 0 = m.word ∧ wordAt (headerOf m w h c cs ++ rest) 4 = w ∧
    wordAt (headerOf m w h c cs ++ rest) 8 = h := ⟨join32 m.word, join32 w, join32 h⟩

theorem getD_headerOf :
    (headerOf m w h c cs ++ rest).getD 12 0 = c ∧ (headerOf m w h c cs ++ rest).getD 13 0 = cs := ⟨rfl, rfl⟩

theorem opcodeSection_of_stream (code : List Byte) :
    opcodeSection (headerOf m w h c cs ++ (code ++ [0, 0, 0, 0])) = code := by
  have hlength : (headerOf m w h c cs ++ (code ++ [0, 0, 0, 0])).length - 4 - 14 = code.length := by
    simp only [List.length_append, headerOf_length, List.length_cons, List.length_nil]
    omega
  rw [opcodeSection, List.drop_take, hlength, List.drop_left' (headerOf_length m w h c cs), List.take_left]

end Header

/-- Settles O60: the bytes are the header, opcodes of which R188's loop makes the image, and the trailer. -/
theorem decodeInvertsEncode : Obligations.DecodeInvertsEncode := by
  intro magic pixbufMax w h c cs pixels bytes hencode hsize
  obtain ⟨-, himage⟩ := encodeAll_eq_ok.mp hencode
  obtain ⟨hn, code, y, rfl, hcode, rfl⟩ := encodeImage_decodes himage
  obtain ⟨hmagic, hw, hh⟩ := wordAt_headerOf magic w h c cs (code ++ [0, 0, 0, 0])
  obtain ⟨hc, hcs⟩ := getD_headerOf magic w h c cs (code ++ [0, 0, 0, 0])
  have hlen : 14 ≤ (headerOf magic w h c cs ++ (code ++ [0, 0, 0, 0])).length := by
    rw [List.length_append, headerOf_length]
    exact Nat.le_add_right ..
  rw [List.append_assoc, decodeAll_of_header hlen hmagic hw hh hc hcs hsize, opcodeSection_of_stream,
    hcode.decodeLoop_eq hn.le le_rfl]
  exact if_neg (not_not.mpr hn)

end Sys2Proof.Machine
end

section
/-!
SUPPORT. The sequencer does not look at the schedule: whatever it does, it does with any list of moves still to come, and
leaves that list as it was (R206, R228; the schedule is the model's own, log entry 5).
-/
namespace Sys2Proof.Machine

variable {s : State} {rest : List (Option HostEvent)}

/-- `s` with another list of moves still to come. -/
def State.withHost (rest : List (Option HostEvent)) (s : State) : State := { s with host := rest }

/-- An operation's result with another list of moves still to come. -/
def Res.withHost {α : Type} (rest : List (Option HostEvent)) : Res α → Res α
  | .ok v s => .ok v (s.withHost rest)
  | .raised s => .raised (s.withHost rest)

/-- A turn's outcome with another list of moves still to come. -/
def outcomeWithHost (rest : List (Option HostEvent)) :
    Host.Outcome State Fault Refusal → Host.Outcome State Fault Refusal
  | .next s => .next (s.withHost rest)
  | .fault r => .fault r
  | .refused r => .refused r

/-! ### Tests and sequencing -/

theorem Res.ite_withHost {α : Type} {c : Prop} [Decidable c] {x y x' y' : Res α} (hx : x' = x.withHost rest)
    (hy : y' = y.withHost rest) : (if c then x' else y') = (if c then x else y).withHost rest := by
  rw [hx, hy, apply_ite (Res.withHost rest)]

theorem Res.andThen_withHost {α β : Type} {x x' : Res α} {f f' : α → State → Res β} (hx : x' = x.withHost rest)
    (hf : ∀ v t, f' v (t.withHost rest) = (f v t).withHost rest) : x'.andThen f' = (x.andThen f).withHost rest := by
  subst hx
  cases x with
  | ok v t => exact hf v t
  | raised t => rfl

theorem Res.final_withHost {α : Type} {x x' : Res α} (hx : x' = x.withHost rest) :
    x'.final = x.final.withHost rest := by
  subst hx
  cases x <;> rfl

theorem outcomeWithHost_next {x y : State} (h : y = x.withHost rest) :
    (.next y : Host.Outcome State Fault Refusal) = outcomeWithHost rest (.next x) := by
  rw [h]
  rfl

theorem next_final_withHost {α : Type} {x x' : Res α} (hx : x' = x.withHost rest) :
    (.next x'.final : Host.Outcome State Fault Refusal) = outcomeWithHost rest (.next x.final) :=
  outcomeWithHost_next (Res.final_withHost hx)

theorem ite_outcomeWithHost {c : Prop} [Decidable c] {x y x' y' : Host.Outcome State Fault Refusal}
    (hx : c → x' = outcomeWithHost rest x) (hy : y' = outcomeWithHost rest y) :
    (if c then x' else y') = outcomeWithHost rest (if c then x else y) := by
  split
  next hc => exact hx hc
  next => exact hy

/-! ### The shared operations -/

theorem raise_withHost (k : FaultKind) (n : Nat) (s : State) :
    raise k n (s.withHost rest) = (raise k n s).withHost rest := by
  have outputs : (s.withHost rest).invalidateOutputs = s.invalidateOutputs.withHost rest := by
    rw [State.invalidateOutputs, State.invalidateOutputs, apply_ite (State.withHost rest)]
    rfl
  rw [raise, outputs]
  rfl

theorem cursorWrite_withHost (bs : List Byte) (s : State) :
    cursorWrite bs (s.withHost rest) = (cursorWrite bs s).withHost rest :=
  Res.ite_withHost (congrArg Res.raised (raise_withHost ..)) rfl

theorem emitPixel_withHost (p : Pixel) (s : State) :
    emitPixel p (s.withHost rest) = (emitPixel p s).withHost rest :=
  Res.ite_withHost (congrArg Res.raised (raise_withHost ..)) rfl

theorem emitRun_withHost (p : Pixel) (len : Nat) (s : State) :
    emitRun p len (s.withHost rest) = (emitRun p len s).withHost rest :=
  Res.ite_withHost (congrArg Res.raised (raise_withHost ..)) rfl

theorem finishPixel_withHost (p : Pixel) (s : State) :
    finishPixel p (s.withHost rest) = (finishPixel p s).withHost rest :=
  Res.andThen_withHost (emitPixel_withHost p s) fun _ _ => rfl

/-! ### A turn of a decode -/

theorem exec_withHost (i : Instr) (s : State) : exec i (s.withHost rest) = outcomeWithHost rest (exec i s) := by
  cases i with
  | index k =>
    exact next_final_withHost (Res.andThen_withHost (emitPixel_withHost s.cache[k] (s.advance 1)) fun _ _ => rfl)
  | run8 len => exact next_final_withHost (emitRun_withHost s.prev len (s.advance 1))
  | run16 len => exact next_final_withHost (emitRun_withHost s.prev len (s.advance 2))
  | diff8 dr dg db => exact next_final_withHost (finishPixel_withHost _ (s.advance 1))
  | diff16 dr dg db => exact next_final_withHost (finishPixel_withHost _ (s.advance 2))
  | diff24 dr dg db da => exact next_final_withHost (finishPixel_withHost _ (s.advance 3))
  | color r g b a => exact next_final_withHost (finishPixel_withHost _ (s.advance _))

/-- A decode step that is cut by the trailer (R197). -/
theorem decodeStep_of_cut (hleft : s.pos + 4 < s.lim) (h : s.lim < s.pos + s.opcode.length + 4) :
    decodeStep s = .next (raise .truncatedStream s.pos (s.advance 1)) := by
  rw [decodeStep, fetch_of_cut hleft h]

/-- A decode step at an opcode that ends before the trailer (R181, R183). -/
theorem decodeStep_of_room (h : s.pos + s.opcode.length + 4 ≤ s.lim) : decodeStep s = exec s.opcode s := by
  rw [decodeStep, fetch_of_room h]

theorem decodeStep_withHost (hleft : s.pos + 4 < s.lim) :
    decodeStep (s.withHost rest) = outcomeWithHost rest (decodeStep s) := by
  rcases Nat.lt_or_ge s.lim (s.pos + s.opcode.length + 4) with hcut | hroom
  · rw [decodeStep_of_cut hleft hcut, decodeStep_of_cut (s := s.withHost rest) hleft hcut]
    exact congrArg Host.Outcome.next (raise_withHost _ _ (s.advance 1))
  · rw [decodeStep_of_room hroom, decodeStep_of_room (s := s.withHost rest) hroom]
    exact exec_withHost s.opcode s

theorem decodeFinish_withHost (s : State) : decodeFinish (s.withHost rest) = (decodeFinish s).withHost rest := by
  rcases decodeFinish_cases s with ⟨hout, e⟩ | ⟨hout, e⟩ <;> rw [e]
  · exact if_neg (not_not.mpr hout)
  · exact (if_pos hout).trans (raise_withHost ..)

/-! ### A turn of an encode -/

theorem emitLiteral_withHost (flag : Bool) (v : Byte) (s : State) :
    emitLiteral flag v (s.withHost rest) = (emitLiteral flag v s).withHost rest :=
  Res.ite_withHost (cursorWrite_withHost [v] s) rfl

theorem emitColor_withHost (d : Deltas) (v : Pixel) (s : State) :
    emitColor d v (s.withHost rest) = (emitColor d v s).withHost rest :=
  Res.andThen_withHost (cursorWrite_withHost [_] s) fun _ s1 =>
  Res.andThen_withHost (emitLiteral_withHost _ v.r s1) fun _ s2 =>
  Res.andThen_withHost (emitLiteral_withHost _ v.g s2) fun _ s3 =>
  Res.andThen_withHost (emitLiteral_withHost _ v.b s3) fun _ s4 => emitLiteral_withHost _ v.a s4

theorem emitDelta_withHost (d : Deltas) (v : Pixel) (s : State) :
    emitDelta d v (s.withHost rest) = (emitDelta d v s).withHost rest :=
  Res.ite_withHost (cursorWrite_withHost _ s) <| Res.ite_withHost (cursorWrite_withHost _ s) <|
    Res.ite_withHost (cursorWrite_withHost _ s) (emitColor_withHost d v s)

theorem flushRun_withHost (run : Nat) (s : State) :
    flushRun run (s.withHost rest) = (flushRun run s).withHost rest := by
  rw [flushRun_eq, flushRun_eq, cursorWrite_withHost]

theorem flushPending_withHost (s : State) : flushPending (s.withHost rest) = (flushPending s).withHost rest :=
  Res.ite_withHost (Res.andThen_withHost (flushRun_withHost s.run s) fun _ _ => rfl) rfl

theorem extendRun_withHost (s : State) : extendRun (s.withHost rest) = (extendRun s).withHost rest :=
  Res.ite_withHost (Res.andThen_withHost (flushRun_withHost _ { s with run := s.run + 1 }) fun _ _ => rfl) rfl

theorem encodePixel_withHost (v : Pixel) (s : State) :
    encodePixel v (s.withHost rest) = (encodePixel v s).withHost rest :=
  Res.andThen_withHost
    (Res.ite_withHost (cursorWrite_withHost _ s) (emitDelta_withHost _ v (s.cacheUpdate v))) fun _ _ => rfl

theorem consumePixel_withHost (v : Pixel) (s : State) :
    consumePixel v (s.withHost rest) = (consumePixel v s).withHost rest :=
  Res.ite_withHost (extendRun_withHost s)
    (Res.andThen_withHost (flushPending_withHost s) fun _ t => encodePixel_withHost v t)

theorem encodeStep_of_missing (h : Cells.get? s.pixin s.idx = none) : encodeStep s = .refused .pixinWordMissing := by
  rw [encodeStep, h]

theorem encodeStep_of_word {w : Word} (h : Cells.get? s.pixin s.idx = some w) :
    encodeStep s = .next (consumePixel (unpack w) { s with idx := s.idx + 1 }).final := by
  rw [encodeStep, h]

theorem encodeStep_withHost (s : State) : encodeStep (s.withHost rest) = outcomeWithHost rest (encodeStep s) := by
  cases h : Cells.get? s.pixin s.idx with
  | none => rw [encodeStep_of_missing h, encodeStep_of_missing (s := s.withHost rest) h]; rfl
  | some w =>
    rw [encodeStep_of_word h, encodeStep_of_word (s := s.withHost rest) h]
    exact next_final_withHost (consumePixel_withHost (unpack w) { s with idx := s.idx + 1 })

theorem encodeFinish_withHost (s : State) : encodeFinish (s.withHost rest) = (encodeFinish s).withHost rest :=
  Res.final_withHost (Res.andThen_withHost (flushPending_withHost s) fun _ t =>
    Res.andThen_withHost (cursorWrite_withHost (be32 0) t) fun _ _ => rfl)

/-! ### A turn of the sequencer -/

/-- A turn does with any list of moves to come what it does with any other (R206). -/
theorem seqStep_withHost (s : State) : seqStep (s.withHost rest) = outcomeWithHost rest (seqStep s) := by
  have hmode : (s.withHost rest).mode = s.mode := rfl
  rw [seqStep, seqStep, hmode]
  cases s.mode with
  | enc => exact ite_outcomeWithHost (fun _ => encodeStep_withHost s) (outcomeWithHost_next (encodeFinish_withHost s))
  | dec =>
    exact ite_outcomeWithHost (fun hleft => decodeStep_withHost (s := s) hleft)
      (outcomeWithHost_next (decodeFinish_withHost s))
  | idle | done | fault => rfl

end Sys2Proof.Machine
end

section
/-!
PROOF. Faults and waiting (spec/60_exceptions.md): TruncatedStream (R197), that no running invocation is stuck (R206), and that
the other modes wait for the host (R205, R206).
-/
namespace Sys2Proof.Machine

/-! ### TruncatedStream (R197) -/

/-- Settles O17: by whether the opcode at `pos` ends before the trailer; one that does is executed. -/
theorem truncatedStreamTaken : Obligations.TruncatedStreamTaken := by
  intro s hhost hm hleft
  rw [← opcode_length]
  refine ⟨fun hcut => ?_, fun hroom => ?_⟩
  · exact ⟨by omega, _, (step_of_opcodes_left hhost hm hleft).trans (decodeStep_of_cut hleft hcut), faulted_raise ..,
      keepsPixel_raise_advance .., faultFrame_raise_advance ..⟩
  · obtain ⟨t, e, ht⟩ := exec_cases s.opcode s
    refine ⟨t, (step_of_whole_opcode hhost hm hroom).trans e, fun hfault => ?_⟩
    rcases ht with hcompletes | ⟨info, rfl⟩
    · cases (hcompletes.frame.mode.trans hm).symm.trans hfault
    · rw [raise_fault]

/-! ### No turn is stuck (R206) -/

theorem decodeStep_enabled (s : State) : ∃ t, decodeStep s = .next t := by
  rw [decodeStep]
  rcases fetch_cases s with ⟨i, e, -⟩ | ⟨k, info, n, e⟩ <;> rw [e]
  · obtain ⟨t, e, -⟩ := exec_cases i s
    exact ⟨t, e⟩
  · exact ⟨_, rfl⟩

/-- A turn of the sequencer answers a next state, except where an encode needs a word that the host never placed. -/
theorem seqStep_enabled_or_missing (s : State) :
    (∃ t, seqStep s = .next t) ∨
    (s.mode = .enc ∧ s.idx < s.npix ∧ Cells.get? s.pixin s.idx = none ∧ seqStep s = .refused .pixinWordMissing) := by
  cases hm : s.mode with
  | enc =>
    rcases Nat.lt_or_ge s.idx s.npix with hidx | hend
    · rw [seqStep_of_pixels_left hm hidx]
      cases hword : Cells.get? s.pixin s.idx with
      | none => exact .inr ⟨rfl, hidx, rfl, encodeStep_of_missing hword⟩
      | some w => exact .inl ⟨_, encodeStep_of_word hword⟩
    · exact .inl ⟨encodeFinish s, by simp only [seqStep, hm, if_neg (Nat.not_lt.mpr hend)]⟩
  | dec =>
    left
    simp only [seqStep, hm]
    split
    next => exact decodeStep_enabled s
    next => exact ⟨_, rfl⟩
  | idle | done | fault => exact .inl ⟨s, by simp only [seqStep, hm]⟩

/-- Settles O41: the one turn that answers no next state is at a missing word, which a loaded `PIXIN` excludes. -/
theorem runningStepIsEnabled : Obligations.RunningStepIsEnabled := by
  refine ⟨fun s _ hloaded hhost => ?_, fun s hhost hm hidx hmissing => ?_⟩ <;> rw [step_of_idle_host hhost]
  · rcases seqStep_enabled_or_missing s with henabled | ⟨hm, hidx, hmissing, -⟩
    · exact henabled
    · have hword := hloaded hm s.idx hidx
      simp [hmissing] at hword
  · rw [seqStep_of_pixels_left hm hidx, encodeStep_of_missing hmissing]

/-! ### Waiting for the host (R205, R206) -/

theorem seqStep_ne_fault (s : State) (r : Fault) : seqStep s ≠ .fault r := by
  rcases seqStep_enabled_or_missing s with ⟨t, e⟩ | ⟨-, -, -, e⟩ <;> simp [e]

/-- Settles O43: outside an invocation a turn is `.next s`, and no turn looks at the schedule. -/
theorem waitsForTheHost : Obligations.WaitsForTheHost := by
  refine ⟨fun s => step_of_waiting, fun s rest => ?_⟩
  have hturn : step { s with host := none :: rest } = outcomeWithHost rest (step { s with host := [] }) :=
    seqStep_withHost { s with host := [] }
  exact ⟨fun t e => by rw [hturn, e]; rfl, fun r e => by rw [hturn, e]; rfl, seqStep_ne_fault { s with host := [] }⟩

end Sys2Proof.Machine
end

section
/-!
PROOF. The reset and hazard rules (spec/70_reset_and_hazards.md): a start command while an invocation runs (R222), and power-on
reset at any time (R216).
-/
namespace Sys2Proof.Machine

variable {s : State}

/-- A scheduled move of the host is the step (R206). -/
theorem step_of_scheduled {e : HostEvent} {rest : List (Option HostEvent)} (h : s.host = some e :: rest) :
    step s = hostMove e { s with host := rest } := by
  rw [step, h]

/-! ### Start commands while an invocation runs (R222) -/

theorem startEnc_of_busy (h : s.busy = true) (width height : Word) (channels cspace : Byte) (npix : Nat) :
    startEnc width height channels cspace npix s = .refused .startWhileBusy :=
  if_pos (busy_iff.mp h)

theorem startDec_of_busy (h : s.busy = true) (len : Nat) : startDec len s = .refused .startWhileBusy :=
  if_pos (busy_iff.mp h)

/-- Settles O46: both start commands test `mode` first, and the rest of the schedule does not change `mode`. -/
theorem startWhileBusyRefused : Obligations.StartWhileBusyRefused := by
  intro s rest hm
  have hbusy : ({ s with host := rest } : State).busy = true := busy_iff.mpr hm
  exact ⟨fun w h c cs n hhost => (step_of_scheduled hhost).trans (startEnc_of_busy hbusy w h c cs n),
    fun len hhost => (step_of_scheduled hhost).trans (startDec_of_busy hbusy len)⟩

/-! ### Power-on reset (R216) -/

@[simp] theorem powerOnReset_mode (s : State) : (powerOnReset s).mode = .idle := rfl

@[simp] theorem powerOnReset_code (s : State) : (powerOnReset s).fault.code = 0 := rfl

/-- R41: after power-on reset no byte of a buffer has a value. -/
theorem powerOnReset_unwritten (s : State) (a : Nat) :
    Cells.get? (powerOnReset s).stream a = none ∧ Cells.get? (powerOnReset s).pixin a = none ∧
      Cells.get? (powerOnReset s).pixout a = none :=
  ⟨Cells.get?_nil a, Cells.get?_nil a, Cells.get?_nil a⟩

/-- Settles O47: the reset input is taken in every mode, and at the block it is that of each context. -/
theorem powerOnResetAnyTime : Obligations.PowerOnResetAnyTime := by
  refine ⟨fun s rest hhost => ?_, fun b => ⟨List.length_map .., fun t ht => ?_⟩⟩
  · exact ⟨powerOnReset { s with host := rest }, step_of_scheduled hhost, powerOnReset_mode _, powerOnReset_code _,
      rfl, rfl, powerOnReset_unwritten _⟩
  · obtain ⟨s, -, rfl⟩ := List.mem_map.mp ht
    exact ⟨powerOnReset_mode s, powerOnReset_code s⟩

end Sys2Proof.Machine
end
